-- ==== Sys2Proof/Word.lean ====
section
/-! DEFINITION. The word types of the block (00_scope.md R12, R15): bytes, 16-bit port addresses, 32-bit words.
Bit 0 is the least significant bit; every value is unsigned. -/

namespace Sys2Proof

/-- One byte: an SMBus register, a data byte, a command offset, a PCI register number (R12). -/
abbrev Byte := BitVec 8

/-- A 16-bit port address (R12, R61). -/
abbrev Port := BitVec 16

/-- A 32-bit word: the configuration address word, a 32-bit port access (R12). -/
abbrev Dword := BitVec 32

end Sys2Proof
end

