-- ==== Sys2Proof/Config.lean ====
section
/-! DEFINITION. What an implementation fixes (00_scope.md R9, R10) and the free values (93_implementation_defined.md
U6, U10). The constants of R9 are the document's; the record `Params` of R10 is named by the document and given no
value, so a machine carries one in its state (`State.binding.params`) and statements hold for every one. -/

namespace Sys2Proof

namespace Config

/-- R9: port of the 32-bit configuration address register. -/
def CFG_ADDR_PORT : Port := 0xCF8#16
/-- R9: lowest port of the 4-byte configuration data window. -/
def CFG_DATA_PORT : Port := 0xCFC#16
/-- R9: bit 31 of the configuration address word. -/
def CFG_ENABLE : Dword := 0x80000000#32
/-- R9: mask applied to the register number in the address word. -/
def CFG_REG_MASK : Byte := 0xFC#8
/-- R9: mask giving the byte offset inside the data window. -/
def CFG_LANE_MASK : Byte := 3#8
/-- R9: number of (Bus, Device, Function) triples enumerated. -/
def N_FUNCTIONS : Nat := 65536
/-- R9: re-checks of the busy bits in Recover. -/
def N_BUSY_RETRY : Nat := 10
/-- R9: status polls in one stay in PollComplete. -/
def N_POLL : Nat := 40
/-- R9: cap on a block byte count. -/
def BLOCK_MAX : Nat := 32
/-- R9: size of the data-register window and of a block group. -/
def WINDOW : Nat := 8
/-- R9: the values of the discovered base address that are rejected. -/
def BASE_INVALID : List Port := [0x0000#16, 0xFFFF#16]
/-- R9: "all-ones", written to the status register by ClearSticky. -/
def STS_CLEAR_ALL : Byte := 0xFF#8

end Config

/-- The twenty byte ports of the SMBus register file, by name (10_state.md R30): twelve single-byte registers and the
eight bytes of the data window. -/
inductive Reg where
  | sts | en | cnt | hostcnt | addr | cmd | pcount | count
  | byte (i : Fin 8)
  | devaddr | db0 | db1 | slvsts
  deriving DecidableEq, Repr

/-- The register file in the document's listing order (R30). -/
def Reg.all : List Reg :=
  [.sts, .en, .cnt, .hostcnt, .addr, .cmd, .pcount, .count,
   .byte 0, .byte 1, .byte 2, .byte 3, .byte 4, .byte 5, .byte 6, .byte 7,
   .devaddr, .db0, .db1, .slvsts]

/-- The parameter record `P` of 00_scope.md R10, less `BASE` (a register of the engine, R25). The three delays are
durations with no unit in the source; nothing in this untimed model depends on them (R245). -/
structure Params where
  offSts : Byte
  offEn : Byte
  offCnt : Byte
  offHostcnt : Byte
  offAddr : Byte
  offCmd : Byte
  offPcount : Byte
  offCount : Byte
  offByte : Byte
  offDevaddr : Byte
  offDb0 : Byte
  offDb1 : Byte
  offSlvsts : Byte
  cntHostBusy : Byte
  cntSlaveBusy : Byte
  cntMstoEn : Byte
  hcStart : Byte
  hcKill : Byte
  typeQuick : Byte
  typeByte : Byte
  typeByteData : Byte
  typeBlock : Byte
  stsErrMask : Byte
  stsBlockFin : Byte
  stsDone : Byte
  stsPreclear : Byte
  tKill : Nat
  tRecheck : Nat
  tPoll : Nat
  deriving DecidableEq, Repr

namespace Params

/-- The offsets of the twenty ports, in listing order; window byte i stands at `OFF_BYTE + i` (R10). -/
def portOffsets (p : Params) : List Nat :=
  [p.offSts.toNat, p.offEn.toNat, p.offCnt.toNat, p.offHostcnt.toNat, p.offAddr.toNat, p.offCmd.toNat,
   p.offPcount.toNat, p.offCount.toNat,
   p.offByte.toNat, p.offByte.toNat + 1, p.offByte.toNat + 2, p.offByte.toNat + 3,
   p.offByte.toNat + 4, p.offByte.toNat + 5, p.offByte.toNat + 6, p.offByte.toNat + 7,
   p.offDevaddr.toNat, p.offDb0.toNat, p.offDb1.toNat, p.offSlvsts.toNat]

/-- The five host-control bytes the engine can write: the kill and the four starts (R10, R112). -/
def hostControlBytes (p : Params) : List Byte :=
  [p.hcKill ||| p.typeQuick, p.hcStart ||| p.typeQuick, p.hcStart ||| p.typeByte,
   p.hcStart ||| p.typeByteData, p.hcStart ||| p.typeBlock]

/-- The constraints a model may assume of any `P` (R10). -/
structure Valid (p : Params) : Prop where
  hostBusy_ne : p.cntHostBusy ≠ 0#8
  slaveBusy_ne : p.cntSlaveBusy ≠ 0#8
  mstoEn_ne : p.cntMstoEn ≠ 0#8
  hostControl_nodup : p.hostControlBytes.Nodup
  err_ne : p.stsErrMask ≠ 0#8
  blockFin_ne : p.stsBlockFin ≠ 0#8
  done_ne : p.stsDone ≠ 0#8
  err_blockFin : p.stsErrMask &&& p.stsBlockFin = 0#8
  err_done : p.stsErrMask &&& p.stsDone = 0#8
  blockFin_done : p.stsBlockFin &&& p.stsDone = 0#8
  ports_nodup : p.portOffsets.Nodup

/-- `P0` of R11: an illustration, used by the test vectors only. Nothing of the machine is fixed by it: it serves
here to show that the constraints of R10 can be met, and in Sys2Proof/Tests. R11 leaves `T_KILL`, `T_RECHECK` and
`T_POLL` uninstantiated: the 0 they have here is the model's own, DESIGN CHOICE, and used nowhere (log entry 2). -/
def P0 : Params where
  offSts := 0x00
  offEn := 0x01
  offCnt := 0x02
  offHostcnt := 0x03
  offAddr := 0x04
  offCmd := 0x05
  offPcount := 0x06
  offCount := 0x07
  offByte := 0x08
  offDevaddr := 0x10
  offDb0 := 0x11
  offDb1 := 0x12
  offSlvsts := 0x13
  cntHostBusy := 0x01
  cntSlaveBusy := 0x02
  cntMstoEn := 0x40
  hcStart := 0x10
  hcKill := 0x20
  typeQuick := 0x00
  typeByte := 0x01
  typeByteData := 0x02
  typeBlock := 0x05
  stsErrMask := 0x06
  stsBlockFin := 0x10
  stsDone := 0x08
  stsPreclear := 0xE0
  tKill := 0
  tRecheck := 0
  tPoll := 0

theorem P0_valid : P0.Valid := by constructor <;> decide

end Params

/-- A parameter record together with the constraints of R10. -/
structure ValidParams where
  params : Params
  valid : params.Valid

namespace Config

/-- A permutation of the valid parameter records with no body: nothing can be proved of it. It makes `Config.params`
an unknown record of which only R10's constraints are known (R11: "must take `P` as an argument and must not prove
anything that holds only for `P0`"). Log entry 2. -/
opaque someParams : Equiv.Perm ValidParams

/-- The parameter record of the machine at reset: free but for R10's constraints. -/
def params : Params := (someParams ⟨Params.P0, Params.P0_valid⟩).params

theorem params_valid : params.Valid := (someParams ⟨Params.P0, Params.P0_valid⟩).valid

/-- The free value of a port read that nothing fixes (U6, U10; 10_state.md R24 "treats a read as a draw"), applied to
a counter of the state that every draw advances. Log entry 5. -/
opaque portDraw : Nat → Byte

end Config

end Sys2Proof
end

