-- ==== Sys2Proof/Syntax.lean ====
section
/-! DEFINITION. The commands of the block as syntax: one constructor for each of the fifteen operations of
30_encoding.md R101 (the fifteen rows of spec/opcode_table.json), operands typed at their widths (R12, R104 c). -/

namespace Sys2Proof

/-- A PCI configuration access: the six CFG_RD and CFG_WR operations as one type, with the function's Bus, Device and
Function numbers, the register number and, for a write, the value (40_pci_config.md R130). A scan's visitor may issue
these between scan steps (R105, R138). -/
inductive CfgAccess where
  | rd8  (bus : BitVec 8) (dev : BitVec 5) (fn : BitVec 3) (reg : Byte)
  | rd16 (bus : BitVec 8) (dev : BitVec 5) (fn : BitVec 3) (reg : Byte)
  | rd32 (bus : BitVec 8) (dev : BitVec 5) (fn : BitVec 3) (reg : Byte)
  | wr8  (bus : BitVec 8) (dev : BitVec 5) (fn : BitVec 3) (reg : Byte) (v : Byte)
  | wr16 (bus : BitVec 8) (dev : BitVec 5) (fn : BitVec 3) (reg : Byte) (v : BitVec 16)
  | wr32 (bus : BitVec 8) (dev : BitVec 5) (fn : BitVec 3) (reg : Byte) (v : Dword)
  deriving DecidableEq, Repr

/-- What a scan's visitor does at one call: the configuration commands it issues, in order, and the bit it returns
(R138). `none` stands for a call that never returns (93_implementation_defined.md U29). -/
structure VisitorCall where
  cmds : List CfgAccess
  answer : Option Bool
  deriving DecidableEq, Repr

/-- The operations of the block (R101), one constructor for each row of the opcode table.

The visitor of `cfgScan` is a client's procedure. What such a procedure does in one scan is a sequence of calls, so
the operand is that sequence: call n of the list is what the visitor does at the n-th triple, and from the end of the
list on it issues nothing and returns 0. Every behaviour a visitor can show in a scan is one such list, since a scan
makes at most 65536 calls (log entry 9). -/
inductive Instr where
  | cfgRd8  (bus : BitVec 8) (dev : BitVec 5) (fn : BitVec 3) (reg : Byte)
  | cfgRd16 (bus : BitVec 8) (dev : BitVec 5) (fn : BitVec 3) (reg : Byte)
  | cfgRd32 (bus : BitVec 8) (dev : BitVec 5) (fn : BitVec 3) (reg : Byte)
  | cfgWr8  (bus : BitVec 8) (dev : BitVec 5) (fn : BitVec 3) (reg : Byte) (v : Byte)
  | cfgWr16 (bus : BitVec 8) (dev : BitVec 5) (fn : BitVec 3) (reg : Byte) (v : BitVec 16)
  | cfgWr32 (bus : BitVec 8) (dev : BitVec 5) (fn : BitVec 3) (reg : Byte) (v : Dword)
  | cfgScan (visitor : List VisitorCall)
  | smbWriteQuick (sa : BitVec 7)
  | smbReadQuick (sa : BitVec 7)
  | smbWriteByte (sa : BitVec 7) (data : Byte)
  | smbReadByte (sa : BitVec 7)
  | smbWriteByteData (sa : BitVec 7) (cmd : Byte) (data : Byte)
  | smbReadByteData (sa : BitVec 7) (cmd : Byte)
  | smbWriteBlockData (sa : BitVec 7) (cmd : Byte) (data : List Byte)
  | smbReadBlockData (sa : BitVec 7) (cmd : Byte)
  deriving DecidableEq, Repr

end Sys2Proof
end

