-- ==== Sys2Proof/WellFormed.lean ====
section
/-! DEFINITION. Which terms of `Instr` the spec gives a meaning: the operand conditions of 30_encoding.md R104 (b)
and (d) that the types do not already enforce. -/

namespace Sys2Proof

/-- R71: an access of n bytes at register `reg` stays inside the data window when `(reg & 3) + n <= 4`. -/
def fitsWindow (reg : Byte) (n : Nat) : Bool := decide ((reg &&& Config.CFG_LANE_MASK).toNat + n ≤ 4)

/-- R102, R104 b: a block write carries 1 to 32 bytes. -/
def blockLengthOk (data : List Byte) : Bool := decide (1 ≤ data.length ∧ data.length ≤ Config.BLOCK_MAX)

/-- R104 d for one configuration access (a command's own, or one a visitor issues). -/
def CfgAccess.wellFormed : CfgAccess → Bool
  | .rd8 _ _ _ reg => fitsWindow reg 1
  | .rd16 _ _ _ reg => fitsWindow reg 2
  | .rd32 _ _ _ reg => fitsWindow reg 4
  | .wr8 _ _ _ reg _ => fitsWindow reg 1
  | .wr16 _ _ _ reg _ => fitsWindow reg 2
  | .wr32 _ _ _ reg _ => fitsWindow reg 4

/-- The well-formed commands: R104 (b) and (d) refuse the others. -/
def Instr.wellFormed : Instr → Bool
  | .cfgRd8 _ _ _ reg => fitsWindow reg 1
  | .cfgRd16 _ _ _ reg => fitsWindow reg 2
  | .cfgRd32 _ _ _ reg => fitsWindow reg 4
  | .cfgWr8 _ _ _ reg _ => fitsWindow reg 1
  | .cfgWr16 _ _ _ reg _ => fitsWindow reg 2
  | .cfgWr32 _ _ _ reg _ => fitsWindow reg 4
  | .cfgScan _ => true
  | .smbWriteQuick _ => true
  | .smbReadQuick _ => true
  | .smbWriteByte _ _ => true
  | .smbReadByte _ => true
  | .smbWriteByteData _ _ _ => true
  | .smbReadByteData _ _ => true
  | .smbWriteBlockData _ _ data => blockLengthOk data
  | .smbReadBlockData _ _ => true

end Sys2Proof
end

