-- ==== Sys2Proof/Decode.lean ====
section
/-! DEFINITION. The command word of 30_encoding.md R102 to R104: a total decoder that rejects by name, the encoder
written from the same tables, and the opcode table's rows (spec/opcode_table.json). -/

namespace Sys2Proof

/-- A command at the client's interface: "a 32-bit word plus, for some operations, a data operand" (R102).
`wdata` is present for the three configuration writes, `visitor` for `CFG_SCAN`, and `wbuf` is the byte sequence of
an SMBus write (empty where there is none). -/
structure Command where
  word : Dword
  wdata : Option Dword := none
  wbuf : List Byte := []
  visitor : Option (List VisitorCall) := none
  deriving DecidableEq, Repr

/-- Why a command is refused by its encoding (R104 a to d). -/
inductive Reject where
  /-- R104 a: the opcode is not in the table of R102. -/
  | unknownOpcode
  /-- R104 b: a must-be-zero field is not zero. -/
  | fieldNotZero
  /-- R104 b: `wlen` is outside the range R102 gives for the opcode. -/
  | wlenOutOfRange
  /-- R104 b: the length of `wbuf` is not `wlen`. -/
  | wbufLength
  /-- R104 b: `wdata` has bits set above the operation's width. -/
  | wdataTooWide
  /-- R102: the operation's data operand is missing, or one is given that the operation does not have. -/
  | wrongOperand
  /-- R104 d: the configuration access would leave the data window. -/
  | leavesWindow
  deriving DecidableEq, Repr

/-! ### Fields of the command word (R102) -/

/-- Bits 31:24. -/
def opcodeOf (w : Dword) : Byte := w.extractLsb' 24 8
/-- Format C, bits 23:16. -/
def busOf (w : Dword) : BitVec 8 := w.extractLsb' 16 8
/-- Format C, bits 15:11. -/
def devOf (w : Dword) : BitVec 5 := w.extractLsb' 11 5
/-- Format C, bits 10:8. -/
def fnOf (w : Dword) : BitVec 3 := w.extractLsb' 8 3
/-- Format C, bits 7:0. -/
def regOf (w : Dword) : Byte := w.extractLsb' 0 8
/-- Format S, bit 23, which must be zero. -/
def zeroBitOf (w : Dword) : BitVec 1 := w.extractLsb' 23 1
/-- Format S, bits 22:16. -/
def saOf (w : Dword) : BitVec 7 := w.extractLsb' 16 7
/-- Format S, bits 15:8. -/
def cmdOf (w : Dword) : Byte := w.extractLsb' 8 8
/-- Format S, bits 7:6, which must be zero. -/
def zeroPairOf (w : Dword) : BitVec 2 := w.extractLsb' 6 2
/-- Format S, bits 5:0. -/
def wlenOf (w : Dword) : BitVec 6 := w.extractLsb' 0 6

/-! ### The decoder -/

/-- Go on where the check holds, else reject by name. -/
def need (ok : Bool) (r : Reject) (go : Except Reject Instr) : Except Reject Instr :=
  if ok then go else .error r

/-- The command carries no data operand. -/
def Command.bare (c : Command) : Bool := c.wdata.isNone && c.wbuf.isEmpty && c.visitor.isNone

/-- A configuration read of n bytes. -/
def decodeCfgRead (c : Command) (n : Nat) (i : Instr) : Except Reject Instr :=
  need c.bare .wrongOperand <| need (fitsWindow (regOf c.word) n) .leavesWindow <| .ok i

/-- A configuration write of n bytes: `wdata` is there and no wider than the operation. -/
def decodeCfgWrite (c : Command) (n : Nat) (i : Dword → Instr) : Except Reject Instr :=
  match c.wdata with
  | none => .error .wrongOperand
  | some v =>
    need (c.wbuf.isEmpty && c.visitor.isNone) .wrongOperand <|
    need (decide (v.toNat < 2 ^ (8 * n))) .wdataTooWide <|
    need (fitsWindow (regOf c.word) n) .leavesWindow <| .ok (i v)

/-- `CFG_SCAN`: bits 26:0 are 0 and the visitor is given. -/
def decodeScan (c : Command) : Except Reject Instr :=
  match c.visitor with
  | none => .error .wrongOperand
  | some v =>
    need (c.wdata.isNone && c.wbuf.isEmpty) .wrongOperand <|
    need (decide (c.word.extractLsb' 0 27 = 0#27)) .fieldNotZero <| .ok (.cfgScan v)

/-- Format S: the must-be-zero bits (and `cmd` where the type has none), the range of `wlen`, the length of `wbuf`. -/
def decodeSmb (c : Command) (cmdZero : Bool) (lo hi : Nat) (i : Instr) : Except Reject Instr :=
  need (c.wdata.isNone && c.visitor.isNone) .wrongOperand <|
  need (decide (zeroBitOf c.word = 0#1) && decide (zeroPairOf c.word = 0#2) &&
        (!cmdZero || decide (cmdOf c.word = 0#8))) .fieldNotZero <|
  need (decide (lo ≤ (wlenOf c.word).toNat ∧ (wlenOf c.word).toNat ≤ hi)) .wlenOutOfRange <|
  need (decide (c.wbuf.length = (wlenOf c.word).toNat)) .wbufLength <| .ok i

/-- The decoder: total, by the opcode table of R102; every other word is refused (R104 a, R120). -/
def decode (c : Command) : Except Reject Instr :=
  let w := c.word
  match (opcodeOf w).toNat with
  | 0x00 => decodeCfgRead c 1 (.cfgRd8 (busOf w) (devOf w) (fnOf w) (regOf w))
  | 0x01 => decodeCfgRead c 2 (.cfgRd16 (busOf w) (devOf w) (fnOf w) (regOf w))
  | 0x02 => decodeCfgRead c 4 (.cfgRd32 (busOf w) (devOf w) (fnOf w) (regOf w))
  | 0x04 => decodeCfgWrite c 1 fun v => .cfgWr8 (busOf w) (devOf w) (fnOf w) (regOf w) (v.setWidth 8)
  | 0x05 => decodeCfgWrite c 2 fun v => .cfgWr16 (busOf w) (devOf w) (fnOf w) (regOf w) (v.setWidth 16)
  | 0x06 => decodeCfgWrite c 4 fun v => .cfgWr32 (busOf w) (devOf w) (fnOf w) (regOf w) v
  | 0x08 => decodeScan c
  | 0x10 => decodeSmb c true 0 0 (.smbWriteQuick (saOf w))
  | 0x11 => decodeSmb c true 0 0 (.smbReadQuick (saOf w))
  | 0x12 => decodeSmb c true 1 1 (.smbWriteByte (saOf w) (c.wbuf.headD 0#8))
  | 0x13 => decodeSmb c true 0 0 (.smbReadByte (saOf w))
  | 0x14 => decodeSmb c false 1 1 (.smbWriteByteData (saOf w) (cmdOf w) (c.wbuf.headD 0#8))
  | 0x15 => decodeSmb c false 0 0 (.smbReadByteData (saOf w) (cmdOf w))
  | 0x16 => decodeSmb c false 1 Config.BLOCK_MAX (.smbWriteBlockData (saOf w) (cmdOf w) c.wbuf)
  | 0x17 => decodeSmb c false 0 0 (.smbReadBlockData (saOf w) (cmdOf w))
  | _ => .error .unknownOpcode

/-! ### The encoder -/

/-- Format C: opcode, bus, dev, fun, reg (R102). -/
def wordC (op : Byte) (bus : BitVec 8) (dev : BitVec 5) (fn : BitVec 3) (reg : Byte) : Dword :=
  op ++ bus ++ dev ++ fn ++ reg

/-- Format S: opcode, 0, sa, cmd, 00, wlen (R102). -/
def wordS (op : Byte) (sa : BitVec 7) (cmd : Byte) (wlen : BitVec 6) : Dword :=
  op ++ 0#1 ++ sa ++ cmd ++ 0#2 ++ wlen

/-- The command of an instruction (for a well-formed one, the command that decodes to it). -/
def encode : Instr → Command
  | .cfgRd8 b d f r => { word := wordC 0x00#8 b d f r }
  | .cfgRd16 b d f r => { word := wordC 0x01#8 b d f r }
  | .cfgRd32 b d f r => { word := wordC 0x02#8 b d f r }
  | .cfgWr8 b d f r v => { word := wordC 0x04#8 b d f r, wdata := some (v.setWidth 32) }
  | .cfgWr16 b d f r v => { word := wordC 0x05#8 b d f r, wdata := some (v.setWidth 32) }
  | .cfgWr32 b d f r v => { word := wordC 0x06#8 b d f r, wdata := some v }
  | .cfgScan visitor => { word := 0x08000000#32, visitor := some visitor }
  | .smbWriteQuick sa => { word := wordS 0x10#8 sa 0#8 0#6 }
  | .smbReadQuick sa => { word := wordS 0x11#8 sa 0#8 0#6 }
  | .smbWriteByte sa data => { word := wordS 0x12#8 sa 0#8 1#6, wbuf := [data] }
  | .smbReadByte sa => { word := wordS 0x13#8 sa 0#8 0#6 }
  | .smbWriteByteData sa cmd data => { word := wordS 0x14#8 sa cmd 1#6, wbuf := [data] }
  | .smbReadByteData sa cmd => { word := wordS 0x15#8 sa cmd 0#6 }
  | .smbWriteBlockData sa cmd data => { word := wordS 0x16#8 sa cmd (BitVec.ofNat 6 data.length), wbuf := data }
  | .smbReadBlockData sa cmd => { word := wordS 0x17#8 sa cmd 0#6 }

/-! ### The opcode table -/

/-- One row of spec/opcode_table.json: a word belongs to the row when `word & mask = pattern` ("match"). -/
structure OpcodeRow where
  mnemonic : String
  pattern : Dword
  mask : Dword
  deriving DecidableEq, Repr

/-- The fifteen rows. -/
def opcodeTable : List OpcodeRow :=
  [⟨"CFG_RD8", 0x00000000#32, 0xFF000000#32⟩,
   ⟨"CFG_RD16", 0x01000000#32, 0xFF000000#32⟩,
   ⟨"CFG_RD32", 0x02000000#32, 0xFF000000#32⟩,
   ⟨"CFG_WR8", 0x04000000#32, 0xFF000000#32⟩,
   ⟨"CFG_WR16", 0x05000000#32, 0xFF000000#32⟩,
   ⟨"CFG_WR32", 0x06000000#32, 0xFF000000#32⟩,
   ⟨"CFG_SCAN", 0x08000000#32, 0xFFFFFFFF#32⟩,
   ⟨"SMB_WRITE_QUICK", 0x10000000#32, 0xFF80FFFF#32⟩,
   ⟨"SMB_READ_QUICK", 0x11000000#32, 0xFF80FFFF#32⟩,
   ⟨"SMB_WRITE_BYTE", 0x12000001#32, 0xFF80FFFF#32⟩,
   ⟨"SMB_READ_BYTE", 0x13000000#32, 0xFF80FFFF#32⟩,
   ⟨"SMB_WRITE_BYTE_DATA", 0x14000001#32, 0xFF8000FF#32⟩,
   ⟨"SMB_READ_BYTE_DATA", 0x15000000#32, 0xFF8000FF#32⟩,
   ⟨"SMB_WRITE_BLOCK_DATA", 0x16000000#32, 0xFF8000C0#32⟩,
   ⟨"SMB_READ_BLOCK_DATA", 0x17000000#32, 0xFF8000FF#32⟩]

/-- The table's name for an instruction (R101). -/
def Instr.mnemonic : Instr → String
  | .cfgRd8 _ _ _ _ => "CFG_RD8"
  | .cfgRd16 _ _ _ _ => "CFG_RD16"
  | .cfgRd32 _ _ _ _ => "CFG_RD32"
  | .cfgWr8 _ _ _ _ _ => "CFG_WR8"
  | .cfgWr16 _ _ _ _ _ => "CFG_WR16"
  | .cfgWr32 _ _ _ _ _ => "CFG_WR32"
  | .cfgScan _ => "CFG_SCAN"
  | .smbWriteQuick _ => "SMB_WRITE_QUICK"
  | .smbReadQuick _ => "SMB_READ_QUICK"
  | .smbWriteByte _ _ => "SMB_WRITE_BYTE"
  | .smbReadByte _ => "SMB_READ_BYTE"
  | .smbWriteByteData _ _ _ => "SMB_WRITE_BYTE_DATA"
  | .smbReadByteData _ _ => "SMB_READ_BYTE_DATA"
  | .smbWriteBlockData _ _ _ => "SMB_WRITE_BLOCK_DATA"
  | .smbReadBlockData _ _ => "SMB_READ_BLOCK_DATA"

/-! ### Words as the opcode table numbers them -/

/-- n bytes read upward from bit 0 of a number. -/
def bytesFromBits : Nat → Nat → List Byte
  | 0, _ => []
  | n + 1, w => BitVec.ofNat 8 w :: bytesFromBits n (w / 256)

/-- The command whose bits are w: the command word in bits 31:0 and the data operand, where the opcode has one, in
the bits above (`wdata` as 32 bits, `wbuf` as `wlen` bytes, first byte lowest; a visitor has no bits and stands as
the empty list of calls). The bits from nbits up are 0. Log entry 10. -/
def commandOfBits (nbits w : Nat) : Command :=
  let w := w % 2 ^ nbits
  let word : Dword := BitVec.ofNat 32 w
  let operand := w / 2 ^ 32
  let op := (opcodeOf word).toNat
  if 0x04 ≤ op ∧ op ≤ 0x06 then { word := word, wdata := some (BitVec.ofNat 32 operand) }
  else if op = 0x08 then { word := word, visitor := some [] }
  else if 0x10 ≤ op ∧ op ≤ 0x17 then { word := word, wbuf := bytesFromBits (wlenOf word).toNat operand }
  else { word := word }

/-- The instruction the decoder reads from an instruction whose bits are w (bit 0 the least significant bit of the
command word). -/
def decodeTableWord (nbits w : Nat) : Option Instr :=
  match decode (commandOfBits nbits w) with
  | .ok i => some i
  | .error _ => none

end Sys2Proof
end

