-- ==== Sys2Proof/Machine/State.lean ====
section
/-! DEFINITION. The state of the block and of its environment (10_state.md R20), as plain data: the working registers
of the configuration accessor (R21), those of the SMBus engine (R25 to R28), the configuration address latch (R22),
the configuration space (R24) and the SMBus register file (R30 to R43), with the inputs the outside world supplies
(commands, the bind step, the environment's own changes) and the record of block steps. -/

namespace Sys2Proof.Machine

/-- Why the block never takes another step. -/
inductive Fault where
  /-- Raised by `CFG_SCAN` when a call of the visitor never returns: "the scan is then stuck, and that is the client's
  doing" (93_implementation_defined.md U29). Safe: the model stops. -/
  | visitorNeverReturns
  deriving DecidableEq, Repr

/-- What the spec gives no meaning to and refuses (00_scope.md R17; 30_encoding.md R104). All are safe: the model
stops where the hardware's behaviour is not specified. -/
inductive Refusal where
  /-- Raised by `exec` for an instruction that has no meaning yet (none). -/
  | notModelled (mnemonic : String)
  /-- Raised by `step` for a command whose encoding is refused (R104 a to d). -/
  | illegalCommand (why : Reject)
  /-- Raised by every operation and by the bind step while an SMBus pass is active (R104 f, R105). -/
  | operationActive
  /-- Raised by the SMBus operations while `BASE_VALID` = 0 (R104 e). -/
  | noBase
  /-- Raised for a configuration access outside the data window (R104 d): by `CFG_SCAN` for one its visitor issues, and
  by the configuration operations on a term that decoding never gives. -/
  | leavesWindow
  /-- Raised by the block write for 0 or more than 32 bytes (R104 b), on a term that decoding never gives. -/
  | blockLength
  /-- Raised by the SMBus operations when a port of the register file falls on `0xCF8..0xCFF` (20_memory.md R63: a
  model should require that none does; an access there is without meaning, R69). -/
  | portsMeetConfig
  /-- Raised by the bind step for the base values `0x0000` and `0xFFFF` (70_reset_and_hazards.md R262). -/
  | bindInvalid
  /-- Raised by a second bind step (R262). -/
  | bindTwice
  deriving DecidableEq, Repr

/-! ### Names -/

/-- The state register `st` (10_state.md R26). -/
inductive Phase where
  | idle | busyCheck | recover | clearFlags | startTransfer | pollComplete | blockReadLoop | clearSticky
  | done | failed | blockWriteLoop
  deriving DecidableEq, Repr

/-- The transfer types of `x[type]` (R27). -/
inductive Xfer where
  | quick | byte | byteData | blockData
  deriving DecidableEq, Repr

/-- The direction `x[rw]` (R27). -/
inductive Dir where
  | write | read
  deriving DecidableEq, Repr

/-- The failure codes `x[fail]` can hold (R28: 0, 3, 4, 5; 60_exceptions.md R220). -/
inductive FailCode where
  | noFailure | busContention | transferFailure | transferTimeout
  deriving DecidableEq, Repr

/-- The three delays (60_exceptions.md R245). -/
inductive DelayKind where
  | kill | recheck | poll
  deriving DecidableEq, Repr

/-- The diagnostic texts the source quotes (R220, 60_exceptions.md R247): three of the engine, one of `initSMB`. -/
inductive Diag where
  | hostOrSlaveBusy | transferFailed | transferTimeout | couldNotEnableAcpi
  deriving DecidableEq, Repr

/-- Where the port primitives run: on the hardware, or on the stub platform of 20_memory.md R64. -/
inductive Platform where
  | hardware | stub
  deriving DecidableEq, Repr

/-- One step of the block (00_scope.md R13), as the record `trace` keeps it: a port access with the value moved, a
delay, a visitor call; and a text on the diagnostic side channel (R16 `Diag`), which is no step and changes nothing. -/
inductive Event where
  | rd8 (p : Port) (v : Byte)
  | rd32 (p : Port) (v : Dword)
  | wr8 (p : Port) (v : Byte)
  | wr32 (p : Port) (v : Dword)
  | delay (d : DelayKind)
  | visit (bus : BitVec 8) (dev : BitVec 5) (fn : BitVec 3)
  | diag (d : Diag)
  deriving DecidableEq, Repr

/-- A change the environment makes on its own: a register of the SMBus register file, or a byte of the configuration
space of the function with linear index i (20_memory.md R73, R80: "may change volatile registers between any two
steps"; 10_state.md R24). -/
inductive EnvAct where
  | setReg (r : Reg) (v : Byte)
  | setCfg (i : BitVec 16) (reg : Byte) (v : Byte)
  deriving DecidableEq, Repr

/-- What the client hands to the block: a command (30_encoding.md R102) or the bind step's value (R107). -/
inductive ClientInput where
  | command (c : Command)
  | bind (b : Port)
  deriving DecidableEq, Repr

/-! ### Parts of the state -/

/-- The configuration space: byte `cfg[i][r]` at address `i * 256 + r` (20_memory.md R67), as a list with strictly
rising addresses. A byte that is not listed has no known value. -/
abbrev Memory := List Host.Cell

/-- A 32-byte buffer (`x[wbuf]`, `x[rbuf]`). -/
abbrev Buffer := Vector Byte 32

/-- The SMBus register file (10_state.md R30 to R43). -/
structure RegFile where
  sts : Byte
  en : Byte
  cnt : Byte
  hostcnt : Byte
  addr : Byte
  cmd : Byte
  pcount : Byte
  count : Byte
  win : Vector Byte 8
  devaddr : Byte
  db0 : Byte
  db1 : Byte
  slvsts : Byte
  deriving DecidableEq, Repr

/-- Working registers of the configuration accessor (R21). -/
structure Accessor where
  bus : BitVec 8
  dev : BitVec 5
  fn : BitVec 3
  reg : Byte
  wdata : Dword
  rdata : Dword
  idx : BitVec 17
  found : Bool
  deriving DecidableEq, Repr

/-- Working registers of the SMBus engine (R26 to R28). The counters are natural numbers; the ranges R28 gives them
are part of the invariant of Safety.lean. -/
structure Engine where
  st : Phase
  type : Xfer
  rw : Dir
  sa : BitVec 7
  cmd : Byte
  wlen : Nat
  wbuf : Buffer
  retry : Nat
  poll : Nat
  c : Byte
  s : Byte
  cnt : Nat
  got : Nat
  rbuf : Buffer
  rlen : Nat
  ok : Bool
  fail : FailCode
  deriving DecidableEq, Repr

/-- The binding registers (R25), with the parameter record and the platform, which no step changes. -/
structure Binding where
  base : Port
  baseValid : Bool
  params : Params
  platform : Platform
  deriving DecidableEq, Repr

/-- The far side of the port primitives, and what has passed over it.
`env` holds what the environment does on its own before each coming step of the block, one list of changes a step;
it is an input, and at its end the environment changes nothing. `draws` counts the free values used (log entry 5).
`trace` is the record of the block's steps, oldest first. -/
structure PortSide where
  configAddress : Dword
  cfg : Memory
  regs : RegFile
  env : List (List EnvAct)
  draws : Nat
  trace : List Event
  deriving DecidableEq, Repr

/-- The whole state. `inbox` holds what the client has sent and the block has not yet accepted, oldest first. -/
structure State where
  acc : Accessor
  eng : Engine
  binding : Binding
  side : PortSide
  inbox : List ClientInput
  deriving DecidableEq, Repr

/-- The result of a meaning and of a step. -/
abbrev Res := Host.Outcome State Fault Refusal

/-! ### Reset (R46, 70_reset_and_hazards.md R260)

`st` = Idle, `BASE_VALID` = 0, `x[ok]`, `x[fail]`, `x[rlen]` = 0 are the spec's. Every other register is unspecified
there; DESIGN CHOICE, unsafe (log entry 3): zero (Quick, write). -/

/-- The register file at reset: unspecified by R46; DESIGN CHOICE zero (log entry 3). -/
def RegFile.reset : RegFile where
  sts := 0
  en := 0
  cnt := 0
  hostcnt := 0
  addr := 0
  cmd := 0
  pcount := 0
  count := 0
  win := Vector.replicate 8 0
  devaddr := 0
  db0 := 0
  db1 := 0
  slvsts := 0

/-- The accessor's registers at reset: unspecified by R46; DESIGN CHOICE zero (log entry 3). -/
def Accessor.reset : Accessor where
  bus := 0
  dev := 0
  fn := 0
  reg := 0
  wdata := 0
  rdata := 0
  idx := 0
  found := false

/-- The engine's registers at reset. -/
def Engine.reset : Engine where
  st := .idle
  type := .quick
  rw := .write
  sa := 0
  cmd := 0
  wlen := 0
  wbuf := Vector.replicate 32 0
  retry := 0
  poll := 0
  c := 0
  s := 0
  cnt := 0
  got := 0
  rbuf := Vector.replicate 32 0
  rlen := 0
  ok := false
  fail := .noFailure

/-- The machine right after reset: no base, nothing known of the configuration space, nothing sent by the client.
The platform is DESIGN CHOICE hardware (log entry 8): R64 makes the stub a legal environment too. -/
def State.reset : State where
  acc := Accessor.reset
  eng := Engine.reset
  binding := { base := 0, baseValid := false, params := Config.params, platform := .hardware }
  side := { configAddress := 0, cfg := [], regs := RegFile.reset, env := [], draws := 0, trace := [] }
  inbox := []

end Sys2Proof.Machine
end

