-- ==== Sys2Proof/Machine/Operands.lean ====
section
/-! DEFINITION. Operand assembly (30_encoding.md R115): the words and bytes the block forms, and the ports it forms
them for. Pure functions; no state is read but the parameter record and the base. -/

namespace Sys2Proof.Machine

/-! ### Configuration addresses -/

/-- R66, R110, R131: the 32-bit configuration address word. -/
def cfgAddr (bus : BitVec 8) (dev : BitVec 5) (fn : BitVec 3) (reg : Byte) : Dword :=
  Config.CFG_ENABLE ||| (bus.setWidth 32 <<< 16) ||| (dev.setWidth 32 <<< 11) ||| (fn.setWidth 32 <<< 8) |||
    (reg &&& Config.CFG_REG_MASK).setWidth 32

/-- R67: the linear index of a function. -/
def lin (bus : BitVec 8) (dev : BitVec 5) (fn : BitVec 3) : BitVec 16 :=
  (bus.setWidth 16 <<< 8) ||| (dev.setWidth 16 <<< 3) ||| fn.setWidth 16

/-- R67, R138: Bus of a scan position or linear index, bits 15:8. -/
def idxBus (i : BitVec 17) : BitVec 8 := i.extractLsb' 8 8
/-- R67, R138: Device, bits 7:3. -/
def idxDev (i : BitVec 17) : BitVec 5 := i.extractLsb' 3 5
/-- R67, R138: Function, bits 2:0. -/
def idxFn (i : BitVec 17) : BitVec 3 := i.extractLsb' 0 3

/-- R67: the byte number of `cfg[i][r]` in the linear array of 2^24 bytes. -/
def cfgCell (i : BitVec 16) (reg : Byte) : Nat := i.toNat * 256 + reg.toNat

/-- R68: the configuration byte that lane k of the data window reaches under the address latch w. -/
def routedCell (w : Dword) (k : BitVec 2) : Nat := cfgCell (w.extractLsb' 8 16) (w.extractLsb' 2 6 ++ k)

/-- R71, R132: the data port of a configuration access, `0xCFC + (reg & 3)`. -/
def dataPort (reg : Byte) : Port := Config.CFG_DATA_PORT + (reg &&& Config.CFG_LANE_MASK).setWidth 16

/-- R70: a 16-bit value composed little-endian from its low and high bytes. -/
def word16 (lo hi : Byte) : BitVec 16 := hi ++ lo
/-- R70: bits 7:0 of a 16-bit value. -/
def lowByte (v : BitVec 16) : Byte := v.extractLsb' 0 8
/-- R70: bits 15:8 of a 16-bit value. -/
def highByte (v : BitVec 16) : Byte := v.extractLsb' 8 8
/-- R68: byte j of a 32-bit value, bits 8j+7:8j. -/
def byteOf (v : Dword) (j : Nat) : Byte := v.extractLsb' (8 * j) 8
/-- R68: the 32-bit value whose byte j is the j-th argument. -/
def dwordOf (b0 b1 b2 b3 : Byte) : Dword := b3 ++ b2 ++ b1 ++ b0

/-! ### Ports of the SMBus register file -/

/-- R10: the offset of a register; window byte i stands at `OFF_BYTE + i`. -/
def regOffset (p : Params) : Reg → BitVec 16
  | .sts => p.offSts.setWidth 16
  | .en => p.offEn.setWidth 16
  | .cnt => p.offCnt.setWidth 16
  | .hostcnt => p.offHostcnt.setWidth 16
  | .addr => p.offAddr.setWidth 16
  | .cmd => p.offCmd.setWidth 16
  | .pcount => p.offPcount.setWidth 16
  | .count => p.offCount.setWidth 16
  | .byte i => p.offByte.setWidth 16 + BitVec.ofNat 16 i.val
  | .devaddr => p.offDevaddr.setWidth 16
  | .db0 => p.offDb0.setWidth 16
  | .db1 => p.offDb1.setWidth 16
  | .slvsts => p.offSlvsts.setWidth 16

/-- R62: the port of a register, `(BASE + OFF_X) mod 2^16`. -/
def Binding.portOf (b : Binding) (r : Reg) : Port := b.base + regOffset b.params r

/-- A port of the configuration mechanism, `0xCF8..0xCFF` (R63). -/
def isConfigPort (p : Port) : Bool := decide (0xCF8 ≤ p.toNat ∧ p.toNat ≤ 0xCFF)

/-- R63: no port of the register file meets `0xCF8..0xCFF`. -/
def Binding.portsClear (b : Binding) : Bool := Reg.all.all fun r => !isConfigPort (b.portOf r)

/-! ### Bytes the engine writes -/

/-- The direction bit: 1 = read, 0 = write (R27, R111). -/
def Dir.bit : Dir → Byte
  | .write => 0#8
  | .read => 1#8

/-- R111: the address-register byte, `(sa << 1) | rw`. -/
def addrByte (sa : BitVec 7) (rw : Dir) : Byte := (sa.setWidth 8 <<< 1) ||| rw.bit

/-- R112: the wire code of a transfer type. -/
def typeCode (p : Params) : Xfer → Byte
  | .quick => p.typeQuick
  | .byte => p.typeByte
  | .byteData => p.typeByteData
  | .blockData => p.typeBlock

/-- R112, R159: the start byte, `HC_START | TYPE_x`. -/
def startByte (p : Params) (t : Xfer) : Byte := p.hcStart ||| typeCode p t

/-- R112, R152: the kill byte, `HC_KILL | TYPE_QUICK`. -/
def killByte (p : Params) : Byte := p.hcKill ||| p.typeQuick

/-- R114, R155: the control byte written back, `c & ~CNT_MSTO_EN`. -/
def controlWriteback (p : Params) (c : Byte) : Byte := c &&& ~~~p.cntMstoEn

/-- R116: the byte-count byte, `wlen` in the low six bits. -/
def countByte (wlen : Nat) : Byte := BitVec.ofNat 8 wlen

/-- R115, R165: the device's byte count, capped at 32. -/
def capCount (n : Byte) : Nat := min n.toNat Config.BLOCK_MAX

/-- R166, R168: the size of the next group, `min(8, total - got)`. -/
def groupSize (total got : Nat) : Nat := min Config.WINDOW (total - got)

/-- Entry i of a buffer; there is no entry from 32 on (never asked for by the engine: R28). -/
def bufGet (b : Buffer) (i : Nat) : Byte := b[i]?.getD 0#8

/-- The buffer with entry i replaced. -/
def bufPut (b : Buffer) (i : Nat) (v : Byte) : Buffer := b.setIfInBounds i v

/-- R103: the first entries of a buffer replaced by the bytes of a list, from entry i on. -/
def bufLoad : Buffer → Nat → List Byte → Buffer
  | b, _, [] => b
  | b, i, v :: vs => bufLoad (bufPut b i v) (i + 1) vs

end Sys2Proof.Machine
end

