-- ==== Sys2Proof/Machine/Flags.lean ====
section
/-! DEFINITION. The conditions that steer the block (10_state.md R44). There is no condition-code register: each is
computed from a register at its point of use. -/

namespace Sys2Proof.Machine

/-- R44: `(x[c] & (CNT_HOSTBUSY | CNT_SLAVEBUSY)) != 0`. -/
def isBusy (p : Params) (c : Byte) : Bool := decide (c &&& (p.cntHostBusy ||| p.cntSlaveBusy) ≠ 0#8)

/-- R44, R162: `(x[s] & STS_ERR_MASK) != 0`. -/
def isError (p : Params) (s : Byte) : Bool := decide (s &&& p.stsErrMask ≠ 0#8)

/-- R44: `(x[s] & STS_BLOCK_FIN) != 0`. -/
def isBlockFin (p : Params) (s : Byte) : Bool := decide (s &&& p.stsBlockFin ≠ 0#8)

/-- R44: `(x[s] & STS_DONE) != 0`. -/
def isDone (p : Params) (s : Byte) : Bool := decide (s &&& p.stsDone ≠ 0#8)

/-- R161: completion: the completion bit for every type, or "block finished" for BlockData. -/
def isComplete (p : Params) (t : Xfer) (s : Byte) : Bool := isDone p s || (decide (t = .blockData) && isBlockFin p s)

/-- R44: the retry budget is spent. -/
def retrySpent (retry : Nat) : Bool := decide (retry = Config.N_BUSY_RETRY)

/-- R44: the poll budget is spent. -/
def pollSpent (poll : Nat) : Bool := decide (poll = Config.N_POLL)

/-- R44: more groups are to come. -/
def moreGroups (got total : Nat) : Bool := decide (got < total)

/-- R105: the states in which a command can be accepted. -/
def Phase.accepting : Phase → Bool
  | .idle => true
  | .done => true
  | .failed => true
  | .busyCheck => false
  | .recover => false
  | .clearFlags => false
  | .startTransfer => false
  | .pollComplete => false
  | .blockReadLoop => false
  | .clearSticky => false
  | .blockWriteLoop => false

/-- R26: the 4-bit code of a state. -/
def Phase.code : Phase → BitVec 4
  | .idle => 0
  | .busyCheck => 1
  | .recover => 2
  | .clearFlags => 3
  | .startTransfer => 4
  | .pollComplete => 5
  | .blockReadLoop => 6
  | .clearSticky => 7
  | .done => 8
  | .failed => 9
  | .blockWriteLoop => 10

/-- R27: the 2-bit code of a transfer type. -/
def Xfer.code : Xfer → BitVec 2
  | .quick => 0
  | .byte => 1
  | .byteData => 2
  | .blockData => 3

/-- R220: the numeric failure code. -/
def FailCode.code : FailCode → BitVec 3
  | .noFailure => 0
  | .busContention => 3
  | .transferFailure => 4
  | .transferTimeout => 5

/-- R220, R226: the text a failure puts on the side channel. -/
def FailCode.diag : FailCode → Option Diag
  | .noFailure => none
  | .busContention => some .hostOrSlaveBusy
  | .transferFailure => some .transferFailed
  | .transferTimeout => some .transferTimeout

/-- R220: the words of a diagnostic. -/
def Diag.text : Diag → String
  | .hostOrSlaveBusy => "host or slave busy"
  | .transferFailed => "transfer failed"
  | .transferTimeout => "transfer timeout"
  | .couldNotEnableAcpi => "could not enable ACPI"

/-- R10, R245: the duration of a delay, a parameter no step depends on. -/
def DelayKind.duration (p : Params) : DelayKind → Nat
  | .kill => p.tKill
  | .recheck => p.tRecheck
  | .poll => p.tPoll

/-- R280: the time the delays of a record of steps take. -/
def delayTime (p : Params) : List Event → Nat
  | [] => 0
  | .delay d :: es => d.duration p + delayTime p es
  | .rd8 _ _ :: es => delayTime p es
  | .rd32 _ _ :: es => delayTime p es
  | .wr8 _ _ :: es => delayTime p es
  | .wr32 _ _ :: es => delayTime p es
  | .visit _ _ _ :: es => delayTime p es
  | .diag _ :: es => delayTime p es

/-- R139, R173: an event that is a port access. -/
def Event.isPort : Event → Bool
  | .rd8 _ _ => true
  | .rd32 _ _ => true
  | .wr8 _ _ => true
  | .wr32 _ _ => true
  | .delay _ => false
  | .visit _ _ _ => false
  | .diag _ => false

/-- R139, R173: the number of port accesses in a record of steps. -/
def portCount (es : List Event) : Nat := (es.filter Event.isPort).length

end Sys2Proof.Machine
end

