-- ==== Sys2Proof/Machine/Ops.lean ====
section
/-! DEFINITION. The named operations: configuration memory, register file, the environment's own changes, the four
port primitives and the multiplexer behind them (20_memory.md), delays, the diagnostic side channel, raising a failure
(60_exceptions.md R226), accepting a command (30_encoding.md R103, R105) and the bind step (70_reset_and_hazards.md R262). -/

namespace Sys2Proof.Machine

/-! ### Configuration memory

Canonical form: strictly rising addresses below 2^24. An unlisted byte has no value, and a read of it is a draw. -/

/-- The value of a configuration byte, where one is known. -/
def Memory.read : Memory → Nat → Option Byte
  | [], _ => none
  | (a, v) :: m, k => if a = k then some v else Memory.read m k

/-- A configuration byte stored. -/
def Memory.write : Memory → Nat → Byte → Memory
  | [], k, v => [(k, v)]
  | (a, w) :: m, k, v =>
    if k < a then (k, v) :: (a, w) :: m
    else if k = a then (k, v) :: m
    else (a, w) :: Memory.write m k v

/-- The addresses rise strictly. -/
def Memory.rising : Memory → Bool
  | [] => true
  | [_] => true
  | a :: b :: m => decide (a.1 < b.1) && Memory.rising (b :: m)

/-- The canonical form: strictly rising addresses, all of them in the 2^24 bytes of the space (R65, R67). -/
def Memory.wf (m : Memory) : Bool := Memory.rising m && m.all fun c => decide (c.1 < 2 ^ 24)

/-! ### The register file -/

/-- A register's contents. -/
def RegFile.get (f : RegFile) : Reg → Byte
  | .sts => f.sts
  | .en => f.en
  | .cnt => f.cnt
  | .hostcnt => f.hostcnt
  | .addr => f.addr
  | .cmd => f.cmd
  | .pcount => f.pcount
  | .count => f.count
  | .byte i => f.win[i]
  | .devaddr => f.devaddr
  | .db0 => f.db0
  | .db1 => f.db1
  | .slvsts => f.slvsts

/-- A register's contents replaced. -/
def RegFile.set (f : RegFile) : Reg → Byte → RegFile
  | .sts, v => { f with sts := v }
  | .en, v => { f with en := v }
  | .cnt, v => { f with cnt := v }
  | .hostcnt, v => { f with hostcnt := v }
  | .addr, v => { f with addr := v }
  | .cmd, v => { f with cmd := v }
  | .pcount, v => { f with pcount := v }
  | .count, v => { f with count := v }
  | .byte i, v => { f with win := f.win.set i v }
  | .devaddr, v => { f with devaddr := v }
  | .db0, v => { f with db0 := v }
  | .db1, v => { f with db1 := v }
  | .slvsts, v => { f with slvsts := v }

/-- What a register holds after a byte is written to it: the status register is write-one-to-clear (10_state.md R31,
and writing 0 has no effect: U23), every other stores the byte. Log entry 6. -/
def writtenValue (r : Reg) (old v : Byte) : Byte :=
  match r with
  | .sts => old &&& ~~~v
  | .en => v
  | .cnt => v
  | .hostcnt => v
  | .addr => v
  | .cmd => v
  | .pcount => v
  | .count => v
  | .byte _ => v
  | .devaddr => v
  | .db0 => v
  | .db1 => v
  | .slvsts => v

/-- A port write to a register. -/
def RegFile.portWrite (f : RegFile) (r : Reg) (v : Byte) : RegFile := f.set r (writtenValue r (f.get r) v)

/-! ### The environment's own changes (20_memory.md R80: between any two steps of the block) -/

/-- One change. -/
def applyAct (x : PortSide) : EnvAct → PortSide
  | .setReg r v => { x with regs := x.regs.set r v }
  | .setCfg i reg v => { x with cfg := Memory.write x.cfg (cfgCell i reg) v }

/-- What the environment does before the block's next step: the first entry of `env` is used up. -/
def envStep (x : PortSide) : PortSide :=
  match x.env with
  | [] => x
  | acts :: rest => { acts.foldl applyAct x with env := rest }

/-- What the environment does before the next n steps of the block: that many entries of `env`, one after another. -/
def envRun (x : PortSide) (n : Nat) : PortSide :=
  { (x.env.take n).flatten.foldl applyAct x with env := x.env.drop n }

/-! ### The port primitives (R61) and the multiplexer (R68) -/

/-- What a port address reaches. -/
inductive PortTarget where
  | configAddress
  | configData (lane : BitVec 2)
  | smbus (r : Reg)
  | unspecified
  deriving DecidableEq, Repr

/-- The route of a port address (R62, R63, R75): `0xCF8` is the address latch, `0xCFC..0xCFF` the data window, and
`BASE + OFF_X` a register of the SMBus register file, where a base is bound. DESIGN CHOICE (log entry 24): the register
file is reached whatever the ACPI enable bit holds, a point R264 leaves open. -/
def Binding.target (b : Binding) (p : Port) : PortTarget :=
  if p = Config.CFG_ADDR_PORT then .configAddress
  else if p &&& 0xFFFC#16 = Config.CFG_DATA_PORT then .configData (p.extractLsb' 0 2)
  else if b.baseValid then
    match Reg.all.find? (fun r => decide (b.portOf r = p)) with
    | some r => .smbus r
    | none => .unspecified
  else .unspecified

/-- R68: data accesses are routed while bit 31 of the latch is 1. -/
def PortSide.windowOpen (x : PortSide) : Bool := x.configAddress.getLsbD 31

/-- The configuration byte at lane k, read as the n-th draw where its value is not known (R24, U10). -/
def PortSide.windowByte (x : PortSide) (k : BitVec 2) (n : Nat) : Byte :=
  (Memory.read x.cfg (routedCell x.configAddress k)).getD (Config.portDraw n)

/-- A byte stored at lane k. -/
def PortSide.storeLane (x : PortSide) (k : BitVec 2) (v : Byte) : PortSide :=
  { x with cfg := Memory.write x.cfg (routedCell x.configAddress k) v }

/-- What a byte read at a target returns, and the draws it uses. A read has no side effect on what it reads (R73). The
accesses of R69 (U11) have no meaning and the block issues none; their value is a draw. -/
def readByteAt (x : PortSide) : PortTarget → Byte × Nat
  | .configData k => if x.windowOpen then (x.windowByte k x.draws, 1) else (Config.portDraw x.draws, 1)
  | .smbus r => (x.regs.get r, 0)
  | .configAddress => (Config.portDraw x.draws, 1)
  | .unspecified => (Config.portDraw x.draws, 1)

/-- What a 32-bit read at a target returns: at `0xCFC` the four bytes of the addressed dword, byte j in bits 8j+7:8j
(R68, R70). Every other 32-bit read is without meaning (R69) and never issued. -/
def readDwordAt (x : PortSide) (t : PortTarget) : Dword × Nat :=
  if t = .configData 0#2 ∧ x.windowOpen = true then
    (dwordOf (x.windowByte 0#2 x.draws) (x.windowByte 1#2 (x.draws + 1)) (x.windowByte 2#2 (x.draws + 2))
      (x.windowByte 3#2 (x.draws + 3)), 4)
  else
    (dwordOf (Config.portDraw x.draws) (Config.portDraw (x.draws + 1)) (Config.portDraw (x.draws + 2))
      (Config.portDraw (x.draws + 3)), 4)

/-- What a byte write does on the far side. The writes of R69 are without meaning and never issued. -/
def writeByteAt (x : PortSide) (t : PortTarget) (v : Byte) : PortSide :=
  match t with
  | .configData k => if x.windowOpen then x.storeLane k v else x
  | .smbus r => { x with regs := x.regs.portWrite r v }
  | .configAddress => x
  | .unspecified => x

/-- What a 32-bit write does: at `0xCF8` it sets the latch, at `0xCFC` it stores four bytes (R68). -/
def writeDwordAt (x : PortSide) (t : PortTarget) (w : Dword) : PortSide :=
  match t with
  | .configAddress => { x with configAddress := w }
  | .configData k =>
    if k = 0#2 ∧ x.windowOpen = true then
      (((x.storeLane 0#2 (byteOf w 0)).storeLane 1#2 (byteOf w 1)).storeLane 2#2 (byteOf w 2)).storeLane 3#2 (byteOf w 3)
    else x
  | .smbus _ => x
  | .unspecified => x

/-- An event added to the record of steps. -/
def PortSide.log (x : PortSide) (e : Event) : PortSide := { x with trace := x.trace ++ [e] }

/-- The far side after a read, and the value read: the environment acts, then the read is made. On the stub platform
a read returns zero (R64). -/
def PortSide.read8 (x : PortSide) (b : Binding) (p : Port) : Byte × PortSide :=
  let y := envStep x
  let r := match b.platform with
    | .hardware => readByteAt y (b.target p)
    | .stub => (0#8, 0)
  (r.1, ({ y with draws := y.draws + r.2 }).log (.rd8 p r.1))

/-- As `read8`, for the 32-bit read. -/
def PortSide.read32 (x : PortSide) (b : Binding) (p : Port) : Dword × PortSide :=
  let y := envStep x
  let r := match b.platform with
    | .hardware => readDwordAt y (b.target p)
    | .stub => (0#32, 0)
  (r.1, ({ y with draws := y.draws + r.2 }).log (.rd32 p r.1))

/-- The far side after a byte write: the environment acts, then the write lands. The stub platform drops it (R64). -/
def PortSide.write8 (x : PortSide) (b : Binding) (p : Port) (v : Byte) : PortSide :=
  let y := envStep x
  (match b.platform with
    | .hardware => writeByteAt y (b.target p) v
    | .stub => y).log (.wr8 p v)

/-- As `write8`, for the 32-bit write. -/
def PortSide.write32 (x : PortSide) (b : Binding) (p : Port) (w : Dword) : PortSide :=
  let y := envStep x
  (match b.platform with
    | .hardware => writeDwordAt y (b.target p) w
    | .stub => y).log (.wr32 p w)

/-! ### Updates of the state, part by part -/

/-- The accessor's registers replaced. -/
def State.setAcc (s : State) (a : Accessor) : State := { s with acc := a }
/-- The engine's registers replaced. -/
def State.setEng (s : State) (e : Engine) : State := { s with eng := e }
/-- The binding registers replaced. -/
def State.setBinding (s : State) (b : Binding) : State := { s with binding := b }
/-- The far side of the ports replaced. -/
def State.setSide (s : State) (x : PortSide) : State := { s with side := x }
/-- What the client has sent replaced. -/
def State.setInbox (s : State) (l : List ClientInput) : State := { s with inbox := l }

/-! ### The primitives on the whole state (R16) -/

/-- `MemRead(p, 1)`: the value. -/
def readVal8 (s : State) (p : Port) : Byte := (s.side.read8 s.binding p).1
/-- `MemRead(p, 1)`: the state after it. -/
def afterRead8 (s : State) (p : Port) : State := s.setSide (s.side.read8 s.binding p).2
/-- `MemRead(p, 4)`: the value. -/
def readVal32 (s : State) (p : Port) : Dword := (s.side.read32 s.binding p).1
/-- `MemRead(p, 4)`: the state after it. -/
def afterRead32 (s : State) (p : Port) : State := s.setSide (s.side.read32 s.binding p).2
/-- `MemWrite(p, 1, v)`. -/
def write8 (s : State) (p : Port) (v : Byte) : State := s.setSide (s.side.write8 s.binding p v)
/-- `MemWrite(p, 4, v)`. -/
def write32 (s : State) (p : Port) (w : Dword) : State := s.setSide (s.side.write32 s.binding p w)

/-- `RdReg(X)`: the value. -/
def regVal (s : State) (r : Reg) : Byte := readVal8 s (s.binding.portOf r)
/-- `RdReg(X)`: the state after it. -/
def afterReg (s : State) (r : Reg) : State := afterRead8 s (s.binding.portOf r)
/-- `WrReg(X, v)`. -/
def wrReg (s : State) (r : Reg) (v : Byte) : State := write8 s (s.binding.portOf r) v

/-- Window byte i, 0 to 7 (R16, R115: index n mod 8). -/
def winReg (i : Nat) : Reg := .byte (Fin.ofNat 8 i)

/-- `Delay(T)`: the environment may act; the block does nothing (R16, R245). -/
def delay (s : State) (d : DelayKind) : State := s.setSide ((envStep s.side).log (.delay d))

/-- `Diag(text)`: text on the side channel; no other state changes (R16, R247). -/
def emitDiag (s : State) (d : Diag) : State := s.setSide (s.side.log (.diag d))

/-! ### Failures (60_exceptions.md R226) -/

/-- `st <- S`. -/
def goTo (s : State) (p : Phase) : State := s.setEng { s.eng with st := p }

/-- `raise Fail(code)`: the code is recorded, the text emitted, and the engine continues at ClearSticky. -/
def raiseFail (s : State) (code : FailCode) : State :=
  let t := s.setEng { s.eng with fail := code, st := .clearSticky }
  match code.diag with
  | some d => emitDiag t d
  | none => t

/-! ### Acceptance (30_encoding.md R103, R105) -/

/-- R105: a command is accepted only while no pass is active. -/
def whenIdle (s : State) (r : Res) : Res :=
  if s.eng.st.accepting then r else .refused .operationActive

/-- R103, format C: the operands go into the accessor's registers; `x[wdata]` only where the command has one. -/
def latchCfg (s : State) (bus : BitVec 8) (dev : BitVec 5) (fn : BitVec 3) (reg : Byte) (wdata : Option Dword) : State :=
  s.setAcc { s.acc with bus := bus, dev := dev, fn := fn, reg := reg, wdata := wdata.getD s.acc.wdata }

/-- R103, format S: the operands go into the latches, the pass registers are cleared (R28), and the pass begins. -/
def latchSmb (s : State) (t : Xfer) (rw : Dir) (sa : BitVec 7) (cmd : Byte) (data : List Byte) : State :=
  s.setEng { s.eng with
    type := t, rw := rw, sa := sa, cmd := cmd, wlen := data.length, wbuf := bufLoad s.eng.wbuf 0 data,
    retry := 0, poll := 0, cnt := 0, got := 0, rlen := 0, fail := .noFailure, ok := false,
    st := .busyCheck }

/-! ### The bind step (R107, R262) -/

/-- The client hands over the base: refused for the two invalid values and when a base is bound already; otherwise
`BASE <- b`, `BASE_VALID <- 1`, `st <- Idle`. -/
def bindBase (s : State) (b : Port) : Res :=
  whenIdle s <|
  if s.binding.baseValid then .refused .bindTwice
  else if b ∈ Config.BASE_INVALID then .refused .bindInvalid
  else .next ((s.setBinding { s.binding with base := b, baseValid := true }).setEng { s.eng with st := .idle })

end Sys2Proof.Machine
end

