-- ==== Sys2Proof/Machine/PciConfig.lean ====
section
/-! DEFINITION. The PCI configuration accessor: the six accesses and the scan (40_pci_config.md R130 to R138). -/

namespace Sys2Proof.Machine

/-! ### The accesses, on latched operands -/

/-- R131: the address phase, one 32-bit write of the configuration address word to `0xCF8`. -/
def addressPhase (s : State) : State :=
  write32 s Config.CFG_ADDR_PORT (cfgAddr s.acc.bus s.acc.dev s.acc.fn s.acc.reg)

/-- `x[rdata] <- v`. -/
def setRdata (s : State) (v : Dword) : State := s.setAcc { s.acc with rdata := v }

/-- Data phase of R132: the byte at the lane. -/
def readByte (s : State) : State :=
  setRdata (afterRead8 s (dataPort s.acc.reg)) ((readVal8 s (dataPort s.acc.reg)).setWidth 32)

/-- Data phase of R133, its second read: the byte at the next lane, composed with the one read before. -/
def readHigh (s : State) (lo : Byte) : State :=
  let p := dataPort s.acc.reg + 1#16
  setRdata (afterRead8 s p) ((word16 lo (readVal8 s p)).setWidth 32)

/-- Data phase of R134: one 32-bit read. -/
def readDword (s : State) : State := setRdata (afterRead32 s (dataPort s.acc.reg)) (readVal32 s (dataPort s.acc.reg))

/-- Data phase of R135, and the first write of R136: the low byte at the lane. -/
def writeLow (s : State) : State := write8 s (dataPort s.acc.reg) (byteOf s.acc.wdata 0)

/-- Data phase of R136, its second write: bits 15:8 at the next lane. -/
def writeHigh (s : State) : State := write8 s (dataPort s.acc.reg + 1#16) (byteOf s.acc.wdata 1)

/-- Data phase of R137: one 32-bit write. -/
def writeDword (s : State) : State := write32 s (dataPort s.acc.reg) s.acc.wdata

/-- R103: the operands of a configuration access latched. -/
def acceptAccess (s : State) : CfgAccess → State
  | .rd8 b d f r => latchCfg s b d f r none
  | .rd16 b d f r => latchCfg s b d f r none
  | .rd32 b d f r => latchCfg s b d f r none
  | .wr8 b d f r v => latchCfg s b d f r (some (v.setWidth 32))
  | .wr16 b d f r v => latchCfg s b d f r (some (v.setWidth 32))
  | .wr32 b d f r v => latchCfg s b d f r (some v)

/-- The data phase of an access (R132 to R137); a 16-bit one moves its low byte first. -/
def dataPhase (s : State) : CfgAccess → State
  | .rd8 _ _ _ _ => readByte s
  | .rd16 _ _ _ _ => readHigh (afterRead8 s (dataPort s.acc.reg)) (readVal8 s (dataPort s.acc.reg))
  | .rd32 _ _ _ _ => readDword s
  | .wr8 _ _ _ _ _ => writeLow s
  | .wr16 _ _ _ _ _ => writeHigh (writeLow s)
  | .wr32 _ _ _ _ _ => writeDword s

/-- One configuration access, accepted and run: what a command does, and what a visitor's command does. -/
def runAccess (s : State) (a : CfgAccess) : State := dataPhase (addressPhase (acceptAccess s a)) a

/-- R104 (d) and (f) before the access: refused during a pass, and where it would leave the data window. -/
def cfgOperation (s : State) (a : CfgAccess) : Res :=
  whenIdle s <| if a.wellFormed then .next (runAccess s a) else .refused .leavesWindow

/-! ### The scan (R138) -/

/-- `x[bus], x[dev], x[fun]` taken from the scan position. -/
def scanTriple (s : State) : State :=
  s.setAcc { s.acc with bus := idxBus s.acc.idx, dev := idxDev s.acc.idx, fn := idxFn s.acc.idx }

/-- The visitor is called with the triple at the scan position. The call is a step of the block (R13), before which the
environment may act as before any other (R80). -/
def callVisitor (s : State) : State :=
  let s := scanTriple s
  s.setSide ((envStep s.side).log (.visit s.acc.bus s.acc.dev s.acc.fn))

/-- The calls of a visitor that issues nothing and returns 0 at each of the next n triples. -/
def idleVisits (i : BitVec 17) : Nat → List Event
  | 0 => []
  | n + 1 => .visit (idxBus i) (idxDev i) (idxFn i) :: idleVisits (i + 1#17) n

/-- The rest of a scan in which the visitor issues nothing and returns 0: the remaining triples are visited, the
environment moving before each call, and `x[idx]` ends at 65536. -/
def scanRest (s : State) : State :=
  let n := Config.N_FUNCTIONS - s.acc.idx.toNat
  if s.acc.idx.toNat < Config.N_FUNCTIONS then
    (s.setAcc { s.acc with bus := 255#8, dev := 31#5, fn := 7#3, idx := 65536#17 }).setSide
      { envRun s.side n with trace := s.side.trace ++ idleVisits s.acc.idx n }
  else s

/-- The scan from its present position under the calls that are left. A visitor's command that R104 (d) refuses is
refused where the visitor issues it. -/
def scanFrom (s : State) : List VisitorCall → Res
  | [] => .next (scanRest s)
  | v :: vs =>
    if s.acc.idx.toNat < Config.N_FUNCTIONS then
      if v.cmds.all CfgAccess.wellFormed then
        let t := v.cmds.foldl runAccess (callVisitor s)
        match v.answer with
        | none => .fault .visitorNeverReturns
        | some true => .next (t.setAcc { t.acc with found := true })
        | some false => scanFrom (t.setAcc { t.acc with idx := t.acc.idx + 1#17 }) vs
      else .refused .leavesWindow
    else .next s

/-! ### The meanings -/

/-- `CFG_RD8` (R132). -/
def execCfgRd8 (bus : BitVec 8) (dev : BitVec 5) (fn : BitVec 3) (reg : Byte) (s : State) : Res :=
  cfgOperation s (.rd8 bus dev fn reg)

/-- `CFG_RD16` (R133). -/
def execCfgRd16 (bus : BitVec 8) (dev : BitVec 5) (fn : BitVec 3) (reg : Byte) (s : State) : Res :=
  cfgOperation s (.rd16 bus dev fn reg)

/-- `CFG_RD32` (R134). -/
def execCfgRd32 (bus : BitVec 8) (dev : BitVec 5) (fn : BitVec 3) (reg : Byte) (s : State) : Res :=
  cfgOperation s (.rd32 bus dev fn reg)

/-- `CFG_WR8` (R135). -/
def execCfgWr8 (bus : BitVec 8) (dev : BitVec 5) (fn : BitVec 3) (reg : Byte) (v : Byte) (s : State) : Res :=
  cfgOperation s (.wr8 bus dev fn reg v)

/-- `CFG_WR16` (R136). -/
def execCfgWr16 (bus : BitVec 8) (dev : BitVec 5) (fn : BitVec 3) (reg : Byte) (v : BitVec 16) (s : State) : Res :=
  cfgOperation s (.wr16 bus dev fn reg v)

/-- `CFG_WR32` (R137). -/
def execCfgWr32 (bus : BitVec 8) (dev : BitVec 5) (fn : BitVec 3) (reg : Byte) (v : Dword) (s : State) : Res :=
  cfgOperation s (.wr32 bus dev fn reg v)

/-- Acceptance of `CFG_SCAN` (R103: format C, whose bits 26:0 are all 0 here, R102), and its start (R138):
`x[idx] <- 0 ; x[found] <- 0`. -/
def startScan (s : State) : State :=
  let s := latchCfg s 0#8 0#5 0#3 0#8 none
  s.setAcc { s.acc with idx := 0#17, found := false }

/-- `CFG_SCAN` (R138): accepted and started, then the scan. -/
def execCfgScan (visitor : List VisitorCall) (s : State) : Res := whenIdle s <| scanFrom (startScan s) visitor

end Sys2Proof.Machine
end

