-- ==== Sys2Proof/Machine/Engine.lean ====
section
/-! DEFINITION. The SMBus state machine, phase by phase (41_smbus_fsm.md R150 to R174). Each function is what the
engine does in one state; `enginePhase` runs the present one, and `runEngine` runs phases until the pass has ended. In
PollComplete and Recover one call is one iteration of the loop. -/

namespace Sys2Proof.Machine

/-- `x[got] <- n`. -/
def setGot (s : State) (n : Nat) : State := s.setEng { s.eng with got := n }

/-- A fresh stay in PollComplete: `x[poll] <- 0; st <- PollComplete` (R159, R167, R168). -/
def awaitPoll (s : State) : State := s.setEng { s.eng with poll := 0, st := .pollComplete }

/-- R151: read the control register once. -/
def busyCheck (s : State) : State :=
  let c := regVal s .cnt
  let s := afterReg s .cnt
  s.setEng { s.eng with c := c, st := if isBusy s.binding.params c then .recover else .clearFlags }

/-- R152, R153: what precedes a re-check: the kill and its delay on entry, the inter-check delay after that. -/
def beforeRecheck (s : State) : State :=
  if s.eng.retry = 0 then delay (wrReg s .hostcnt (killByte s.binding.params)) .kill else delay s .recheck

/-- R153, R154: the re-check itself, one read of the control register, and what follows from it. -/
def recheck (s : State) : State :=
  let c := regVal s .cnt
  let s := afterReg s .cnt
  let s := s.setEng { s.eng with c := c, retry := s.eng.retry + 1 }
  if isBusy s.binding.params c then
    if retrySpent s.eng.retry then raiseFail s .busContention else s
  else goTo s .clearFlags

/-- R152 to R154: one re-check of the busy bits, with what precedes it. -/
def recover (s : State) : State := recheck (beforeRecheck s)

/-- R155: `x[c] <- RdReg(CNT)`. -/
def readControl (s : State) : State :=
  let c := regVal s .cnt
  let s := afterReg s .cnt
  s.setEng { s.eng with c := c }

/-- R155: read control, write it back with the timeout interrupt disabled, clear the fixed set of status bits. -/
def clearFlags (s : State) : State :=
  let s := readControl s
  let s := wrReg s .cnt (controlWriteback s.binding.params s.eng.c)
  let s := wrReg s .sts s.binding.params.stsPreclear
  goTo s .startTransfer

/-- R158, R168: n window bytes from window byte i on, taken from `x[wbuf]` at `first + i`, ascending. -/
def placeWindow (s : State) (first : Nat) : Nat → Nat → State
  | _, 0 => s
  | i, n + 1 => placeWindow (wrReg s (winReg i) (bufGet s.eng.wbuf (first + i))) first (i + 1) n

/-- R158: the operation's command, byte-count and window writes. -/
def programOperands (s : State) : State :=
  match s.eng.type, s.eng.rw with
  | .quick, .write => s
  | .quick, .read => s
  | .byte, .read => s
  | .byte, .write => wrReg s .cmd (bufGet s.eng.wbuf 0)
  | .byteData, .read => wrReg s .cmd s.eng.cmd
  | .byteData, .write => wrReg (wrReg s .cmd s.eng.cmd) (winReg 0) (bufGet s.eng.wbuf 0)
  | .blockData, .read => wrReg s .cmd s.eng.cmd
  | .blockData, .write =>
    let s := wrReg s .cmd s.eng.cmd
    let s := wrReg s .count (countByte s.eng.wlen)
    let k := min s.eng.wlen Config.WINDOW
    setGot (placeWindow s 0 0 k) k

/-- R157 to R159: address, the operation's registers, the start; then a fresh poll budget. -/
def startTransfer (s : State) : State :=
  let s := wrReg s .addr (addrByte s.eng.sa s.eng.rw)
  let s := programOperands s
  let s := wrReg s .hostcnt (startByte s.binding.params s.eng.type)
  awaitPoll s

/-- R164: a single received byte is fetched from window byte 0. -/
def fetchByte (s : State) : State :=
  let v := regVal s (winReg 0)
  let s := afterReg s (winReg 0)
  s.setEng { s.eng with rbuf := bufPut s.eng.rbuf 0 v, rlen := 1, st := .clearSticky }

/-- R164: after a successful poll. -/
def afterPoll (s : State) : State :=
  match s.eng.type, s.eng.rw with
  | .quick, .write => goTo s .clearSticky
  | .quick, .read => goTo s .clearSticky
  | .byte, .write => goTo s .clearSticky
  | .byteData, .write => goTo s .clearSticky
  | .byte, .read => fetchByte s
  | .byteData, .read => fetchByte s
  | .blockData, .read => goTo s .blockReadLoop
  | .blockData, .write => goTo s (if moreGroups s.eng.got s.eng.wlen then .blockWriteLoop else .clearSticky)

/-- R160: `x[s] <- RdReg(STS); x[poll] <- x[poll] + 1`. -/
def readStatus (s : State) : State :=
  let v := regVal s .sts
  let s := afterReg s .sts
  s.setEng { s.eng with s := v, poll := s.eng.poll + 1 }

/-- R161 to R163: the tests on the status value read: error, completion and budget, in that order (R229). -/
def judgeStatus (s : State) : State :=
  if isError s.binding.params s.eng.s then raiseFail s .transferFailure
  else if isComplete s.binding.params s.eng.type s.eng.s then afterPoll s
  else if pollSpent s.eng.poll then raiseFail s .transferTimeout
  else s

/-- R160 to R163: one poll: delay, status read, tests. -/
def pollComplete (s : State) : State := judgeStatus (readStatus (delay s .poll))

/-- R166: `x[rbuf][x[got] + i] <- RdWin(i)`. -/
def fetchOne (s : State) (i : Nat) : State :=
  let v := regVal s (winReg i)
  let s := afterReg s (winReg i)
  s.setEng { s.eng with rbuf := bufPut s.eng.rbuf (s.eng.got + i) v }

/-- R166: n bytes fetched from window byte i on, ascending. -/
def fetchWindow (s : State) : Nat → Nat → State
  | _, 0 => s
  | i, n + 1 => fetchWindow (fetchOne s i) (i + 1) n

/-- R165: `x[cnt] <- min(RdReg(COUNT), 32)`. -/
def loadCount (s : State) : State :=
  let n := regVal s .count
  let s := afterReg s .count
  s.setEng { s.eng with cnt := capCount n }

/-- R165: the count is read on the first entry of a pass (nothing fetched yet), once. -/
def readCount (s : State) : State := if s.eng.got = 0 then loadCount s else s

/-- R165: a block of no bytes. -/
def endEmpty (s : State) : State := s.setEng { s.eng with rlen := 0, st := .clearSticky }

/-- R167: what follows a group: the next poll, or the end. -/
def endGroup (s : State) : State :=
  if moreGroups s.eng.got s.eng.cnt then awaitPoll s
  else s.setEng { s.eng with rlen := s.eng.cnt, st := .clearSticky }

/-- R166, R167: one group fetched and the status re-armed. -/
def fetchGroup (s : State) : State :=
  let k := groupSize s.eng.cnt s.eng.got
  let s := fetchWindow s 0 k
  let s := setGot s (s.eng.got + k)
  endGroup (wrReg s .sts s.binding.params.stsBlockFin)

/-- R165 to R167. -/
def blockReadLoop (s : State) : State :=
  let s := readCount s
  if s.eng.cnt = 0 then endEmpty s else fetchGroup s

/-- R168: the next group is placed, the status re-armed, and the poll begins anew. -/
def blockWriteLoop (s : State) : State :=
  let k := groupSize s.eng.wlen s.eng.got
  let s := placeWindow s s.eng.got 0 k
  let s := setGot s (s.eng.got + k)
  awaitPoll (wrReg s .sts s.binding.params.stsBlockFin)

/-- R170: Done, or Failed with an empty result. -/
def endPass (s : State) : State :=
  if s.eng.fail = .noFailure then s.setEng { s.eng with ok := true, st := .done }
  else s.setEng { s.eng with ok := false, rlen := 0, st := .failed }

/-- R170: all-ones to the status register on every path; then the end of the pass. -/
def clearSticky (s : State) : State := endPass (wrReg s .sts Config.STS_CLEAR_ALL)

/-- What the engine does in its present state (R150); in Idle, Done and Failed, nothing (R171). -/
def enginePhase (s : State) : State :=
  match s.eng.st with
  | .idle => s
  | .busyCheck => busyCheck s
  | .recover => recover s
  | .clearFlags => clearFlags s
  | .startTransfer => startTransfer s
  | .pollComplete => pollComplete s
  | .blockReadLoop => blockReadLoop s
  | .clearSticky => clearSticky s
  | .done => s
  | .failed => s
  | .blockWriteLoop => blockWriteLoop s

/-- At most n phases, stopping when the pass has ended. -/
def runEngine : Nat → State → State
  | 0, s => s
  | n + 1, s => if s.eng.st.accepting then s else runEngine n (enginePhase s)

/-- R173: the phases a pass can take: BusyCheck, ten re-checks, ClearFlags, StartTransfer, four stays of forty polls
each followed by at most one block group, ClearSticky. -/
def maxPhases : Nat := 1 + Config.N_BUSY_RETRY + 1 + 1 + 4 * (Config.N_POLL + 1) + 1

/-- R172: the pass, from the state in which its command has been latched. -/
def runPass (s : State) : State := runEngine maxPhases s

end Sys2Proof.Machine
end

