-- ==== Sys2Proof/Machine/Smbus.lean ====
section
/-! DEFINITION. The eight SMBus operations (42_smbus_ops.md R179 to R187): each is one pass of the state machine with
its own transfer type, direction and operands. -/

namespace Sys2Proof.Machine

/-- What all eight share (R179): refused during a pass (R104 f), with no base bound (R104 e), or where the register
file meets the configuration ports (R63); otherwise accepted and run to the end of its pass. -/
def smbOperation (s : State) (t : Xfer) (rw : Dir) (sa : BitVec 7) (cmd : Byte) (data : List Byte) : Res :=
  whenIdle s <|
  if !s.binding.baseValid then .refused .noBase
  else if !s.binding.portsClear then .refused .portsMeetConfig
  else .next (runPass (latchSmb s t rw sa cmd data))

/-- `SMB_WRITE_QUICK` (R181). -/
def execSmbWriteQuick (sa : BitVec 7) (s : State) : Res := smbOperation s .quick .write sa 0#8 []

/-- `SMB_READ_QUICK` (R180). -/
def execSmbReadQuick (sa : BitVec 7) (s : State) : Res := smbOperation s .quick .read sa 0#8 []

/-- `SMB_WRITE_BYTE` (R183). -/
def execSmbWriteByte (sa : BitVec 7) (data : Byte) (s : State) : Res := smbOperation s .byte .write sa 0#8 [data]

/-- `SMB_READ_BYTE` (R182). -/
def execSmbReadByte (sa : BitVec 7) (s : State) : Res := smbOperation s .byte .read sa 0#8 []

/-- `SMB_WRITE_BYTE_DATA` (R185). -/
def execSmbWriteByteData (sa : BitVec 7) (cmd : Byte) (data : Byte) (s : State) : Res :=
  smbOperation s .byteData .write sa cmd [data]

/-- `SMB_READ_BYTE_DATA` (R184). -/
def execSmbReadByteData (sa : BitVec 7) (cmd : Byte) (s : State) : Res := smbOperation s .byteData .read sa cmd []

/-- `SMB_WRITE_BLOCK_DATA` (R187): 1 to 32 bytes, any other number refused (R104 b). -/
def execSmbWriteBlockData (sa : BitVec 7) (cmd : Byte) (data : List Byte) (s : State) : Res :=
  if blockLengthOk data then smbOperation s .blockData .write sa cmd data else .refused .blockLength

/-- `SMB_READ_BLOCK_DATA` (R186). -/
def execSmbReadBlockData (sa : BitVec 7) (cmd : Byte) (s : State) : Res := smbOperation s .blockData .read sa cmd []

end Sys2Proof.Machine
end

