-- ==== Sys2Proof/Machine/Dispatch.lean ====
section
/-! DEFINITION. The dispatch: one meaning for each of the fifteen operations (30_encoding.md R101). -/

namespace Sys2Proof.Machine

def exec (i : Instr) (s : State) : Host.Outcome State Fault Refusal :=
  match i with
  | .cfgRd8 bus dev fn reg => Sys2Proof.Machine.execCfgRd8 bus dev fn reg s
  | .cfgRd16 bus dev fn reg => Sys2Proof.Machine.execCfgRd16 bus dev fn reg s
  | .cfgRd32 bus dev fn reg => Sys2Proof.Machine.execCfgRd32 bus dev fn reg s
  | .cfgWr8 bus dev fn reg v => Sys2Proof.Machine.execCfgWr8 bus dev fn reg v s
  | .cfgWr16 bus dev fn reg v => Sys2Proof.Machine.execCfgWr16 bus dev fn reg v s
  | .cfgWr32 bus dev fn reg v => Sys2Proof.Machine.execCfgWr32 bus dev fn reg v s
  | .cfgScan visitor => Sys2Proof.Machine.execCfgScan visitor s
  | .smbWriteQuick sa => Sys2Proof.Machine.execSmbWriteQuick sa s
  | .smbReadQuick sa => Sys2Proof.Machine.execSmbReadQuick sa s
  | .smbWriteByte sa data => Sys2Proof.Machine.execSmbWriteByte sa data s
  | .smbReadByte sa => Sys2Proof.Machine.execSmbReadByte sa s
  | .smbWriteByteData sa cmd data => Sys2Proof.Machine.execSmbWriteByteData sa cmd data s
  | .smbReadByteData sa cmd => Sys2Proof.Machine.execSmbReadByteData sa cmd s
  | .smbWriteBlockData sa cmd data => Sys2Proof.Machine.execSmbWriteBlockData sa cmd data s
  | .smbReadBlockData sa cmd => Sys2Proof.Machine.execSmbReadBlockData sa cmd s

end Sys2Proof.Machine
end

