-- ==== Sys2Proof/Machine/Intake.lean ====
section
/-! DEFINITION. The client's side of the block: taking the next input the client has sent, a command (30_encoding.md
R102, R103) or the bind step's value (R107). -/

namespace Sys2Proof.Machine

/-- One input of the client, taken. -/
def takeInput (s : State) : ClientInput → Res
  | .bind b => bindBase s b
  | .command c =>
    match decode c with
    | .ok i => exec i s
    | .error why => .refused (.illegalCommand why)

end Sys2Proof.Machine
end

