-- ==== Sys2Proof/Machine/Step.lean ====
section
/-! DEFINITION. One step of the machine. While no pass is active the block takes what the client has sent next: a
command, decoded and run to its end, or the bind step's value; with nothing sent, nothing happens (10_state.md R26,
R171). While a pass is active (a state no step of this machine ends in, R105) the engine goes on, and the client's
inputs are not looked at (30_encoding.md R103, 20_memory.md R84). -/

namespace Sys2Proof.Machine

/-- One step. -/
def step (s : State) : Host.Outcome State Fault Refusal :=
  if s.eng.st.accepting then
    match s.inbox with
    | [] => .next s
    | i :: rest => takeInput (s.setInbox rest) i
  else if s.binding.portsClear then .next (enginePhase s)
  else .refused .portsMeetConfig

/-- The instruction whose bits are w, sent as the client's next command: `step` fetches it first (log entry 10). -/
def State.withFetchWord (s : State) (nbits w : Nat) : State :=
  s.setInbox (.command (commandOfBits nbits w) :: s.inbox)

end Sys2Proof.Machine
end

