-- ==== Sys2Proof/Machine/BlockStep.lean ====
section
/-! DEFINITION. The block at the granularity of 00_scope.md R13: "a step of the block is exactly one of: one port-I/O
access, one delay, or, in the scan operation, one call of the visitor". `blockStep` makes one such step, from a machine
whose operation may stand between any two of them; an operation, and with it a step of Step.lean, is a number of block
steps in a row (Obligations.AnOperationIsItsBlockSteps). The functions that access, delay and decide are those of
PciConfig.lean and Engine.lean. -/

namespace Sys2Proof.Machine

/-! ### What an operation still has to do -/

/-- One step of the block, with what it needs to be made. -/
inductive BlockAct where
  /-- R131, the address phase of an access, whose operands are accepted with it (R103). -/
  | address (a : CfgAccess)
  | readByte
  | readLow
  | readHigh (lo : Byte)
  | readDword
  | writeLow
  | writeHigh
  | writeDword
  /-- R138: the visitor is called; `calls` is what it does from this call on. -/
  | visit (calls : List VisitorCall)
  /-- `WrReg(X, v)`. -/
  | write (r : Reg) (v : Byte)
  /-- R155: `WrReg(CNT, x[c] & ~CNT_MSTO_EN)`. -/
  | writeControl
  | wait (d : DelayKind)
  | busyRead
  | recheck
  | readControl
  | readStatus
  | fetchByte
  | loadCount
  /-- R166: window byte i fetched. -/
  | fetch (i : Nat)
  deriving DecidableEq, Repr

/-- What happens between two steps: registers of the block change, and nothing passes over a port. -/
inductive Bookkeeping where
  /-- R155: on to StartTransfer. -/
  | flagsCleared
  /-- `x[got] <- n`. -/
  | setGot (n : Nat)
  /-- R159, R168: a fresh stay in PollComplete. -/
  | awaitPoll
  /-- R167. -/
  | endGroup
  /-- R170. -/
  | endPass
  /-- R150: on to what the engine does in the state it is now in; nothing where the pass has ended. -/
  | nextPhase
  /-- R138: the visitor's call has returned this bit, or never will. -/
  | answered (answer : Option Bool) (later : List VisitorCall)
  deriving DecidableEq, Repr

/-- An item of what is still to do. -/
inductive Todo where
  | act (a : BlockAct)
  | keep (b : Bookkeeping)
  deriving DecidableEq, Repr

/-- The machine between two steps of the block: its state, and what the active operation still has to do (nothing
between operations). -/
structure InFlight where
  state : State
  todo : List Todo
  deriving DecidableEq, Repr

/-! ### Plans -/

/-- The steps of a configuration access (R130 to R137); the second half of a 16-bit read follows from its first. -/
def accessPlan (a : CfgAccess) : List Todo :=
  .act (.address a) ::
  match a with
  | .rd8 _ _ _ _ => [.act .readByte]
  | .rd16 _ _ _ _ => [.act .readLow]
  | .rd32 _ _ _ _ => [.act .readDword]
  | .wr8 _ _ _ _ _ => [.act .writeLow]
  | .wr16 _ _ _ _ _ => [.act .writeLow, .act .writeHigh]
  | .wr32 _ _ _ _ _ => [.act .writeDword]

/-- n window writes from window byte i on, of `x[wbuf]` from `first + i` on (R158, R168). -/
def placePlan (s : State) (first : Nat) : Nat → Nat → List Todo
  | _, 0 => []
  | i, n + 1 => .act (.write (winReg i) (bufGet s.eng.wbuf (first + i))) :: placePlan s first (i + 1) n

/-- n window reads from window byte i on (R166). -/
def fetchPlan : Nat → Nat → List Todo
  | _, 0 => []
  | i, n + 1 => .act (.fetch i) :: fetchPlan (i + 1) n

/-- The row of R158's table. -/
def operandPlan (s : State) : List Todo :=
  match s.eng.type, s.eng.rw with
  | .quick, .write => []
  | .quick, .read => []
  | .byte, .read => []
  | .byte, .write => [.act (.write .cmd (bufGet s.eng.wbuf 0))]
  | .byteData, .read => [.act (.write .cmd s.eng.cmd)]
  | .byteData, .write => [.act (.write .cmd s.eng.cmd), .act (.write (winReg 0) (bufGet s.eng.wbuf 0))]
  | .blockData, .read => [.act (.write .cmd s.eng.cmd)]
  | .blockData, .write =>
    let k := min s.eng.wlen Config.WINDOW
    [.act (.write .cmd s.eng.cmd), .act (.write .count (countByte s.eng.wlen))] ++ placePlan s 0 0 k ++
      [.keep (.setGot k)]

/-- One group of a block read and what follows it (R166, R167). -/
def groupPlan (s : State) : List Todo :=
  let k := groupSize s.eng.cnt s.eng.got
  fetchPlan 0 k ++
    [.keep (.setGot (s.eng.got + k)), .act (.write .sts s.binding.params.stsBlockFin), .keep .endGroup]

/-- What the engine does in its present state, as steps (R150); nothing in Idle, Done and Failed. -/
def phasePlan (s : State) : List Todo :=
  match s.eng.st with
  | .idle => []
  | .done => []
  | .failed => []
  | .busyCheck => [.act .busyRead]
  | .recover =>
    (if s.eng.retry = 0 then [.act (.write .hostcnt (killByte s.binding.params)), .act (.wait .kill)]
      else [.act (.wait .recheck)]) ++ [.act .recheck]
  | .clearFlags =>
    [.act .readControl, .act .writeControl, .act (.write .sts s.binding.params.stsPreclear), .keep .flagsCleared]
  | .startTransfer =>
    [.act (.write .addr (addrByte s.eng.sa s.eng.rw))] ++ operandPlan s ++
      [.act (.write .hostcnt (startByte s.binding.params s.eng.type)), .keep .awaitPoll]
  | .pollComplete => [.act (.wait .poll), .act .readStatus]
  | .blockReadLoop => if s.eng.got = 0 then [.act .loadCount] else groupPlan s
  | .blockWriteLoop =>
    let k := groupSize s.eng.wlen s.eng.got
    placePlan s s.eng.got 0 k ++
      [.keep (.setGot (s.eng.got + k)), .act (.write .sts s.binding.params.stsBlockFin), .keep .awaitPoll]
  | .clearSticky => [.act (.write .sts Config.STS_CLEAR_ALL), .keep .endPass]

/-! ### One step -/

/-- R164: the status value read completes a transfer that has one byte to fetch. -/
def byteToFetch (s : State) : Bool :=
  !isError s.binding.params s.eng.s && isComplete s.binding.params s.eng.type s.eng.s &&
    decide (s.eng.rw = .read ∧ (s.eng.type = .byte ∨ s.eng.type = .byteData))

/-- One step made: the state after it, and the steps that it calls for before the rest of the plan. Only a visitor's
command outside the data window is refused (R104 d), where the visitor issues it. -/
def perform (s : State) : BlockAct → Except Refusal (State × List Todo)
  | .address a => .ok (addressPhase (acceptAccess s a), [])
  | .readByte => .ok (readByte s, [])
  | .readLow => .ok (afterRead8 s (dataPort s.acc.reg), [.act (.readHigh (readVal8 s (dataPort s.acc.reg)))])
  | .readHigh lo => .ok (readHigh s lo, [])
  | .readDword => .ok (readDword s, [])
  | .writeLow => .ok (writeLow s, [])
  | .writeHigh => .ok (writeHigh s, [])
  | .writeDword => .ok (writeDword s, [])
  | .visit calls =>
    let v := calls.headD { cmds := [], answer := some false }
    if v.cmds.all CfgAccess.wellFormed then
      .ok (callVisitor s, v.cmds.flatMap accessPlan ++ [.keep (.answered v.answer calls.tail)])
    else .error .leavesWindow
  | .write r v => .ok (wrReg s r v, [])
  | .writeControl => .ok (wrReg s .cnt (controlWriteback s.binding.params s.eng.c), [])
  | .wait d => .ok (delay s d, [])
  | .busyRead => .ok (busyCheck s, [])
  | .recheck => .ok (recheck s, [])
  | .readControl => .ok (readControl s, [])
  | .readStatus =>
    let t := readStatus s
    if byteToFetch t then .ok (t, [.act .fetchByte]) else .ok (judgeStatus t, [])
  | .fetchByte => .ok (fetchByte s, [])
  | .loadCount =>
    let t := loadCount s
    if t.eng.cnt = 0 then .ok (endEmpty t, []) else .ok (t, groupPlan t)
  | .fetch i => .ok (fetchOne s i, [])

/-- The bookkeeping that stands before the next step of the plan. -/
def settle : State → List Todo → Host.Outcome InFlight Fault Refusal
  | s, [] => .next { state := s, todo := [] }
  | s, .act a :: rest => .next { state := s, todo := .act a :: rest }
  | s, .keep .flagsCleared :: rest => settle (goTo s .startTransfer) rest
  | s, .keep (.setGot n) :: rest => settle (setGot s n) rest
  | s, .keep .awaitPoll :: rest => settle (awaitPoll s) rest
  | s, .keep .endGroup :: rest => settle (endGroup s) rest
  | s, .keep .endPass :: rest => settle (endPass s) rest
  | s, .keep .nextPhase :: rest =>
    if s.eng.st.accepting then settle s rest
    else .next { state := s, todo := phasePlan s ++ .keep .nextPhase :: rest }
  | _, .keep (.answered none _) :: _ => .fault .visitorNeverReturns
  | s, .keep (.answered (some true) _) :: rest => settle (s.setAcc { s.acc with found := true }) rest
  | s, .keep (.answered (some false) later) :: rest =>
    let t := s.setAcc { s.acc with idx := s.acc.idx + 1#17 }
    if t.acc.idx.toNat < Config.N_FUNCTIONS then .next { state := t, todo := .act (.visit later) :: rest }
    else settle t rest

/-- The next step of the plan, with the bookkeeping after it. Between operations there is none. -/
def advance (r : InFlight) : Host.Outcome InFlight Fault Refusal :=
  match r.todo with
  | [] => .next r
  | .keep b :: rest => settle r.state (.keep b :: rest)
  | .act a :: rest =>
    match perform r.state a with
    | .ok (s, more) => settle s (more ++ rest)
    | .error e => .refused e

/-! ### Acceptance -/

/-- A configuration access taken up (R104 d, R105). -/
def beginAccess (s : State) (a : CfgAccess) : Host.Outcome InFlight Fault Refusal :=
  if s.eng.st.accepting then
    if a.wellFormed then .next { state := s, todo := accessPlan a } else .refused .leavesWindow
  else .refused .operationActive

/-- An SMBus operation taken up: latched, and its first phase planned (R103; R104 e, f; R63). -/
def beginPass (s : State) (t : Xfer) (rw : Dir) (sa : BitVec 7) (cmd : Byte) (data : List Byte) :
    Host.Outcome InFlight Fault Refusal :=
  if s.eng.st.accepting then
    if !s.binding.baseValid then .refused .noBase
    else if !s.binding.portsClear then .refused .portsMeetConfig
    else settle (latchSmb s t rw sa cmd data) [.keep .nextPhase]
  else .refused .operationActive

/-- An operation taken up, before its first step. -/
def beginOperation (i : Instr) (s : State) : Host.Outcome InFlight Fault Refusal :=
  match i with
  | .cfgRd8 b d f r => beginAccess s (.rd8 b d f r)
  | .cfgRd16 b d f r => beginAccess s (.rd16 b d f r)
  | .cfgRd32 b d f r => beginAccess s (.rd32 b d f r)
  | .cfgWr8 b d f r v => beginAccess s (.wr8 b d f r v)
  | .cfgWr16 b d f r v => beginAccess s (.wr16 b d f r v)
  | .cfgWr32 b d f r v => beginAccess s (.wr32 b d f r v)
  | .cfgScan calls =>
    if s.eng.st.accepting then .next { state := startScan s, todo := [.act (.visit calls)] }
    else .refused .operationActive
  | .smbWriteQuick sa => beginPass s .quick .write sa 0#8 []
  | .smbReadQuick sa => beginPass s .quick .read sa 0#8 []
  | .smbWriteByte sa data => beginPass s .byte .write sa 0#8 [data]
  | .smbReadByte sa => beginPass s .byte .read sa 0#8 []
  | .smbWriteByteData sa cmd data => beginPass s .byteData .write sa cmd [data]
  | .smbReadByteData sa cmd => beginPass s .byteData .read sa cmd []
  | .smbWriteBlockData sa cmd data =>
    if blockLengthOk data then beginPass s .blockData .write sa cmd data else .refused .blockLength
  | .smbReadBlockData sa cmd => beginPass s .blockData .read sa cmd []

/-- Between operations: the engine's pass resumed where one is active (a state that no operation leaves), else the
client's next input taken. Taking it is no step of its own (R13); the bind step has no step at all (R262). -/
def takeUp (s : State) : Host.Outcome InFlight Fault Refusal :=
  if s.eng.st.accepting then
    match s.inbox with
    | [] => .next { state := s, todo := [] }
    | .bind b :: rest =>
      match bindBase (s.setInbox rest) b with
      | .next t => .next { state := t, todo := [] }
      | .fault e => .fault e
      | .refused e => .refused e
    | .command c :: rest =>
      match decode c with
      | .ok i => beginOperation i (s.setInbox rest)
      | .error why => .refused (.illegalCommand why)
  else if s.binding.portsClear then settle s [.keep .nextPhase]
  else .refused .portsMeetConfig

/-- One step of the block (R13): the next port access, delay or visitor call of the active operation; between
operations, the first one of what the client has sent next. -/
def blockStep (r : InFlight) : Host.Outcome InFlight Fault Refusal :=
  match r.todo with
  | [] =>
    match takeUp r.state with
    | .next q => advance q
    | .fault e => .fault e
    | .refused e => .refused e
  | _ :: _ => advance r

/-- n steps of the block. -/
def blockSteps : Nat → InFlight → Host.Outcome InFlight Fault Refusal
  | 0, r => .next r
  | n + 1, r =>
    match blockStep r with
    | .next q => blockSteps n q
    | .fault e => .fault e
    | .refused e => .refused e

/-- An event that is a step of the block (R13): every one but a diagnostic. -/
def Event.isStep : Event → Bool
  | .rd8 _ _ => true
  | .rd32 _ _ => true
  | .wr8 _ _ => true
  | .wr32 _ _ => true
  | .delay _ => true
  | .visit _ _ _ => true
  | .diag _ => false

/-- The number of steps of the block in a record. -/
def stepCount (es : List Event) : Nat := (es.filter Event.isStep).length

end Sys2Proof.Machine
end

