-- ==== Sys2Proof/Machine/Client.lean ====
section
/-! DEFINITION. The client sequences (43_client_sequences.md R199 to R208): the block's boot sequence and the other
pseudo-operations, each a fixed sequence of the block's operations. They are not part of the block (00_scope.md R6) and
`step` runs none of them: a client issues their commands one by one. -/

namespace Sys2Proof.Machine

/-! ### Parameters and outcomes of the clients -/

/-- A named PCI function: triple, VendorID, DeviceID (00_scope.md R19). -/
structure FunctionBlock where
  bus : BitVec 8
  dev : BitVec 5
  fn : BitVec 3
  vid : BitVec 16
  did : BitVec 16
  deriving DecidableEq, Repr

/-- R199: the open parameters of the clients. -/
structure ClientParams where
  vidReg : Byte
  didReg : Byte
  lpc : FunctionBlock
  acpiCtlReg : Byte
  acpiEnMask : Byte
  smbBaseReg : Byte
  pllSa : BitVec 7
  keyReg : Byte
  keyBits : List (Fin 8)
  enReg : Byte
  enBit : Fin 8
  deriving DecidableEq, Repr

/-- The six kinds of failure (60_exceptions.md R220). -/
inductive FailKind where
  | identityMismatch | firmwareState | busContention | transferFailure | transferTimeout | logicalMismatch
  deriving DecidableEq, Repr

/-- R220: the number of a kind. -/
def FailKind.code : FailKind → Nat
  | .identityMismatch => 1
  | .firmwareState => 2
  | .busContention => 3
  | .transferFailure => 4
  | .transferTimeout => 5
  | .logicalMismatch => 6

/-- R220, R226: the kind of a failed pass. -/
def FailCode.kind : FailCode → Option FailKind
  | .noFailure => none
  | .busContention => some .busContention
  | .transferFailure => some .transferFailure
  | .transferTimeout => some .transferTimeout

/-- Why a client sequence ends early, and the state it leaves. -/
inductive ClientStop where
  /-- A failure of one of the six kinds. -/
  | failed (k : FailKind) (s : State)
  /-- A successful block read that returned no byte ("on empty result, fails": R204 to R207). DESIGN CHOICE (log entry
  12): the spec does not say which of R220's six kinds this is, and the model makes it a stop of its own. -/
  | emptyResult (s : State)
  /-- The block refused a command. -/
  | refused (s : State)
  deriving DecidableEq, Repr

/-- One command issued. -/
def issue (i : Instr) (s : State) : Except ClientStop State :=
  match exec i s with
  | .next t => .ok t
  | .fault _ => .error (.refused s)
  | .refused _ => .error (.refused s)

/-- An SMBus command issued; a failed pass is a failure of its kind. -/
def issueSmb (i : Instr) (s : State) : Except ClientStop State :=
  match issue i s with
  | .error e => .error e
  | .ok t =>
    match t.eng.fail.kind with
    | none => .ok t
    | some k => .error (.failed k t)

/-- `cfg_rd16 f, reg`. -/
def clientRd16 (f : FunctionBlock) (reg : Byte) (s : State) : Except ClientStop (BitVec 16 × State) :=
  (issue (.cfgRd16 f.bus f.dev f.fn reg) s).map fun t => (t.acc.rdata.setWidth 16, t)

/-- `cfg_rd8 f, reg`. -/
def clientRd8 (f : FunctionBlock) (reg : Byte) (s : State) : Except ClientStop (Byte × State) :=
  (issue (.cfgRd8 f.bus f.dev f.fn reg) s).map fun t => (t.acc.rdata.setWidth 8, t)

/-! ### Discovery and boot -/

/-- R200: VendorID and DeviceID both read back as the catalogue has them. -/
def identityMatches (p : ClientParams) (f : FunctionBlock) (s : State) : Except ClientStop (Bool × State) := do
  let (v, s) ← clientRd16 f p.vidReg s
  let (d, s) ← clientRd16 f p.didReg s
  return (decide (v = f.vid ∧ d = f.did), s)

/-- R200 `findHostBridge`: the first registered bridge that matches. -/
def findHostBridge (p : ClientParams) : List FunctionBlock → State → Except ClientStop (FunctionBlock × State)
  | [], s => .error (.failed .identityMismatch s)
  | f :: fs, s => do
    let (hit, s) ← identityMatches p f s
    if hit then return (f, s) else findHostBridge p fs s

/-- R201: the ACPI enable bit set if need be (read-modify-write) and re-read. -/
def enableAcpi (p : ClientParams) (s : State) : Except ClientStop State := do
  let (c, s) ← clientRd8 p.lpc p.acpiCtlReg s
  if c &&& p.acpiEnMask ≠ 0#8 then return s
  else
    let s ← issue (.cfgWr8 p.lpc.bus p.lpc.dev p.lpc.fn p.acpiCtlReg (c ||| p.acpiEnMask)) s
    let (c, s) ← clientRd8 p.lpc p.acpiCtlReg s
    if c &&& p.acpiEnMask ≠ 0#8 then return s
    else .error (.failed .firmwareState (emitDiag s .couldNotEnableAcpi))

/-- R201 `initSMB`: identity, ACPI enable, base register, bind. -/
def initSMB (p : ClientParams) (s : State) : Except ClientStop State := do
  let (hit, s) ← identityMatches p p.lpc s
  if !hit then .error (.failed .identityMismatch s)
  else
    let s ← enableAcpi p s
    let (b, s) ← clientRd16 p.lpc p.smbBaseReg s
    if b ∈ Config.BASE_INVALID then .error (.failed .firmwareState s)
    else
      match bindBase s b with
      | .next t => return t
      | .fault _ => .error (.refused s)
      | .refused _ => .error (.refused s)

/-! ### The PLL model -/

/-- R202 `check`: one write-quick to slave address 0. -/
def clientCheck (s : State) : Except ClientStop State := issueSmb (.smbWriteQuick 0#7) s

/-- R203: the bits of a register value at the key's positions, the first position least significant. -/
def getKey : List (Fin 8) → Byte → Nat
  | [], _ => 0
  | k :: ks, r => (r.getLsbD k.val).toNat + 2 * getKey ks r

/-- R203: the mask of the key's positions. DESIGN CHOICE (log entry 12): the bits are or-ed together, so a position that
stands twice in the list counts once, where the rule's formula would add its bit twice. -/
def keyMask : List (Fin 8) → Byte
  | [] => 0#8
  | k :: ks => (1#8 <<< k.val) ||| keyMask ks

/-- R203: the key's bits placed at its positions. DESIGN CHOICE (log entry 12): the bits are or-ed together; where the
list repeats a position, which the source does not exclude, the rule's formula would add them instead. -/
def scatter : List (Fin 8) → Nat → Byte
  | [], _ => 0#8
  | k :: ks, n => (BitVec.ofNat 8 (n % 2) <<< k.val) ||| scatter ks (n / 2)

/-- R203 `encodeKey`: the key's positions replaced, every other bit kept. -/
def encodeKey (ks : List (Fin 8)) (r : Byte) (n : Nat) : Byte := (r &&& ~~~(keyMask ks)) ||| scatter ks n

/-- A block read of the PLL that must return at least one byte: its byte 0. -/
def pllRead (p : ClientParams) (reg : Byte) (s : State) : Except ClientStop (Byte × State) :=
  match issueSmb (.smbReadBlockData p.pllSa reg) s with
  | .error e => .error e
  | .ok t => if t.eng.rlen = 0 then .error (.emptyResult t) else .ok (bufGet t.eng.rbuf 0, t)

/-- A one-byte block write to the PLL. -/
def pllWrite (p : ClientParams) (reg : Byte) (v : Byte) (s : State) : Except ClientStop State :=
  issueSmb (.smbWriteBlockData p.pllSa reg [v]) s

/-- R204 `getFSB`: the key in the key register, which must be one of the table's keys. -/
def getFSB (p : ClientParams) (table : List Nat) (s : State) : Except ClientStop (Nat × State) := do
  let (v, s) ← pllRead p p.keyReg s
  let k := getKey p.keyBits v
  if k ∈ table then return (k, s) else .error (.failed .logicalMismatch s)

/-- R206 `getEnabled`. -/
def getEnabled (p : ClientParams) (s : State) : Except ClientStop (Bool × State) := do
  let (v, s) ← pllRead p p.enReg s
  return (v.getLsbD p.enBit.val, s)

/-- R207 `setEnabled`: the enable bit set, every other bit kept, written even when it is already set. -/
def setEnabled (p : ClientParams) (s : State) : Except ClientStop State := do
  let (v, s) ← pllRead p p.enReg s
  pllWrite p p.enReg (v ||| (1#8 <<< p.enBit.val)) s

/-- R205 `setFSB`: the key of the target (none where the target is not in the table) written, then the enable step.
DESIGN CHOICE (log entry 12): after a failed step nothing more is issued. -/
def setFSB (p : ClientParams) (target : Option Nat) (s : State) : Except ClientStop State :=
  match target with
  | none => .error (.failed .logicalMismatch s)
  | some k => do
    let (v, s) ← pllRead p p.keyReg s
    let s ← pllWrite p p.keyReg (encodeKey p.keyBits v k) s
    setEnabled p s

/-! ### Device listing -/

/-- R208: at each triple the listing visitor reads the VendorID and returns 0. DESIGN CHOICE (log entry 12): the value
that marks "no device" is not in the source, so the visitor tests nothing, and the printing is left out. -/
def listingCall (p : ClientParams) (i : BitVec 17) : VisitorCall where
  cmds := [.rd16 (idxBus i) (idxDev i) (idxFn i) p.vidReg]
  answer := some false

/-- R208: the listing visitor. -/
def listingVisitor (p : ClientParams) : List VisitorCall :=
  (List.range Config.N_FUNCTIONS).map fun n => listingCall p (BitVec.ofNat 17 n)

end Sys2Proof.Machine
end

