-- ==== Sys2Proof/Safety.lean ====
section
/-! DEFINITION. The terms claims use: the invariant of the machine, the states in which an operation can be accepted,
an environment that changes nothing on its own, and the port accesses the block may issue (20_memory.md R63). -/

namespace Sys2Proof.Machine

/-- An environment that makes no change on its own: every read then returns what was last stored (R80). -/
def PortSide.Passive (x : PortSide) : Prop := ∀ acts ∈ x.env, acts = []

/-- R105: no pass is active, so a configuration command can be accepted. -/
abbrev CfgReady (s : State) : Prop := s.eng.st.accepting = true

/-- R104 (e), (f), R63: an SMBus command can be accepted. -/
abbrev SmbReady (s : State) : Prop :=
  s.eng.st.accepting = true ∧ s.binding.baseValid = true ∧ s.binding.portsClear = true

/-- The registers of the register file that the engine accesses; the other six it never does (R30, R43). -/
def engineAccesses : Reg → Bool
  | .sts => true
  | .cnt => true
  | .hostcnt => true
  | .addr => true
  | .cmd => true
  | .count => true
  | .byte _ => true
  | .en => false
  | .pcount => false
  | .devaddr => false
  | .db0 => false
  | .db1 => false
  | .slvsts => false

/-- R63: byte accesses go to the data window and to engine-accessed registers. -/
def allowedBytePort (b : Binding) (p : Port) : Prop :=
  (0xCFC ≤ p.toNat ∧ p.toNat ≤ 0xCFF) ∨ ∃ r, engineAccesses r = true ∧ p = b.portOf r

/-- R63: the port accesses the block may issue, with their widths. -/
def allowedEvent (b : Binding) : Event → Prop
  | .rd8 p _ => allowedBytePort b p
  | .wr8 p _ => allowedBytePort b p
  | .rd32 p _ => p = 0xCFC#16
  | .wr32 p _ => p = 0xCF8#16 ∨ p = 0xCFC#16
  | .delay _ => True
  | .visit _ _ _ => True
  | .diag _ => True

/-- The events an operation or a step has added to the record of steps. -/
def newEvents (s t : State) : List Event := t.side.trace.drop s.side.trace.length

/-- The operands of the eight SMBus operations (`SMB_WRITE_QUICK`, `SMB_READ_QUICK`, `SMB_WRITE_BYTE`, `SMB_READ_BYTE`,
`SMB_WRITE_BYTE_DATA`, `SMB_READ_BYTE_DATA`, `SMB_WRITE_BLOCK_DATA`, `SMB_READ_BLOCK_DATA`): transfer type, direction,
slave address, command offset and data bytes, as R180 to R187 give them; none for a configuration operation. -/
def smbOperands : Instr → Option (Xfer × Dir × BitVec 7 × Byte × List Byte)
  | .cfgRd8 _ _ _ _ => none
  | .cfgRd16 _ _ _ _ => none
  | .cfgRd32 _ _ _ _ => none
  | .cfgWr8 _ _ _ _ _ => none
  | .cfgWr16 _ _ _ _ _ => none
  | .cfgWr32 _ _ _ _ _ => none
  | .cfgScan _ => none
  | .smbWriteQuick sa => some (.quick, .write, sa, 0#8, [])
  | .smbReadQuick sa => some (.quick, .read, sa, 0#8, [])
  | .smbWriteByte sa data => some (.byte, .write, sa, 0#8, [data])
  | .smbReadByte sa => some (.byte, .read, sa, 0#8, [])
  | .smbWriteByteData sa cmd data => some (.byteData, .write, sa, cmd, [data])
  | .smbReadByteData sa cmd => some (.byteData, .read, sa, cmd, [])
  | .smbWriteBlockData sa cmd data => some (.blockData, .write, sa, cmd, data)
  | .smbReadBlockData sa cmd => some (.blockData, .read, sa, cmd, [])

/-- The byte reads of the data window in a record of steps, in order: the port and the byte read. -/
def windowReads (b : Binding) : List Event → List (Port × Byte)
  | [] => []
  | .rd8 p v :: es =>
    if (List.range 8).any fun i => decide (p = b.portOf (winReg i)) then (p, v) :: windowReads b es else windowReads b es
  | .rd32 _ _ :: es => windowReads b es
  | .wr8 _ _ :: es => windowReads b es
  | .wr32 _ _ :: es => windowReads b es
  | .delay _ :: es => windowReads b es
  | .visit _ _ _ :: es => windowReads b es
  | .diag _ :: es => windowReads b es

/-- The byte writes of the data window in a record of steps, in order: the port and the byte written. -/
def windowWrites (b : Binding) : List Event → List (Port × Byte)
  | [] => []
  | .wr8 p v :: es =>
    if (List.range 8).any fun i => decide (p = b.portOf (winReg i)) then (p, v) :: windowWrites b es else windowWrites b es
  | .rd32 _ _ :: es => windowWrites b es
  | .rd8 _ _ :: es => windowWrites b es
  | .wr32 _ _ :: es => windowWrites b es
  | .delay _ :: es => windowWrites b es
  | .visit _ _ _ :: es => windowWrites b es
  | .diag _ :: es => windowWrites b es

/-- The visitor calls in a record of steps, in order. -/
def visits : List Event → List (BitVec 8 × BitVec 5 × BitVec 3)
  | [] => []
  | .visit b d f :: es => (b, d, f) :: visits es
  | .rd8 _ _ :: es => visits es
  | .rd32 _ _ :: es => visits es
  | .wr8 _ _ :: es => visits es
  | .wr32 _ _ :: es => visits es
  | .delay _ :: es => visits es
  | .diag _ :: es => visits es

/-- The triple with linear index n (R67). -/
def tripleAt (n : Nat) : BitVec 8 × BitVec 5 × BitVec 3 :=
  (BitVec.ofNat 8 (n / 256), BitVec.ofNat 5 (n / 8), BitVec.ofNat 3 n)

/-- A visitor's call that returns and whose commands the block accepts (R104 d, R138). -/
def served (v : VisitorCall) : Bool := v.answer.isSome && v.cmds.all CfgAccess.wellFormed

/-- The state of the engine at the end of a pass that began with the operands given: R170 on success. -/
def Engine.succeeded (e : Engine) : Prop := e.st = .done ∧ e.ok = true ∧ e.fail = .noFailure

/-- R170, R226: a pass that ended in failure with the code given, its result empty. -/
def Engine.failedWith (e : Engine) (k : FailCode) : Prop := e.st = .failed ∧ e.ok = false ∧ e.fail = k ∧ e.rlen = 0

/-- The ranges of the engine's registers (10_state.md R27, R28), and what each state of the engine implies of them
(R26, R28, R150, R170). -/
structure Engine.Inv (e : Engine) : Prop where
  wlen_le : e.wlen ≤ 32
  retry_le : e.retry ≤ 10
  poll_le : e.poll ≤ 40
  cnt_le : e.cnt ≤ 32
  got_le : e.got ≤ 32
  rlen_le : e.rlen ≤ 32
  start_fresh : e.st = .busyCheck → e.retry = 0
  recover_budget : e.st = .recover → e.retry < 10
  poll_budget : e.st = .pollComplete → e.poll < 40
  ok_iff : e.ok = true ↔ e.st = .done
  fail_none : e.st ≠ .clearSticky → e.st ≠ .failed → e.fail = .noFailure
  failed_code : e.st = .failed → e.fail ≠ .noFailure
  rlen_zero : e.st ≠ .clearSticky → e.st ≠ .done → e.rlen = 0

/-- The invariant: configuration memory in canonical form (R65, R67), parameters within R10, a bound base that is not
one of the two invalid values and no engine activity before one is bound (R25, R262), the scan position in range (R21),
and the engine's own part. -/
structure State.Inv (s : State) : Prop where
  cfg_wf : Memory.wf s.side.cfg = true
  params_valid : s.binding.params.Valid
  base_ok : s.binding.baseValid = true → s.binding.base ∉ Config.BASE_INVALID
  unbound_idle : s.binding.baseValid = false → s.eng.st = .idle
  idx_le : s.acc.idx.toNat ≤ 65536
  eng : s.eng.Inv

end Sys2Proof.Machine
end

