-- ==== Sys2Proof/Certificates/Slice0/Obligations.lean ====
section
/-! DEFINITION. The statements for the provers: the numbered rules of spec/, file by file, and what the model adds to
them. A docstring says which rule a statement formalises, where it rests on the model's own choice (a log entry), and
where the rule is one that the spec marks as its own decision (D<n> of 92_eei_decisions.md) or as derived. -/

open Sys2Proof Sys2Proof.Machine

/-! ## Commands (30_encoding.md) -/

/-- 30_encoding.md section 3, R102: the command word and its operand lose no bit. The command word
is the spec's own (D2). -/
def Obligations.DecodeOfEncodeIsTheInstruction : Prop :=
  ∀ i : Instr, i.wellFormed = true → decode (encode i) = .ok i

/-- The other direction: every command that decodes has one spelling, and what it decodes to is well-formed.
The command word is the spec's own (D2). -/
def Obligations.EncodeOfDecodeIsTheCommand : Prop :=
  ∀ (c : Command) (i : Instr), decode c = .ok i → i.wellFormed = true ∧ encode i = c

/-- spec/opcode_table.json, R101, R120: a command that decodes matches the row of its own mnemonic and no other, and a
word that matches no row is refused. The table is the spec's own (D2). -/
def Obligations.OpcodeTableDecides : Prop :=
  (∀ (c : Command) (i : Instr), decode c = .ok i →
    ∃ row ∈ opcodeTable, row.mnemonic = i.mnemonic ∧ c.word &&& row.mask = row.pattern ∧
      ∀ other ∈ opcodeTable, c.word &&& other.mask = other.pattern → other = row) ∧
  ∀ c : Command, (∀ row ∈ opcodeTable, c.word &&& row.mask ≠ row.pattern) → ∃ why, decode c = .error why

/-- 95_test_vectors.md: command words of the vectors decode to the operations they name. -/
def Obligations.VectorWordsDecode : Prop :=
  decode { word := 0x00FFFFFF#32 } = .ok (.cfgRd8 0xFF 0x1F 7 0xFF) ∧
  decode { word := 0x01000874#32 } = .ok (.cfgRd16 0 1 0 0x74) ∧
  decode { word := 0x06001010#32, wdata := some 0x0000E001#32 } = .ok (.cfgWr32 0 2 0 0x10 0x0000E001) ∧
  decode { word := 0x08000000#32, visitor := some [] } = .ok (.cfgScan []) ∧
  decode { word := 0x11690000#32 } = .ok (.smbReadQuick 0x69) ∧
  decode { word := 0x12690001#32, wbuf := [0x5A#8] } = .ok (.smbWriteByte 0x69 0x5A) ∧
  decode { word := 0x15690300#32 } = .ok (.smbReadByteData 0x69 0x03) ∧
  decode { word := 0x16690001#32, wbuf := [0x41#8] } = .ok (.smbWriteBlockData 0x69 0 [0x41]) ∧
  decode { word := 0x17690000#32 } = .ok (.smbReadBlockData 0x69 0)

/-- R104: the refused commands. (a) Opcodes outside the table. (b) A command that decodes has its must-be-zero fields
zero, `wlen` in the opcode's range, `wbuf` of `wlen` bytes and `wdata` no wider than the operation; an opcode's command
with any other value of these is refused, since decoding answers an instruction or a refusal. (c) The operands have
their widths by type. (d) It stays in the data window. (e) An SMBus operation with no base bound, and (f) any operation
during a pass, is refused. R104 rests on the spec's decisions D2, D12, D22 and D29. -/
def Obligations.RefusedCommands : Prop :=
  (∀ c : Command, (opcodeOf c.word).toNat ∉ [0, 1, 2, 4, 5, 6, 8, 16, 17, 18, 19, 20, 21, 22, 23] →
    decode c = .error .unknownOpcode) ∧
  (∀ (c : Command) (i : Instr), decode c = .ok i →
    ((opcodeOf c.word).toNat = 8 → c.word = 0x08000000#32) ∧
    (16 ≤ (opcodeOf c.word).toNat →
      c.word.getLsbD 23 = false ∧ c.word.getLsbD 7 = false ∧ c.word.getLsbD 6 = false ∧
      ((opcodeOf c.word).toNat ≤ 19 → cmdOf c.word = 0#8) ∧
      c.wbuf.length = (wlenOf c.word).toNat ∧
      ((opcodeOf c.word).toNat ∈ [16, 17, 19, 21, 23] → wlenOf c.word = 0#6) ∧
      ((opcodeOf c.word).toNat ∈ [18, 20] → wlenOf c.word = 1#6) ∧
      ((opcodeOf c.word).toNat = 22 → 1 ≤ (wlenOf c.word).toNat ∧ (wlenOf c.word).toNat ≤ 32)) ∧
    ((opcodeOf c.word).toNat = 4 → ∃ v, c.wdata = some v ∧ v.toNat < 256) ∧
    ((opcodeOf c.word).toNat = 5 → ∃ v, c.wdata = some v ∧ v.toNat < 65536) ∧
    ((opcodeOf c.word).toNat ∈ [1, 5] → regOf c.word &&& 3#8 ≠ 3#8) ∧
    ((opcodeOf c.word).toNat ∈ [2, 6] → regOf c.word &&& 3#8 = 0#8)) ∧
  (∀ (i : Instr) (s : State), (smbOperands i).isSome = true → i.wellFormed = true → CfgReady s →
    s.binding.baseValid = false → exec i s = .refused .noBase) ∧
  (∀ (i : Instr) (s : State), i.wellFormed = true → s.eng.st.accepting = false →
    exec i s = .refused .operationActive)

/-- What exec answers for a term that decoding never gives: the refusals of R104 (b) and (d) (D12, D22). -/
def Obligations.IllFormedTermsAreRefused : Prop :=
  ∀ (i : Instr) (s : State), i.wellFormed = false → CfgReady s →
    exec i s = .refused .leavesWindow ∨ exec i s = .refused .blockLength

/-! ## Steps, binding, reset -/

/-- A step with a command waiting runs the instruction it decodes to, on the state without that command; and the
instruction of a table word placed by withFetchWord is the one the next step runs. How commands reach the block is the model's
choice (log entries 1 and 10). -/
def Obligations.StepRunsTheDecodedCommand : Prop :=
  (∀ (s : State) (c : Command) (rest : List ClientInput) (i : Instr), CfgReady s → s.inbox = .command c :: rest →
    decode c = .ok i → step s = exec i (s.setInbox rest)) ∧
  (∀ (s : State) (nbits w : Nat) (i : Instr), CfgReady s → decodeTableWord nbits w = some i →
    step (s.withFetchWord nbits w) = exec i s)

/-- R13: a step of the block is one port access, one delay or one visitor call. A block step that makes the next item
of an operation's plan adds exactly one such event to the record (and at most a diagnostic after it). What an operation
still has to do is held in the model's own `InFlight` (log entry 1). -/
def Obligations.ABlockStepIsOneStep : Prop :=
  ∀ (r q : InFlight) (a : BlockAct) (rest : List Todo), r.todo = .act a :: rest → blockStep r = .next q →
    ∃ (e : Event) (d : List Event), q.state.side.trace = r.state.side.trace ++ e :: d ∧ e.isStep = true ∧
      (d = [] ∨ ∃ k, d = [.diag k])

/-- R13, R103: what `exec` answers is what the block's own steps come to: taken up and then made one at a time, the
operation is at its end, in the state `exec` gives, after exactly as many steps as `exec` adds to the record; and where
`exec` faults or refuses, so does the operation as it is taken up or at one of its steps. -/
def Obligations.AnOperationIsItsBlockSteps : Prop :=
  (∀ (i : Instr) (s t : State), exec i s = .next t →
    ∃ r, beginOperation i s = .next r ∧ r.todo ≠ [] ∧
      blockSteps (stepCount (newEvents s t)) r = .next { state := t, todo := [] }) ∧
  (∀ (i : Instr) (s : State) (e : Fault), exec i s = .fault e →
    ∃ r n, beginOperation i s = .next r ∧ blockSteps n r = .fault e) ∧
  (∀ (i : Instr) (s : State) (e : Refusal), exec i s = .refused e →
    beginOperation i s = .refused e ∨ ∃ r n, beginOperation i s = .next r ∧ blockSteps n r = .refused e)

/-- R13: a step of the model that takes a command is that command's steps of the block, made from between operations.
How large a step of the model is, is its own choice (log entry 1). -/
def Obligations.AStepIsTheBlockStepsOfItsCommand : Prop :=
  ∀ (s t : State) (c : Command) (rest : List ClientInput), CfgReady s → s.inbox = .command c :: rest →
    step s = .next t →
    1 ≤ stepCount (newEvents s t) ∧
    blockSteps (stepCount (newEvents s t)) { state := s, todo := [] } = .next { state := t, todo := [] }

/-- R104, R120: a step with a command that does not decode refuses it, by the reason decoding gives.
The command word is the spec's own (D2). -/
def Obligations.StepRefusesWhatDoesNotDecode : Prop :=
  ∀ (s : State) (c : Command) (rest : List ClientInput) (why : Reject), CfgReady s → s.inbox = .command c :: rest →
    decode c = .error why → step s = .refused (.illegalCommand why)

/-- R26 (Idle: nothing), R171: with nothing sent by the client, nothing happens. That such a step is a step at all is
the model's choice (log entry 1). -/
def Obligations.NothingHappensWithoutACommand : Prop :=
  ∀ s : State, CfgReady s → s.inbox = [] → step s = .next s

/-- R171: Done and Failed hold the result of the pass. With nothing sent by the client nothing happens in them, and a
step that changes anything of the engine is one that accepts an SMBus command: there is no retry of the block's own. -/
def Obligations.AResultIsHeldUntilTheNextSmbusCommand : Prop :=
  ∀ s : State, (s.eng.st = .done ∨ s.eng.st = .failed) → s.binding.baseValid = true →
    (s.inbox = [] → step s = .next s) ∧
    ∀ t : State, step s = .next t →
      t.eng = s.eng ∨
      ∃ (c : Command) (rest : List ClientInput) (i : Instr), s.inbox = .command c :: rest ∧ decode c = .ok i ∧
        (smbOperands i).isSome = true

/-- R262: the bind step. The two invalid values are refused, a second bind is refused, and any other value is taken:
`BASE`, `BASE_VALID` and `st` are set, no port is accessed and nothing else changes. The bind step is the spec's own
(D27, D29). -/
def Obligations.BindStep : Prop :=
  ∀ (s : State) (b : Port) (rest : List ClientInput), CfgReady s → s.inbox = .bind b :: rest →
    (s.binding.baseValid = true → step s = .refused .bindTwice) ∧
    (s.binding.baseValid = false → b = 0x0000#16 ∨ b = 0xFFFF#16 → step s = .refused .bindInvalid) ∧
    (s.binding.baseValid = false → b ≠ 0x0000#16 → b ≠ 0xFFFF#16 →
      step s = .next { s with
        binding := { s.binding with base := b, baseValid := true }
        eng := { s.eng with st := .idle }
        inbox := rest })

/-- R260, R46: what the spec gives for reset, and "no hardware touched". That reset is the moment of construction
is the spec's own decision (D27). The other registers' values are the model's own (log entry 3) and are not part of
this statement. -/
def Obligations.ResetState : Prop :=
  State.reset.eng.st = .idle ∧ State.reset.binding.baseValid = false ∧ State.reset.eng.ok = false ∧
  State.reset.eng.fail = .noFailure ∧ State.reset.eng.rlen = 0 ∧ State.reset.side.trace = []

/-- The invariant of Safety.lean holds at reset. Its clauses on unspecified registers rest on log entry 3. -/
def Obligations.InvariantHoldsAtReset : Prop := State.reset.Inv

/-- Every step keeps the invariant: canonical configuration memory, parameters within R10, a legal base, an idle engine
while none is bound, the ranges of R21, R27 and R28, and the results R170 gives. The registers and their ranges are
the spec's own (D4). -/
def Obligations.StepKeepsTheInvariant : Prop :=
  ∀ s t : State, s.Inv → step s = .next t → t.Inv

/-- R25, R262, which rest on D27: once bound, `BASE` and `BASE_VALID` never change. That the parameter record and the
platform never change is the model's choice (log entries 2 and 8). -/
def Obligations.TheBoundBaseNeverChanges : Prop :=
  ∀ s t : State, step s = .next t →
    t.binding.params = s.binding.params ∧ t.binding.platform = s.binding.platform ∧
    (s.binding.baseValid = true → t.binding = s.binding)

/-- R63: whatever the client sends and the environment does, a step only adds to the record of steps, and the port
accesses it adds are at `0xCF8` (32-bit writes), in `0xCFC..0xCFF` (bytes; 32 bits at `0xCFC` only) and at the ports of
the registers and window bytes the engine accesses (bytes): those of R30's table, R63's count of them being another
(log entry 11). -/
def Obligations.OnlyPermittedPortsAreTouched : Prop :=
  ∀ s t : State, step s = .next t →
    ∃ es, t.side.trace = s.side.trace ++ es ∧ ∀ e ∈ es, allowedEvent t.binding e

/-- R46 ("a model must not read one before a command writes it"), R103: no operation reads a working register that its
own acceptance has not written. Two states that agree on the ports' far side, the binding and the inputs, and differ
in any other way, show the same accesses, leave the same far side and give the client the same result (R46 rests on
D27, R103 on D28). -/
def Obligations.NoStaleWorkingRegisterIsRead : Prop :=
  ∀ (i : Instr) (s s' : State), CfgReady s → CfgReady s' → s.binding = s'.binding → s.side = s'.side →
    s.inbox = s'.inbox →
    match exec i s, exec i s' with
    | .next t, .next t' =>
      t.side = t'.side ∧ t.binding = t'.binding ∧ t.inbox = t'.inbox ∧
      ((smbOperands i).isSome = true →
        t.eng.ok = t'.eng.ok ∧ t.eng.fail = t'.eng.fail ∧ t.eng.rlen = t'.eng.rlen ∧
        t.eng.rbuf.toList.take t.eng.rlen = t'.eng.rbuf.toList.take t'.eng.rlen) ∧
      (∀ b d f r, i = .cfgRd8 b d f r ∨ i = .cfgRd16 b d f r ∨ i = .cfgRd32 b d f r → t.acc.rdata = t'.acc.rdata) ∧
      (∀ v, i = .cfgScan v → t.acc.found = t'.acc.found ∧ t.acc.idx = t'.acc.idx)
    | .fault e, .fault e' => e = e'
    | .refused e, .refused e' => e = e'
    | _, _ => False

/-! ## Words and bytes the block forms -/

/-- R66, R110: the configuration address word, field by field and as a sum; bits 30:24 and 1:0 are 0, bit 31 is 1;
the two low bits of the register number select the data lane. -/
def Obligations.ConfigurationAddressWord : Prop :=
  ∀ (b : BitVec 8) (d : BitVec 5) (f : BitVec 3) (r : Byte),
    cfgAddr b d f r = 1#1 ++ 0#7 ++ b ++ d ++ f ++ r.extractLsb' 2 6 ++ 0#2 ∧
    (cfgAddr b d f r).toNat = 0x80000000 + b.toNat * 2 ^ 16 + d.toNat * 2 ^ 11 + f.toNat * 2 ^ 8 + (r &&& 0xFC#8).toNat ∧
    dataPort r = 0xCFC#16 + (r.extractLsb' 0 2).setWidth 16

/-- R67: the linear index, its inverse, its order, and the configuration byte it names (derived from R66 by the
spec). -/
def Obligations.LinearIndex : Prop :=
  (∀ (b : BitVec 8) (d : BitVec 5) (f : BitVec 3),
    (lin b d f).toNat = b.toNat * 256 + d.toNat * 8 + f.toNat ∧
    lin b d f = b ++ d ++ f ∧
    tripleAt (lin b d f).toNat = (b, d, f)) ∧
  (∀ (b b' : BitVec 8) (d d' : BitVec 5) (f f' : BitVec 3),
    lin b d f < lin b' d' f' ↔ b < b' ∨ (b = b' ∧ (d < d' ∨ (d = d' ∧ f < f')))) ∧
  (∀ (b : BitVec 8) (d : BitVec 5) (f : BitVec 3) (r : Byte),
    cfgAddr b d f r = 0x80000000#32 ||| ((lin b d f).setWidth 32 <<< 8) ||| (r &&& 0xFC#8).setWidth 32 ∧
    cfgCell (lin b d f) r = (lin b d f).toNat * 256 + r.toNat)

/-- R111, R114, R116: the address byte (sa in bits 7:1, the direction in bit 0; its place is D8's choice), the control
byte written back (only `CNT_MSTO_EN` cleared: D16) and the count byte (D19). -/
def Obligations.BytesTheEngineForms : Prop :=
  (∀ sa : BitVec 7, addrByte sa .write = sa ++ 0#1 ∧ addrByte sa .read = sa ++ 1#1) ∧
  (∀ (p : Params) (c : Byte), controlWriteback p c &&& p.cntMstoEn = 0#8 ∧
    controlWriteback p c &&& ~~~p.cntMstoEn = c &&& ~~~p.cntMstoEn) ∧
  (∀ n : Nat, 1 ≤ n → n ≤ 32 → (countByte n).toNat = n ∧ (countByte n).extractLsb' 6 2 = 0#2)

/-! ## The configuration accessor (40_pci_config.md) -/

/-- R132: `CFG_RD8`, on hardware. Its encoding; the address word to `0xCF8`, one byte read at the lane's port; the
byte routed is `cfg[Lin][reg]` of R68 (a draw where nothing is known of it: log entry 5); nothing else
changes. The routing is the spec's own (D13). -/
def Obligations.CfgRd8Result : Prop :=
  ∀ (b : BitVec 8) (d : BitVec 5) (f : BitVec 3) (r : Byte),
    decode { word := 0x00#8 ++ b ++ d ++ f ++ r } = .ok (.cfgRd8 b d f r) ∧
    ∀ s : State, CfgReady s → s.binding.platform = .hardware →
      let y := envStep (envStep s.side)
      let v := (Memory.read y.cfg ((lin b d f).toNat * 256 + r.toNat)).getD (Config.portDraw s.side.draws)
      exec (.cfgRd8 b d f r) s = .next { s with
        acc := { s.acc with bus := b, dev := d, fn := f, reg := r, rdata := v.setWidth 32 }
        side := { y with
          configAddress := cfgAddr b d f r
          draws := s.side.draws + 1
          trace := s.side.trace ++ [.wr32 0xCF8#16 (cfgAddr b d f r), .rd8 (0xCFC#16 + (r &&& 3#8).setWidth 16) v] } }

/-- R133: `CFG_RD16`, on hardware: low byte at the lower lane first, one address write for both, composed
little-endian; the environment may change between the two reads (D10, D13; log entry 5). -/
def Obligations.CfgRd16Result : Prop :=
  ∀ (b : BitVec 8) (d : BitVec 5) (f : BitVec 3) (r : Byte), r &&& 3#8 ≠ 3#8 →
    decode { word := 0x01#8 ++ b ++ d ++ f ++ r } = .ok (.cfgRd16 b d f r) ∧
    ∀ s : State, CfgReady s → s.binding.platform = .hardware →
      let y := envStep (envStep s.side)
      let z := envStep y
      let a := (lin b d f).toNat * 256 + r.toNat
      let p := 0xCFC#16 + (r &&& 3#8).setWidth 16
      let lo := (Memory.read y.cfg a).getD (Config.portDraw s.side.draws)
      let hi := (Memory.read z.cfg (a + 1)).getD (Config.portDraw (s.side.draws + 1))
      exec (.cfgRd16 b d f r) s = .next { s with
        acc := { s.acc with bus := b, dev := d, fn := f, reg := r, rdata := (hi ++ lo).setWidth 32 }
        side := { z with
          configAddress := cfgAddr b d f r
          draws := s.side.draws + 2
          trace := s.side.trace ++ [.wr32 0xCF8#16 (cfgAddr b d f r), .rd8 p lo, .rd8 (p + 1#16) hi] } }

/-- R134: `CFG_RD32`, on hardware: one 32-bit read at `0xCFC`, the byte at register reg in bits 7:0
(D11, D12, D13; log entry 5). -/
def Obligations.CfgRd32Result : Prop :=
  ∀ (b : BitVec 8) (d : BitVec 5) (f : BitVec 3) (r : Byte), r &&& 3#8 = 0#8 →
    decode { word := 0x02#8 ++ b ++ d ++ f ++ r } = .ok (.cfgRd32 b d f r) ∧
    ∀ s : State, CfgReady s → s.binding.platform = .hardware →
      let y := envStep (envStep s.side)
      let a := (lin b d f).toNat * 256 + r.toNat
      let byte := fun j => (Memory.read y.cfg (a + j)).getD (Config.portDraw (s.side.draws + j))
      let v := byte 3 ++ byte 2 ++ byte 1 ++ byte 0
      exec (.cfgRd32 b d f r) s = .next { s with
        acc := { s.acc with bus := b, dev := d, fn := f, reg := r, rdata := v }
        side := { y with
          configAddress := cfgAddr b d f r
          draws := s.side.draws + 4
          trace := s.side.trace ++ [.wr32 0xCF8#16 (cfgAddr b d f r), .rd32 0xCFC#16 v] } }

/-- R135: `CFG_WR8`, on hardware: every other configuration byte is as it was (see `Memory.read_write_other`), and no
other register changes. The routing is the spec's own (D13); that a byte written is the byte held is log entry 6. -/
def Obligations.CfgWr8Result : Prop :=
  ∀ (b : BitVec 8) (d : BitVec 5) (f : BitVec 3) (r : Byte) (v : Byte),
    decode { word := 0x04#8 ++ b ++ d ++ f ++ r, wdata := some (v.setWidth 32) } = .ok (.cfgWr8 b d f r v) ∧
    ∀ s : State, CfgReady s → s.binding.platform = .hardware →
      let y := envStep (envStep s.side)
      exec (.cfgWr8 b d f r v) s = .next { s with
        acc := { s.acc with bus := b, dev := d, fn := f, reg := r, wdata := v.setWidth 32 }
        side := { y with
          configAddress := cfgAddr b d f r
          cfg := Memory.write y.cfg ((lin b d f).toNat * 256 + r.toNat) v
          trace := s.side.trace ++ [.wr32 0xCF8#16 (cfgAddr b d f r), .wr8 (0xCFC#16 + (r &&& 3#8).setWidth 16) v] } }

/-- R136: `CFG_WR16`, on hardware: low byte at the lower lane first; the environment may act between the two writes
(D10, D13; log entry 6). -/
def Obligations.CfgWr16Result : Prop :=
  ∀ (b : BitVec 8) (d : BitVec 5) (f : BitVec 3) (r : Byte) (v : BitVec 16), r &&& 3#8 ≠ 3#8 →
    decode { word := 0x05#8 ++ b ++ d ++ f ++ r, wdata := some (v.setWidth 32) } = .ok (.cfgWr16 b d f r v) ∧
    ∀ s : State, CfgReady s → s.binding.platform = .hardware →
      let y := envStep (envStep s.side)
      let a := (lin b d f).toNat * 256 + r.toNat
      let p := 0xCFC#16 + (r &&& 3#8).setWidth 16
      let z := envStep { y with cfg := Memory.write y.cfg a (v.extractLsb' 0 8) }
      exec (.cfgWr16 b d f r v) s = .next { s with
        acc := { s.acc with bus := b, dev := d, fn := f, reg := r, wdata := v.setWidth 32 }
        side := { z with
          configAddress := cfgAddr b d f r
          cfg := Memory.write z.cfg (a + 1) (v.extractLsb' 8 8)
          trace := s.side.trace ++ [.wr32 0xCF8#16 (cfgAddr b d f r), .wr8 p (v.extractLsb' 0 8),
            .wr8 (p + 1#16) (v.extractLsb' 8 8)] } }

/-- R137: `CFG_WR32`, on hardware: one 32-bit write at `0xCFC`, bits 8j+7:8j to the byte at reg + j (D11, D12,
D13; log entry 6). -/
def Obligations.CfgWr32Result : Prop :=
  ∀ (b : BitVec 8) (d : BitVec 5) (f : BitVec 3) (r : Byte) (v : Dword), r &&& 3#8 = 0#8 →
    decode { word := 0x06#8 ++ b ++ d ++ f ++ r, wdata := some v } = .ok (.cfgWr32 b d f r v) ∧
    ∀ s : State, CfgReady s → s.binding.platform = .hardware →
      let y := envStep (envStep s.side)
      let a := (lin b d f).toNat * 256 + r.toNat
      exec (.cfgWr32 b d f r v) s = .next { s with
        acc := { s.acc with bus := b, dev := d, fn := f, reg := r, wdata := v }
        side := { y with
          configAddress := cfgAddr b d f r
          cfg := Memory.write (Memory.write (Memory.write (Memory.write y.cfg a (v.extractLsb' 0 8)) (a + 1)
            (v.extractLsb' 8 8)) (a + 2) (v.extractLsb' 16 8)) (a + 3) (v.extractLsb' 24 8)
          trace := s.side.trace ++ [.wr32 0xCF8#16 (cfgAddr b d f r), .wr32 0xCFC#16 v] } }

/-- R70: byte-order consistency, on hardware whose environment changes nothing on its own. A dword written at an
aligned register is read back whole, as its bytes at the four registers, and as the words at the first three (D10, D11,
D13; log entry 6). -/
def Obligations.ConfigurationDataIsLittleEndian : Prop :=
  ∀ (s : State) (b : BitVec 8) (d : BitVec 5) (f : BitVec 3) (r : Byte) (v : Dword), r &&& 3#8 = 0#8 →
    CfgReady s → s.binding.platform = .hardware → s.side.Passive →
    ∃ t, exec (.cfgWr32 b d f r v) s = .next t ∧
      (∃ u, exec (.cfgRd32 b d f r) t = .next u ∧ u.acc.rdata = v) ∧
      (∀ j : Nat, j < 4 → ∃ u, exec (.cfgRd8 b d f (r + BitVec.ofNat 8 j)) t = .next u ∧
        u.acc.rdata = (v.extractLsb' (8 * j) 8).setWidth 32) ∧
      (∀ j : Nat, j < 3 → ∃ u, exec (.cfgRd16 b d f (r + BitVec.ofNat 8 j)) t = .next u ∧
        u.acc.rdata = (v.extractLsb' (8 * j) 16).setWidth 32)

/-- R139: the port accesses of the seven configuration operations: 2, or 3 for the 16-bit ones, and none of a scan's
own; and on hardware the address latch then holds the operation's address word, with bit 31 set
(derived by the spec). -/
def Obligations.ConfigurationPortAccessCounts : Prop :=
  (∀ (s : State) (a : CfgAccess), a.wellFormed = true →
    portCount (newEvents s (runAccess s a)) =
      (match a with
        | .rd16 _ _ _ _ => 3
        | .wr16 _ _ _ _ _ => 3
        | _ => 2) ∧
    (s.binding.platform = .hardware →
      (runAccess s a).side.configAddress =
        cfgAddr (runAccess s a).acc.bus (runAccess s a).acc.dev (runAccess s a).acc.fn (runAccess s a).acc.reg ∧
      (runAccess s a).side.configAddress.getLsbD 31 = true)) ∧
  (∀ (s : State) (visitor : List VisitorCall), CfgReady s → (∀ v ∈ visitor, v.cmds = [] ∧ v.answer.isSome = true) →
    ∃ t, exec (.cfgScan visitor) s = .next t ∧ portCount (newEvents s t) = 0)

/-- R138: the scan stops the first time the visitor returns 1, at call n: `x[found]` = 1, `x[idx]` = n, and the
visitor has been called with the triples of linear index 0 to n in ascending order. The visitor may issue
configuration commands; the engine, the binding and the inputs are not touched. The scan's shape is the spec's own
(D31), the visitor as a list of calls the model's (log entry 9). -/
def Obligations.ScanStopsAtTheFirstHit : Prop :=
  ∀ (s : State) (before : List VisitorCall) (hit : VisitorCall) (after : List VisitorCall), CfgReady s →
    (∀ v ∈ before, served v = true ∧ v.answer = some false) → served hit = true → hit.answer = some true →
    before.length < 65536 →
    ∃ t, exec (.cfgScan (before ++ hit :: after)) s = .next t ∧
      t.acc.found = true ∧ t.acc.idx.toNat = before.length ∧
      visits (newEvents s t) = (List.range (before.length + 1)).map tripleAt ∧
      (hit.cmds = [] → (t.acc.bus, t.acc.dev, t.acc.fn) = tripleAt before.length) ∧
      t.eng = s.eng ∧ t.binding = s.binding ∧ t.inbox = s.inbox

/-- R138: a visitor that never returns 1 is called exactly 65536 times, in ascending order; `x[found]` = 0 and `x[idx]`
= 65536: the counter does not wrap (D31; log entry 9). Where the visitor issues nothing, the accessor is left at the last
triple, with `x[reg]` = 0 as the command word has it (R103), the far side is what the environment has made of it with
one move before each of the 65536 calls (R13, R80; log entry 4), and nothing else changes. -/
def Obligations.ScanVisitsEveryFunctionOnce : Prop :=
  ∀ (s : State) (visitor : List VisitorCall), CfgReady s →
    (∀ v ∈ visitor, served v = true ∧ v.answer = some false) →
    ∃ t, exec (.cfgScan visitor) s = .next t ∧ t.acc.found = false ∧ t.acc.idx.toNat = 65536 ∧
      visits (newEvents s t) = (List.range 65536).map tripleAt ∧
      t.eng = s.eng ∧ t.binding = s.binding ∧ t.inbox = s.inbox ∧
      ((∀ v ∈ visitor, v.cmds = []) →
        t = { s with
          acc := { s.acc with bus := 255#8, dev := 31#5, fn := 7#3, reg := 0#8, idx := 65536#17, found := false }
          side := { envStep^[65536] s.side with trace := t.side.trace } })

/-- 93_implementation_defined.md U29 and R104 (d) in a scan: a call that never returns leaves the scan stuck, and a
visitor's command outside the data window is refused. That a call which never returns is a fault is the model's choice
(log entry 9). -/
def Obligations.ScanStopsWithItsVisitor : Prop :=
  ∀ (s : State) (before : List VisitorCall) (bad : VisitorCall) (after : List VisitorCall), CfgReady s →
    (∀ v ∈ before, served v = true ∧ v.answer = some false) → before.length < 65536 →
    (bad.cmds.all CfgAccess.wellFormed = true → bad.answer = none →
      exec (.cfgScan (before ++ bad :: after)) s = .fault .visitorNeverReturns) ∧
    (bad.cmds.all CfgAccess.wellFormed = false →
      exec (.cfgScan (before ++ bad :: after)) s = .refused .leavesWindow)

/-- R64: the stub platform, on which reads return zero and writes are dropped: every configuration read yields 0, no
operation changes the latch, and every SMBus pass ends Failed with code 5 after 40 status reads, the rest of the far
side changing only as the environment changes it (D39). -/
def Obligations.StubPlatform : Prop :=
  (∀ (s : State) (b : BitVec 8) (d : BitVec 5) (f : BitVec 3) (r : Byte), CfgReady s → s.binding.platform = .stub →
    (∃ t, exec (.cfgRd8 b d f r) s = .next t ∧ t.acc.rdata = 0#32 ∧ t.side.configAddress = s.side.configAddress) ∧
    (r &&& 3#8 ≠ 3#8 →
      ∃ t, exec (.cfgRd16 b d f r) s = .next t ∧ t.acc.rdata = 0#32 ∧ t.side.configAddress = s.side.configAddress) ∧
    (r &&& 3#8 = 0#8 →
      ∃ t, exec (.cfgRd32 b d f r) s = .next t ∧ t.acc.rdata = 0#32 ∧ t.side.configAddress = s.side.configAddress)) ∧
  (∀ (s : State) (a : CfgAccess), s.binding.platform = .stub → s.side.Passive →
    (runAccess s a).side.cfg = s.side.cfg ∧ (runAccess s a).side.configAddress = s.side.configAddress) ∧
  (∀ (i : Instr) (s : State), (smbOperands i).isSome = true → i.wellFormed = true → SmbReady s →
    s.binding.platform = .stub →
    ∃ t, exec i s = .next t ∧ t.eng.failedWith .transferTimeout ∧ t.eng.poll = 40 ∧
      (s.side.Passive → t.side.regs = s.side.regs))

/-! ## The SMBus engine (41_smbus_fsm.md) -/

/-- R150: the transition relation, with the conditions in terms of the values the phase has latched. While a pass is
active a step is one such transition; Idle, Done and Failed are left only by an accepted SMBus command, which begins
its pass in BusyCheck; and configuration operations do not touch `st`. The relation rests on the spec's
decisions D15, D17, D18, D21, D22, D23 and D37. That a step of the model during a pass is one transition is the model's
choice (log entry 1), its premise that the register file's ports are clear is log entry 7. -/
def Obligations.EngineTransitions : Prop :=
  (∀ s : State,
    let t := enginePhase s
    let P := s.binding.params
    match s.eng.st with
    | .idle => t = s
    | .done => t = s
    | .failed => t = s
    | .busyCheck => t.eng.st = if isBusy P t.eng.c then .recover else .clearFlags
    | .recover =>
      t.eng.retry = s.eng.retry + 1 ∧
      (if isBusy P t.eng.c then
        if t.eng.retry = 10 then t.eng.st = .clearSticky ∧ t.eng.fail = .busContention else t.eng.st = .recover
      else t.eng.st = .clearFlags)
    | .clearFlags => t.eng.st = .startTransfer
    | .startTransfer => t.eng.st = .pollComplete ∧ t.eng.poll = 0
    | .pollComplete =>
      t.eng.poll = s.eng.poll + 1 ∧
      (if isError P t.eng.s then t.eng.st = .clearSticky ∧ t.eng.fail = .transferFailure
      else if isDone P t.eng.s ∨ (s.eng.type = .blockData ∧ isBlockFin P t.eng.s) then
        t.eng.fail = s.eng.fail ∧
        t.eng.st =
          (match s.eng.type, s.eng.rw with
            | .blockData, .read => .blockReadLoop
            | .blockData, .write => if s.eng.got < s.eng.wlen then .blockWriteLoop else .clearSticky
            | _, _ => .clearSticky)
      else if t.eng.poll = 40 then t.eng.st = .clearSticky ∧ t.eng.fail = .transferTimeout
      else t.eng.st = .pollComplete ∧ t.eng.fail = s.eng.fail)
    | .blockReadLoop =>
      t.eng.st = if t.eng.got < t.eng.cnt then .pollComplete else .clearSticky
    | .blockWriteLoop => t.eng.st = .pollComplete
    | .clearSticky => t.eng.st = if s.eng.fail = .noFailure then .done else .failed) ∧
  (∀ s : State, s.eng.st.accepting = false → s.binding.portsClear = true → step s = .next (enginePhase s)) ∧
  (∀ (i : Instr) (s : State) (t : Xfer) (rw : Dir) (sa : BitVec 7) (cmd : Byte) (data : List Byte),
    smbOperands i = some (t, rw, sa, cmd, data) → i.wellFormed = true → SmbReady s →
    exec i s = .next (runPass (latchSmb s t rw sa cmd data)) ∧ (latchSmb s t rw sa cmd data).eng.st = .busyCheck) ∧
  (∀ (i : Instr) (s t : State), smbOperands i = none → exec i s = .next t → t.eng = s.eng)

/-- R151: BusyCheck reads the control register once, writes nothing, and goes on to ClearFlags or to Recover by the two
busy bits of the value read. -/
def Obligations.BusyCheckReadsTheControlRegister : Prop :=
  ∀ s : State,
    let t := busyCheck s
    newEvents s t = [.rd8 (s.binding.portOf .cnt) t.eng.c] ∧
    t.eng = { s.eng with
      c := t.eng.c
      st := if t.eng.c &&& (s.binding.params.cntHostBusy ||| s.binding.params.cntSlaveBusy) = 0#8 then .clearFlags
        else .recover } ∧
    t.acc = s.acc ∧ t.binding = s.binding ∧ t.inbox = s.inbox

/-- R157 to R159: what StartTransfer writes, in order, for each of the eight operations: the address byte, the row of
R158's table (the spec's own: D8, D19, D20), the start byte. -/
def Obligations.StartTransferWrites : Prop :=
  ∀ s : State,
    let port := s.binding.portOf
    let e := s.eng
    newEvents s (startTransfer s) =
      [.wr8 (port .addr) (addrByte e.sa e.rw)] ++
      (match e.type, e.rw with
        | .quick, _ => []
        | .byte, .read => []
        | .byte, .write => [.wr8 (port .cmd) e.wbuf[0]]
        | .byteData, .read => [.wr8 (port .cmd) e.cmd]
        | .byteData, .write => [.wr8 (port .cmd) e.cmd, .wr8 (port (.byte 0)) e.wbuf[0]]
        | .blockData, .read => [.wr8 (port .cmd) e.cmd]
        | .blockData, .write =>
          [.wr8 (port .cmd) e.cmd, .wr8 (port .count) (BitVec.ofNat 8 e.wlen)] ++
          (List.finRange 8).filterMap fun i =>
            if i.val < e.wlen then some (.wr8 (port (.byte i)) (e.wbuf[i.val])) else none) ++
      [.wr8 (port .hostcnt)
        (s.binding.params.hcStart |||
          (match e.type with
            | .quick => s.binding.params.typeQuick
            | .byte => s.binding.params.typeByte
            | .byteData => s.binding.params.typeByteData
            | .blockData => s.binding.params.typeBlock))] ∧
    (startTransfer s).eng.poll = 0 ∧ (startTransfer s).eng.st = .pollComplete

/-- R173, R170: every pass of the eight SMBus operations ends, in Done or Failed, whatever the environment answers;
its first step reads the control register, its last is the all-ones write to the status register, and it makes at most
216 port accesses (derived by the spec from R151 to R170). -/
def Obligations.EveryPassEnds : Prop :=
  ∀ (i : Instr) (s : State), (smbOperands i).isSome = true → i.wellFormed = true → SmbReady s →
    ∃ t, exec i s = .next t ∧ (t.eng.st = .done ∨ t.eng.st = .failed) ∧
      (∃ v es, newEvents s t =
        .rd8 (s.binding.portOf .cnt) v :: (es ++ [.wr8 (s.binding.portOf .sts) 0xFF#8])) ∧
      portCount (newEvents s t) ≤ 216

/-- R170, R179, R220, R226, R228: the result of a pass. It is Done with `x[ok]` = 1 and no failure, and then no
diagnostic; or Failed with `x[ok]` = 0, one of the codes 3, 4, 5, an empty result and that code's text once on the side
channel. The operand latches hold the command's operands; the frame: accessor, binding, inputs and the address latch
are unchanged (D23, D24, D25). -/
def Obligations.ResultOfAPass : Prop :=
  ∀ (i : Instr) (s t : State) (ty : Xfer) (rw : Dir) (sa : BitVec 7) (cmd : Byte) (data : List Byte),
    smbOperands i = some (ty, rw, sa, cmd, data) → i.wellFormed = true → SmbReady s → exec i s = .next t →
    (t.eng.succeeded ∨ t.eng.failedWith .busContention ∨ t.eng.failedWith .transferFailure ∨
      t.eng.failedWith .transferTimeout) ∧
    (newEvents s t).filter (fun e => match e with | .diag _ => true | _ => false) =
      (match t.eng.fail with
        | .noFailure => []
        | .busContention => [.diag .hostOrSlaveBusy]
        | .transferFailure => [.diag .transferFailed]
        | .transferTimeout => [.diag .transferTimeout]) ∧
    t.eng.type = ty ∧ t.eng.rw = rw ∧ t.eng.sa = sa ∧ t.eng.cmd = cmd ∧ t.eng.wlen = data.length ∧
    t.acc = s.acc ∧ t.binding = s.binding ∧ t.inbox = s.inbox ∧ t.side.configAddress = s.side.configAddress

/-- R30, R43, R76: in an environment that changes nothing on its own, a pass leaves the configuration space and the
six registers the engine never accesses as they were (D40; the six are those of R30's table: log entry 11). -/
def Obligations.APassLeavesTheRestAlone : Prop :=
  ∀ (i : Instr) (s t : State), (smbOperands i).isSome = true → SmbReady s → s.binding.params.Valid → s.side.Passive →
    exec i s = .next t →
    t.side.cfg = s.side.cfg ∧ t.side.regs.en = s.side.regs.en ∧ t.side.regs.pcount = s.side.regs.pcount ∧
    t.side.regs.devaddr = s.side.regs.devaddr ∧ t.side.regs.db0 = s.side.regs.db0 ∧
    t.side.regs.db1 = s.side.regs.db1 ∧ t.side.regs.slvsts = s.side.regs.slvsts

/-- R112, R113, R114, R155, R231, whatever the environment answers: the only bytes a pass writes to the status register
are `STS_PRECLEAR`, `STS_BLOCK_FIN` and all-ones; to host-control, the kill and its own start; and to the control
register, at most once, the byte of the control read made just before it with `CNT_MSTO_EN` cleared and every other bit
as read, the write of `STS_PRECLEAR` following at once (D6, D7, D16, D32). -/
def Obligations.ValuesThePassWrites : Prop :=
  ∀ (i : Instr) (s t : State) (ty : Xfer) (rw : Dir) (sa : BitVec 7) (cmd : Byte) (data : List Byte),
    smbOperands i = some (ty, rw, sa, cmd, data) → SmbReady s → s.binding.params.Valid → exec i s = .next t →
    let P := s.binding.params
    (∀ v : Byte,
      (.wr8 (s.binding.portOf .sts) v ∈ newEvents s t → v = P.stsPreclear ∨ v = P.stsBlockFin ∨ v = 0xFF#8) ∧
      (.wr8 (s.binding.portOf .hostcnt) v ∈ newEvents s t →
        v = P.hcKill ||| P.typeQuick ∨
        v = P.hcStart ||| (match ty with
          | .quick => P.typeQuick
          | .byte => P.typeByte
          | .byteData => P.typeByteData
          | .blockData => P.typeBlock)) ∧
      (.wr8 (s.binding.portOf .cnt) v ∈ newEvents s t → v &&& P.cntMstoEn = 0#8)) ∧
    ∀ (before after : List Event) (v : Byte),
      newEvents s t = before ++ .wr8 (s.binding.portOf .cnt) v :: after →
      (∃ (es : List Event) (c : Byte), before = es ++ [.rd8 (s.binding.portOf .cnt) c] ∧ v = c &&& ~~~P.cntMstoEn) ∧
      (∃ es, after = .wr8 (s.binding.portOf .sts) P.stsPreclear :: es) ∧
      ∀ w : Byte, .wr8 (s.binding.portOf .cnt) w ∉ after

/-- R151 to R154, R170. The tenth re-check that still finds a busy bit raises failure 3, with its text, and goes on to ClearSticky.
And a pass that fails so, whatever the environment answers, made 11 control reads, each finding a busy bit, one kill
and the final status write, and no other port access: no transfer was started (D15, D23). -/
def Obligations.BusContentionStartsNothing : Prop :=
  (∀ s : State, s.eng.st = .recover → s.eng.retry = 9 → isBusy s.binding.params (recover s).eng.c = true →
    (recover s).eng.fail = .busContention ∧ (recover s).eng.st = .clearSticky ∧
    newEvents s (recover s) =
      [.delay .recheck, .rd8 (s.binding.portOf .cnt) (recover s).eng.c, .diag .hostOrSlaveBusy]) ∧
  ∀ (i : Instr) (s t : State), (smbOperands i).isSome = true → SmbReady s → exec i s = .next t →
    t.eng.fail = .busContention →
    ∃ (c : Byte) (cs : List Byte), cs.length = 10 ∧
      (∀ v ∈ c :: cs, isBusy s.binding.params v = true) ∧
      (newEvents s t).filter Event.isPort =
        [.rd8 (s.binding.portOf .cnt) c,
          .wr8 (s.binding.portOf .hostcnt) (s.binding.params.hcKill ||| s.binding.params.typeQuick)] ++
        cs.map (fun v => .rd8 (s.binding.portOf .cnt) v) ++
        [.wr8 (s.binding.portOf .sts) 0xFF#8]

/-- R151 to R154, vector V22: on hardware whose environment changes nothing, a busy bit that is set stays set, and each
of the eight operations ends with code 3 after one kill and ten re-checks; of the register file only host-control and
status change (D15, D23; what a write leaves in a register is log entry 6). -/
def Obligations.BusyBitsThatNeverClear : Prop :=
  ∀ (i : Instr) (s : State), (smbOperands i).isSome = true → i.wellFormed = true → SmbReady s →
    s.binding.platform = .hardware → s.binding.params.Valid → s.side.Passive →
    isBusy s.binding.params s.side.regs.cnt = true →
    ∃ t, exec i s = .next t ∧ t.eng.failedWith .busContention ∧ t.eng.retry = 10 ∧
      portCount (newEvents s t) = 13 ∧
      (newEvents s t).count (.delay .kill) = 1 ∧ (newEvents s t).count (.delay .recheck) = 9 ∧
      t.side.regs = { s.side.regs with
        hostcnt := s.binding.params.hcKill ||| s.binding.params.typeQuick, sts := 0#8 }

/-- R152, R153, example E6: busy bits that clear after the kill, before the first re-check. The pass goes on as if they
had never been set: one kill, one re-check, and here the completion that the status register shows (D15; log
entry 6). -/
def Obligations.BusyBitsThatClearAfterTheKill : Prop :=
  ∀ (sa : BitVec 7) (s : State) (c' : Byte) (rest : List (List EnvAct)), SmbReady s →
    s.binding.platform = .hardware → s.binding.params.Valid →
    s.side.env = [] :: [] :: [] :: [.setReg .cnt c'] :: rest → (∀ acts ∈ rest, acts = []) →
    isBusy s.binding.params s.side.regs.cnt = true → isBusy s.binding.params c' = false →
    isError s.binding.params (s.side.regs.sts &&& ~~~s.binding.params.stsPreclear) = false →
    isDone s.binding.params (s.side.regs.sts &&& ~~~s.binding.params.stsPreclear) = true →
    ∃ t, exec (.smbWriteQuick sa) s = .next t ∧ t.eng.succeeded ∧ t.eng.retry = 1 ∧
      newEvents s t =
        [.rd8 (s.binding.portOf .cnt) s.side.regs.cnt, .wr8 (s.binding.portOf .hostcnt) (killByte s.binding.params),
          .delay .kill, .rd8 (s.binding.portOf .cnt) c', .rd8 (s.binding.portOf .cnt) c',
          .wr8 (s.binding.portOf .cnt) (controlWriteback s.binding.params c'),
          .wr8 (s.binding.portOf .sts) s.binding.params.stsPreclear,
          .wr8 (s.binding.portOf .addr) (addrByte sa .write),
          .wr8 (s.binding.portOf .hostcnt) (startByte s.binding.params .quick), .delay .poll,
          .rd8 (s.binding.portOf .sts) (s.side.regs.sts &&& ~~~s.binding.params.stsPreclear),
          .wr8 (s.binding.portOf .sts) 0xFF#8]

/-- R163: on hardware whose environment changes nothing, with no busy bit, no error bit and no completing bit set, each
of the eight operations makes exactly 40 status reads and ends with code 5; no kill is written (D18; log
entry 6). -/
def Obligations.TimeoutAfterFortyPolls : Prop :=
  ∀ (i : Instr) (s : State) (ty : Xfer) (rw : Dir) (sa : BitVec 7) (cmd : Byte) (data : List Byte),
    smbOperands i = some (ty, rw, sa, cmd, data) → i.wellFormed = true → SmbReady s →
    s.binding.platform = .hardware → s.binding.params.Valid → s.side.Passive →
    isBusy s.binding.params s.side.regs.cnt = false →
    let v := s.side.regs.sts &&& ~~~s.binding.params.stsPreclear
    isError s.binding.params v = false → isDone s.binding.params v = false →
    ¬(ty = .blockData ∧ isBlockFin s.binding.params v = true) →
    ∃ t, exec i s = .next t ∧ t.eng.failedWith .transferTimeout ∧ t.eng.poll = 40 ∧
      (newEvents s t).count (.rd8 (s.binding.portOf .sts) v) = 40 ∧
      (newEvents s t).count (.delay .poll) = 40 ∧
      .wr8 (s.binding.portOf .hostcnt) (s.binding.params.hcKill ||| s.binding.params.typeQuick) ∉ newEvents s t

/-- R162, R229, example E7: an error bit shown at the first poll ends the pass with code 4, whatever other bits the
same status value has; the last access is still the all-ones write, which leaves the status register 0 (D23, D37;
log entry 6). -/
def Obligations.AnErrorBitWins : Prop :=
  ∀ (i : Instr) (s : State), (smbOperands i).isSome = true → i.wellFormed = true → SmbReady s →
    s.binding.platform = .hardware → s.binding.params.Valid → s.side.Passive →
    isBusy s.binding.params s.side.regs.cnt = false →
    isError s.binding.params (s.side.regs.sts &&& ~~~s.binding.params.stsPreclear) = true →
    ∃ t, exec i s = .next t ∧ t.eng.failedWith .transferFailure ∧ t.eng.poll = 1 ∧ t.side.regs.sts = 0#8

/-! ## The eight SMBus operations (42_smbus_ops.md)

The results on hardware whose environment changes nothing on its own, where no busy bit is set and the status register
shows completion and no error at the first poll. Every register not named is unchanged. The register assignment and
the order of the accesses are the spec's own (D8, D15 to D20), the result words D24, block transfers D21 and D22; what a
write leaves in a register of the register file is the model's choice (log entry 6). -/

/-- R180, R181: `SMB_READ_QUICK` and `SMB_WRITE_QUICK`: the address byte and the start, nothing fetched. -/
def Obligations.QuickResult : Prop :=
  ∀ (sa : BitVec 7) (rw : Dir) (s : State), SmbReady s → s.binding.platform = .hardware → s.binding.params.Valid →
    s.side.Passive → isBusy s.binding.params s.side.regs.cnt = false →
    let P := s.binding.params
    let port := s.binding.portOf
    let c := s.side.regs.cnt
    let v := s.side.regs.sts &&& ~~~P.stsPreclear
    isError P v = false → isDone P v = true →
    exec (match rw with | .read => .smbReadQuick sa | .write => .smbWriteQuick sa) s = .next { s with
      eng := { s.eng with
        st := .done, type := .quick, rw := rw, sa := sa, cmd := 0, wlen := 0, retry := 0, poll := 1, c := c, s := v
        cnt := 0, got := 0, rlen := 0, ok := true, fail := .noFailure }
      side := { s.side with
        regs := { s.side.regs with
          cnt := controlWriteback P c, sts := 0, addr := addrByte sa rw, hostcnt := P.hcStart ||| P.typeQuick }
        env := s.side.env.drop 9
        trace := s.side.trace ++
          [.rd8 (port .cnt) c, .rd8 (port .cnt) c, .wr8 (port .cnt) (controlWriteback P c),
            .wr8 (port .sts) P.stsPreclear, .wr8 (port .addr) (addrByte sa rw),
            .wr8 (port .hostcnt) (P.hcStart ||| P.typeQuick), .delay .poll, .rd8 (port .sts) v,
            .wr8 (port .sts) 0xFF#8] } }

/-- R182: `SMB_READ_BYTE`: the byte received is that of window byte 0. -/
def Obligations.ReadByteResult : Prop :=
  ∀ (sa : BitVec 7) (s : State), SmbReady s → s.binding.platform = .hardware → s.binding.params.Valid →
    s.side.Passive → isBusy s.binding.params s.side.regs.cnt = false →
    let P := s.binding.params
    let port := s.binding.portOf
    let c := s.side.regs.cnt
    let v := s.side.regs.sts &&& ~~~P.stsPreclear
    isError P v = false → isDone P v = true →
    exec (.smbReadByte sa) s = .next { s with
      eng := { s.eng with
        st := .done, type := .byte, rw := .read, sa := sa, cmd := 0, wlen := 0, retry := 0, poll := 1, c := c, s := v
        cnt := 0, got := 0, rbuf := s.eng.rbuf.set 0 s.side.regs.win[0], rlen := 1, ok := true, fail := .noFailure }
      side := { s.side with
        regs := { s.side.regs with
          cnt := controlWriteback P c, sts := 0, addr := addrByte sa .read, hostcnt := P.hcStart ||| P.typeByte }
        env := s.side.env.drop 10
        trace := s.side.trace ++
          [.rd8 (port .cnt) c, .rd8 (port .cnt) c, .wr8 (port .cnt) (controlWriteback P c),
            .wr8 (port .sts) P.stsPreclear, .wr8 (port .addr) (addrByte sa .read),
            .wr8 (port .hostcnt) (P.hcStart ||| P.typeByte), .delay .poll, .rd8 (port .sts) v,
            .rd8 (port (.byte 0)) s.side.regs.win[0], .wr8 (port .sts) 0xFF#8] } }

/-- R183: `SMB_WRITE_BYTE`: the data byte goes into the command register. -/
def Obligations.WriteByteResult : Prop :=
  ∀ (sa : BitVec 7) (data : Byte) (s : State), SmbReady s → s.binding.platform = .hardware →
    s.binding.params.Valid → s.side.Passive → isBusy s.binding.params s.side.regs.cnt = false →
    let P := s.binding.params
    let port := s.binding.portOf
    let c := s.side.regs.cnt
    let v := s.side.regs.sts &&& ~~~P.stsPreclear
    isError P v = false → isDone P v = true →
    exec (.smbWriteByte sa data) s = .next { s with
      eng := { s.eng with
        st := .done, type := .byte, rw := .write, sa := sa, cmd := 0, wlen := 1, wbuf := s.eng.wbuf.set 0 data
        retry := 0, poll := 1, c := c, s := v, cnt := 0, got := 0, rlen := 0, ok := true, fail := .noFailure }
      side := { s.side with
        regs := { s.side.regs with
          cnt := controlWriteback P c, sts := 0, addr := addrByte sa .write, cmd := data
          hostcnt := P.hcStart ||| P.typeByte }
        env := s.side.env.drop 10
        trace := s.side.trace ++
          [.rd8 (port .cnt) c, .rd8 (port .cnt) c, .wr8 (port .cnt) (controlWriteback P c),
            .wr8 (port .sts) P.stsPreclear, .wr8 (port .addr) (addrByte sa .write), .wr8 (port .cmd) data,
            .wr8 (port .hostcnt) (P.hcStart ||| P.typeByte), .delay .poll, .rd8 (port .sts) v,
            .wr8 (port .sts) 0xFF#8] } }

/-- R184: `SMB_READ_BYTE_DATA`. -/
def Obligations.ReadByteDataResult : Prop :=
  ∀ (sa : BitVec 7) (cmd : Byte) (s : State), SmbReady s → s.binding.platform = .hardware →
    s.binding.params.Valid → s.side.Passive → isBusy s.binding.params s.side.regs.cnt = false →
    let P := s.binding.params
    let port := s.binding.portOf
    let c := s.side.regs.cnt
    let v := s.side.regs.sts &&& ~~~P.stsPreclear
    isError P v = false → isDone P v = true →
    exec (.smbReadByteData sa cmd) s = .next { s with
      eng := { s.eng with
        st := .done, type := .byteData, rw := .read, sa := sa, cmd := cmd, wlen := 0, retry := 0, poll := 1, c := c
        s := v, cnt := 0, got := 0, rbuf := s.eng.rbuf.set 0 s.side.regs.win[0], rlen := 1, ok := true
        fail := .noFailure }
      side := { s.side with
        regs := { s.side.regs with
          cnt := controlWriteback P c, sts := 0, addr := addrByte sa .read, cmd := cmd
          hostcnt := P.hcStart ||| P.typeByteData }
        env := s.side.env.drop 11
        trace := s.side.trace ++
          [.rd8 (port .cnt) c, .rd8 (port .cnt) c, .wr8 (port .cnt) (controlWriteback P c),
            .wr8 (port .sts) P.stsPreclear, .wr8 (port .addr) (addrByte sa .read), .wr8 (port .cmd) cmd,
            .wr8 (port .hostcnt) (P.hcStart ||| P.typeByteData), .delay .poll, .rd8 (port .sts) v,
            .rd8 (port (.byte 0)) s.side.regs.win[0], .wr8 (port .sts) 0xFF#8] } }

/-- R185: `SMB_WRITE_BYTE_DATA`: the data byte goes into window byte 0. -/
def Obligations.WriteByteDataResult : Prop :=
  ∀ (sa : BitVec 7) (cmd data : Byte) (s : State), SmbReady s → s.binding.platform = .hardware →
    s.binding.params.Valid → s.side.Passive → isBusy s.binding.params s.side.regs.cnt = false →
    let P := s.binding.params
    let port := s.binding.portOf
    let c := s.side.regs.cnt
    let v := s.side.regs.sts &&& ~~~P.stsPreclear
    isError P v = false → isDone P v = true →
    exec (.smbWriteByteData sa cmd data) s = .next { s with
      eng := { s.eng with
        st := .done, type := .byteData, rw := .write, sa := sa, cmd := cmd, wlen := 1
        wbuf := s.eng.wbuf.set 0 data, retry := 0, poll := 1, c := c, s := v, cnt := 0, got := 0, rlen := 0
        ok := true, fail := .noFailure }
      side := { s.side with
        regs := { s.side.regs with
          cnt := controlWriteback P c, sts := 0, addr := addrByte sa .write, cmd := cmd
          win := s.side.regs.win.set 0 data, hostcnt := P.hcStart ||| P.typeByteData }
        env := s.side.env.drop 11
        trace := s.side.trace ++
          [.rd8 (port .cnt) c, .rd8 (port .cnt) c, .wr8 (port .cnt) (controlWriteback P c),
            .wr8 (port .sts) P.stsPreclear, .wr8 (port .addr) (addrByte sa .write), .wr8 (port .cmd) cmd,
            .wr8 (port (.byte 0)) data, .wr8 (port .hostcnt) (P.hcStart ||| P.typeByteData), .delay .poll,
            .rd8 (port .sts) v, .wr8 (port .sts) 0xFF#8] } }

/-- R186: `SMB_READ_BLOCK_DATA`: `min(count, 32)` bytes, group after group from the eight window bytes, for every count
the device can report; 0 is a success with no bytes. A group's window reads come before its re-arm (R166), and a fresh
poll before every group after the first (R167), which sees what the re-arm has left of the status. -/
def Obligations.ReadBlockDataResult : Prop :=
  ∀ (sa : BitVec 7) (cmd : Byte) (s : State), SmbReady s → s.binding.platform = .hardware →
    s.binding.params.Valid → s.side.Passive → isBusy s.binding.params s.side.regs.cnt = false →
    let P := s.binding.params
    let port := s.binding.portOf
    let c := s.side.regs.cnt
    let v := s.side.regs.sts &&& ~~~P.stsPreclear
    let v' := v &&& ~~~P.stsBlockFin
    let n := min s.side.regs.count.toNat 32
    let win := s.side.regs.win
    let group := fun g : Nat =>
      (if g = 0 then [] else [.delay .poll, .rd8 (port .sts) v']) ++
      ((List.finRange 8).filterMap fun i =>
        if 8 * g + i.val < n then some (Event.rd8 (port (.byte i)) win[i.val]) else none) ++
      [.wr8 (port .sts) P.stsBlockFin]
    let es :=
      [.rd8 (port .cnt) c, .rd8 (port .cnt) c, .wr8 (port .cnt) (controlWriteback P c),
        .wr8 (port .sts) P.stsPreclear, .wr8 (port .addr) (addrByte sa .read), .wr8 (port .cmd) cmd,
        .wr8 (port .hostcnt) (P.hcStart ||| P.typeBlock), .delay .poll, .rd8 (port .sts) v,
        .rd8 (port .count) s.side.regs.count] ++
      (List.range ((n + 7) / 8)).flatMap group ++ [.wr8 (port .sts) 0xFF#8]
    isError P v = false → isDone P v = true →
    portCount es = 9 + max 1 ((n + 7) / 8) + (n + 7) / 8 + n ∧
    exec (.smbReadBlockData sa cmd) s = .next { s with
      eng := { s.eng with
        st := .done, type := .blockData, rw := .read, sa := sa, cmd := cmd, wlen := 0, retry := 0, poll := 1, c := c
        s := if n ≤ 8 then v else v', cnt := n, got := n
        rbuf := Vector.ofFn fun j => if j.val < n then win[j.val % 8] else s.eng.rbuf[j.val]
        rlen := n, ok := true, fail := .noFailure }
      side := { s.side with
        regs := { s.side.regs with
          cnt := controlWriteback P c, sts := 0, addr := addrByte sa .read, cmd := cmd
          hostcnt := P.hcStart ||| P.typeBlock }
        env := s.side.env.drop es.length
        trace := s.side.trace ++ es } }

/-- R187: `SMB_WRITE_BLOCK_DATA`, 1 to 32 bytes: command, byte count and the bytes, group after group through the eight
window bytes (the groups after the first by R168, the spec's own procedure). -/
def Obligations.WriteBlockDataResult : Prop :=
  ∀ (sa : BitVec 7) (cmd : Byte) (data : List Byte) (s : State), 1 ≤ data.length → data.length ≤ 32 → SmbReady s →
    s.binding.platform = .hardware → s.binding.params.Valid → s.side.Passive →
    isBusy s.binding.params s.side.regs.cnt = false →
    let P := s.binding.params
    let port := s.binding.portOf
    let c := s.side.regs.cnt
    let v := s.side.regs.sts &&& ~~~P.stsPreclear
    let v' := v &&& ~~~P.stsBlockFin
    let n := data.length
    let place := fun g : Nat =>
      (List.finRange 8).filterMap fun i => (data[8 * g + i.val]?).map fun d => Event.wr8 (port (.byte i)) d
    let es :=
      [.rd8 (port .cnt) c, .rd8 (port .cnt) c, .wr8 (port .cnt) (controlWriteback P c),
        .wr8 (port .sts) P.stsPreclear, .wr8 (port .addr) (addrByte sa .write), .wr8 (port .cmd) cmd,
        .wr8 (port .count) (BitVec.ofNat 8 n)] ++ place 0 ++
      [.wr8 (port .hostcnt) (P.hcStart ||| P.typeBlock), .delay .poll, .rd8 (port .sts) v] ++
      (List.range ((n + 7) / 8 - 1)).flatMap (fun g =>
        place (g + 1) ++ [.wr8 (port .sts) P.stsBlockFin, .delay .poll, .rd8 (port .sts) v']) ++
      [.wr8 (port .sts) 0xFF#8]
    isError P v = false → isDone P v = true →
    portCount es = 9 + (n + 7) / 8 + ((n + 7) / 8 - 1) + n ∧
    windowWrites s.binding es = (List.range n).map (fun j => (port (winReg j), data[j]?.getD 0#8)) ∧
    exec (.smbWriteBlockData sa cmd data) s = .next { s with
      eng := { s.eng with
        st := .done, type := .blockData, rw := .write, sa := sa, cmd := cmd, wlen := n
        wbuf := Vector.ofFn fun j => data[j.val]?.getD s.eng.wbuf[j.val]
        retry := 0, poll := 1, c := c, s := if n ≤ 8 then v else v', cnt := 0, got := n, rlen := 0, ok := true
        fail := .noFailure }
      side := { s.side with
        regs := { s.side.regs with
          cnt := controlWriteback P c, sts := 0, addr := addrByte sa .write, cmd := cmd
          count := BitVec.ofNat 8 n, hostcnt := P.hcStart ||| P.typeBlock
          win := Vector.ofFn fun i =>
            if i.val < n then data[i.val + 8 * ((n - 1 - i.val) / 8)]?.getD 0#8 else s.side.regs.win[i.val] }
        env := s.side.env.drop es.length
        trace := s.side.trace ++ es } }

/-- R164 to R167, R179, whatever the environment answers and however often a group is awaited: a read that succeeds
returns exactly the bytes it read from the window, in order, window byte j mod 8 for byte j; a block read has read the
byte count once, and returns `min(count, 32)` bytes (D19, D21). -/
def Obligations.AReadReturnsTheBytesItRead : Prop :=
  ∀ (i : Instr) (s t : State) (ty : Xfer) (sa : BitVec 7) (cmd : Byte),
    smbOperands i = some (ty, .read, sa, cmd, []) → SmbReady s → s.binding.params.Valid → exec i s = .next t →
    t.eng.st = .done →
    let port := s.binding.portOf
    windowReads s.binding (newEvents s t) =
      (List.range t.eng.rlen).map (fun j => (port (winReg j), t.eng.rbuf[j]?.getD 0#8)) ∧
    (ty = .quick → t.eng.rlen = 0) ∧ (ty = .byte ∨ ty = .byteData → t.eng.rlen = 1) ∧
    (ty = .blockData →
      ∃ n : Byte, t.eng.rlen = min n.toNat 32 ∧
        (newEvents s t).filter (fun e => match e with | .rd8 p _ => decide (p = port .count) | _ => false) =
          [.rd8 (port .count) n])

/-- R158, R168, R187, whatever the environment answers: a block write that succeeds has placed exactly its data bytes
in the window, each once, in order, byte j in window byte j mod 8 (D19, D22). -/
def Obligations.ABlockWriteSendsItsBytes : Prop :=
  ∀ (sa : BitVec 7) (cmd : Byte) (data : List Byte) (s t : State), SmbReady s → s.binding.params.Valid →
    exec (.smbWriteBlockData sa cmd data) s = .next t → t.eng.st = .done →
    windowWrites s.binding (newEvents s t) =
      (List.range data.length).map (fun j => (s.binding.portOf (winReg j), data[j]?.getD 0#8))

/-! ## Client sequences (43_client_sequences.md) -/

/-- R203: gathering and scattering a key, for distinct positions: bit i of the key is bit `KeyBits[i]` of the register
value, every other bit of the register is kept, and the two round trips of the source. -/
def Obligations.KeyRoundTrip : Prop :=
  ∀ ks : List (Fin 8), ks.Nodup →
    (∀ (r : Byte) (i : Nat) (h : i < ks.length), (getKey ks r).testBit i = r.getLsbD ks[i].val) ∧
    (∀ (r : Byte) (n : Nat) (j : Fin 8), j ∉ ks → (encodeKey ks r n).getLsbD j.val = r.getLsbD j.val) ∧
    (∀ r : Byte, encodeKey ks r (getKey ks r) = r) ∧
    (∀ (r : Byte) (n : Nat), n < 2 ^ ks.length → getKey ks (encodeKey ks r n) = n)

/-- R201, R263: `initSMB` binds a base only where none was bound and never one of the two invalid values; where it
fails with one of the failure kinds, `BASE_VALID` is as it was; and it touches no SMBus port (D27,
D29, D33). The sequence is a client's, run by the model's own function (log entry 12). -/
def Obligations.InitSmbBindsAValidBase : Prop :=
  ∀ (p : ClientParams) (s : State),
    (∀ t, initSMB p s = .ok t →
      s.binding.baseValid = false ∧ t.binding.baseValid = true ∧ t.binding.base ≠ 0x0000#16 ∧
      t.binding.base ≠ 0xFFFF#16 ∧ t.eng.st = .idle ∧
      ∃ es, t.side.trace = s.side.trace ++ es ∧ ∀ e ∈ es, e.isPort = true ∧
        ∀ q v, e = .rd8 q v ∨ e = .wr8 q v → isConfigPort q = true) ∧
    (∀ k t, initSMB p s = .error (.failed k t) →
      t.binding = s.binding ∧ (k = .identityMismatch ∨ k = .firmwareState))
end

