-- ==== Sys2Proof/Laws/State.lean ====
section
/-! SUPPORT. One lemma for each field of the state under each of its updates, true by rfl, so that no later proof
unfolds a record update; and the same for the record of steps. -/

namespace Sys2Proof.Machine

@[simp] theorem State.setAcc_acc (s : State) (a : Accessor) : (s.setAcc a).acc = a := rfl
@[simp] theorem State.setAcc_eng (s : State) (a : Accessor) : (s.setAcc a).eng = s.eng := rfl
@[simp] theorem State.setAcc_binding (s : State) (a : Accessor) : (s.setAcc a).binding = s.binding := rfl
@[simp] theorem State.setAcc_side (s : State) (a : Accessor) : (s.setAcc a).side = s.side := rfl
@[simp] theorem State.setAcc_inbox (s : State) (a : Accessor) : (s.setAcc a).inbox = s.inbox := rfl

@[simp] theorem State.setEng_acc (s : State) (e : Engine) : (s.setEng e).acc = s.acc := rfl
@[simp] theorem State.setEng_eng (s : State) (e : Engine) : (s.setEng e).eng = e := rfl
@[simp] theorem State.setEng_binding (s : State) (e : Engine) : (s.setEng e).binding = s.binding := rfl
@[simp] theorem State.setEng_side (s : State) (e : Engine) : (s.setEng e).side = s.side := rfl
@[simp] theorem State.setEng_inbox (s : State) (e : Engine) : (s.setEng e).inbox = s.inbox := rfl

@[simp] theorem State.setBinding_acc (s : State) (b : Binding) : (s.setBinding b).acc = s.acc := rfl
@[simp] theorem State.setBinding_eng (s : State) (b : Binding) : (s.setBinding b).eng = s.eng := rfl
@[simp] theorem State.setBinding_binding (s : State) (b : Binding) : (s.setBinding b).binding = b := rfl
@[simp] theorem State.setBinding_side (s : State) (b : Binding) : (s.setBinding b).side = s.side := rfl
@[simp] theorem State.setBinding_inbox (s : State) (b : Binding) : (s.setBinding b).inbox = s.inbox := rfl

@[simp] theorem State.setSide_acc (s : State) (x : PortSide) : (s.setSide x).acc = s.acc := rfl
@[simp] theorem State.setSide_eng (s : State) (x : PortSide) : (s.setSide x).eng = s.eng := rfl
@[simp] theorem State.setSide_binding (s : State) (x : PortSide) : (s.setSide x).binding = s.binding := rfl
@[simp] theorem State.setSide_side (s : State) (x : PortSide) : (s.setSide x).side = x := rfl
@[simp] theorem State.setSide_inbox (s : State) (x : PortSide) : (s.setSide x).inbox = s.inbox := rfl

@[simp] theorem State.setInbox_acc (s : State) (l : List ClientInput) : (s.setInbox l).acc = s.acc := rfl
@[simp] theorem State.setInbox_eng (s : State) (l : List ClientInput) : (s.setInbox l).eng = s.eng := rfl
@[simp] theorem State.setInbox_binding (s : State) (l : List ClientInput) : (s.setInbox l).binding = s.binding := rfl
@[simp] theorem State.setInbox_side (s : State) (l : List ClientInput) : (s.setInbox l).side = s.side := rfl
@[simp] theorem State.setInbox_inbox (s : State) (l : List ClientInput) : (s.setInbox l).inbox = l := rfl

@[simp] theorem State.setAcc_setAcc (s : State) (a a' : Accessor) : (s.setAcc a).setAcc a' = s.setAcc a' := rfl
@[simp] theorem State.setEng_setEng (s : State) (e e' : Engine) : (s.setEng e).setEng e' = s.setEng e' := rfl
@[simp] theorem State.setBinding_setBinding (s : State) (b b' : Binding) : (s.setBinding b).setBinding b' = s.setBinding b' := rfl
@[simp] theorem State.setSide_setSide (s : State) (x x' : PortSide) : (s.setSide x).setSide x' = s.setSide x' := rfl
@[simp] theorem State.setInbox_setInbox (s : State) (l l' : List ClientInput) : (s.setInbox l).setInbox l' = s.setInbox l' := rfl

@[simp] theorem PortSide.log_configAddress (x : PortSide) (e : Event) : (x.log e).configAddress = x.configAddress := rfl
@[simp] theorem PortSide.log_cfg (x : PortSide) (e : Event) : (x.log e).cfg = x.cfg := rfl
@[simp] theorem PortSide.log_regs (x : PortSide) (e : Event) : (x.log e).regs = x.regs := rfl
@[simp] theorem PortSide.log_env (x : PortSide) (e : Event) : (x.log e).env = x.env := rfl
@[simp] theorem PortSide.log_draws (x : PortSide) (e : Event) : (x.log e).draws = x.draws := rfl
@[simp] theorem PortSide.log_trace (x : PortSide) (e : Event) : (x.log e).trace = x.trace ++ [e] := rfl

theorem State.ext_parts {s t : State} (ha : s.acc = t.acc) (he : s.eng = t.eng) (hb : s.binding = t.binding)
    (hs : s.side = t.side) (hi : s.inbox = t.inbox) : s = t := by
  cases s; cases t; simp_all

end Sys2Proof.Machine
end

