-- ==== Sys2Proof/Laws/Memory.lean ====
section
/-! SUPPORT. Configuration memory and the register file: a read after a write, the other places left alone, and the
canonical form kept by every operation. -/

namespace Sys2Proof.Machine

namespace Memory

theorem read_write_same (m : Memory) (k : Nat) (v : Byte) : Memory.read (Memory.write m k v) k = some v := by
  induction m with
  | nil => simp [Memory.write, Memory.read]
  | cons c m ih =>
    obtain ⟨a, w⟩ := c
    simp only [Memory.write]
    split
    · simp [Memory.read]
    · split
      · simp [Memory.read]
      · simp only [Memory.read]
        split
        · omega
        · exact ih

theorem read_write_other (m : Memory) {k j : Nat} (v : Byte) (h : j ≠ k) :
    Memory.read (Memory.write m k v) j = Memory.read m j := by
  induction m with
  | nil => simp [Memory.write, Memory.read]; omega
  | cons c m ih =>
    obtain ⟨a, w⟩ := c
    simp only [Memory.write]
    split
    · rw [Memory.read, if_neg (by omega)]
    · split
      · simp only [Memory.read]
        split <;> split <;> first | rfl | omega
      · simp only [Memory.read]
        split
        · rfl
        · exact ih

/-- Every address of the list is at least the bound. -/
def above (b : Nat) (m : Memory) : Prop := ∀ c ∈ m, b < c.1

theorem rising_cons {c : Host.Cell} {m : Memory} :
    Memory.rising (c :: m) = true ↔ above c.1 m ∧ Memory.rising m = true := by
  induction m generalizing c with
  | nil => simp [Memory.rising, above]
  | cons d m ih =>
    simp only [Memory.rising, Bool.and_eq_true, decide_eq_true_eq, above, List.mem_cons, forall_eq_or_imp]
    constructor
    · rintro ⟨h1, h2⟩
      exact ⟨⟨h1, fun x hx => Nat.lt_trans h1 ((ih.1 h2).1 x hx)⟩, h2⟩
    · rintro ⟨⟨h1, -⟩, h2⟩
      exact ⟨h1, h2⟩

theorem above_write {m : Memory} {b k : Nat} {v : Byte} (h : above b m) (hk : b < k) :
    above b (Memory.write m k v) := by
  induction m with
  | nil => simpa [Memory.write, above] using hk
  | cons c m ih =>
    obtain ⟨a, w⟩ := c
    have hm : above b m := fun x hx => h x (List.mem_cons_of_mem _ hx)
    have ha : b < a := h (a, w) List.mem_cons_self
    simp only [Memory.write]
    split
    · intro x hx
      rcases List.mem_cons.1 hx with rfl | hx
      · exact hk
      · exact h x hx
    · split
      · intro x hx
        rcases List.mem_cons.1 hx with rfl | hx
        · exact hk
        · exact hm x hx
      · intro x hx
        rcases List.mem_cons.1 hx with rfl | hx
        · exact ha
        · exact ih hm x hx

theorem rising_write {m : Memory} (k : Nat) (v : Byte) (h : Memory.rising m = true) :
    Memory.rising (Memory.write m k v) = true := by
  induction m with
  | nil => rfl
  | cons c m ih =>
    obtain ⟨a, w⟩ := c
    obtain ⟨ha, hm⟩ := rising_cons.1 h
    simp only [Memory.write]
    split
    next hk =>
      refine rising_cons.2 ⟨?_, h⟩
      intro x hx
      rcases List.mem_cons.1 hx with rfl | hx
      · exact hk
      · exact Nat.lt_trans hk (ha x hx)
    next hk =>
      split
      next he => subst he; exact rising_cons.2 ⟨ha, hm⟩
      next he => exact rising_cons.2 ⟨above_write ha (by simp only; omega), ih hm⟩

theorem all_write {m : Memory} {k : Nat} {v : Byte} {p : Host.Cell → Bool} (h : m.all p = true) (hk : p (k, v) = true) :
    (Memory.write m k v).all p = true := by
  induction m with
  | nil => simpa [Memory.write] using hk
  | cons c m ih =>
    obtain ⟨a, w⟩ := c
    simp only [List.all_cons, Bool.and_eq_true] at h
    simp only [Memory.write]
    split
    · simp [hk, h]
    · split
      · simp [hk, h]
      · simp [h.1, ih h.2]

/-- A write keeps the canonical form. -/
theorem wf_write {m : Memory} {k : Nat} (v : Byte) (h : Memory.wf m = true) (hk : k < 2 ^ 24) :
    Memory.wf (Memory.write m k v) = true := by
  simp only [Memory.wf, Bool.and_eq_true] at h ⊢
  exact ⟨rising_write k v h.1, all_write h.2 (by simpa using hk)⟩

/-- Two canonical memories that read alike are equal data. -/
theorem ext_of_read {m n : Memory} (hm : Memory.rising m = true) (hn : Memory.rising n = true)
    (h : ∀ k, Memory.read m k = Memory.read n k) : m = n := by
  have none_below : ∀ {b : Nat} {m : Memory}, above b m → Memory.read m b = none := by
    intro b m hb
    induction m with
    | nil => rfl
    | cons c m ih =>
      obtain ⟨a, w⟩ := c
      have : b < a := hb (a, w) List.mem_cons_self
      rw [Memory.read, if_neg (by omega)]
      exact ih fun x hx => hb x (List.mem_cons_of_mem _ hx)
  induction m generalizing n with
  | nil =>
    cases n with
    | nil => rfl
    | cons c n => have := h c.1; simp [Memory.read] at this
  | cons c m ih =>
    cases n with
    | nil => have := h c.1; simp [Memory.read] at this
    | cons d n =>
      obtain ⟨a, v⟩ := c
      obtain ⟨b, w⟩ := d
      obtain ⟨ha, hm'⟩ := rising_cons.1 hm
      obtain ⟨hb, hn'⟩ := rising_cons.1 hn
      have hab : a = b := by
        rcases Nat.lt_trichotomy a b with hlt | heq | hlt
        · have h1 := h a
          have : above a ((b, w) :: n) := by
            intro x hx
            rcases List.mem_cons.1 hx with rfl | hx
            · exact hlt
            · exact Nat.lt_trans hlt (hb x hx)
          rw [none_below this] at h1
          simp [Memory.read] at h1
        · exact heq
        · have h1 := h b
          have : above b ((a, v) :: m) := by
            intro x hx
            rcases List.mem_cons.1 hx with rfl | hx
            · exact hlt
            · exact Nat.lt_trans hlt (ha x hx)
          rw [none_below this] at h1
          simp [Memory.read] at h1
      subst hab
      have hvw : v = w := by simpa [Memory.read] using h a
      subst hvw
      congr 1
      refine ih hm' hn' fun k => ?_
      have hk := h k
      simp only [Memory.read] at hk
      by_cases hka : a = k
      · subst hka
        rw [none_below ha, none_below hb]
      · simpa [hka] using hk

end Memory

/-! ### The addresses of configuration bytes -/

theorem cfgCell_lt (i : BitVec 16) (r : Byte) : cfgCell i r < 2 ^ 24 := by
  have h1 := i.isLt
  have h2 := r.isLt
  unfold cfgCell
  omega

theorem routedCell_lt (w : Dword) (k : BitVec 2) : routedCell w k < 2 ^ 24 := cfgCell_lt _ _

theorem cfgCell_inj {i j : BitVec 16} {r q : Byte} (h : cfgCell i r = cfgCell j q) : i = j ∧ r = q := by
  have h1 := i.isLt
  have h2 := r.isLt
  have h3 := j.isLt
  have h4 := q.isLt
  unfold cfgCell at h
  constructor <;> apply BitVec.eq_of_toNat_eq <;> omega

/-! ### The register file -/

theorem RegFile.get_set_same (f : RegFile) (r : Reg) (v : Byte) : (f.set r v).get r = v := by
  cases r <;> simp [RegFile.get, RegFile.set]

theorem RegFile.get_set_other (f : RegFile) {r q : Reg} (v : Byte) (h : q ≠ r) : (f.set r v).get q = f.get q := by
  cases r <;> cases q <;> simp_all [RegFile.get, RegFile.set, Vector.getElem_set]
  rename_i i j
  intro hij
  exact absurd (Fin.ext hij.symm) h

theorem RegFile.get_portWrite_same (f : RegFile) (r : Reg) (v : Byte) :
    (f.portWrite r v).get r = writtenValue r (f.get r) v := RegFile.get_set_same ..

theorem RegFile.get_portWrite_other (f : RegFile) {r q : Reg} (v : Byte) (h : q ≠ r) :
    (f.portWrite r v).get q = f.get q := RegFile.get_set_other _ _ h

end Sys2Proof.Machine
end

