-- ==== Sys2Proof/Laws/Ports.lean ====
section
/-! SUPPORT. The port primitives: what each leaves alone, what it adds to the record of steps, and where each port of
the block is routed. Later proofs cite these and do not unfold the primitives. -/

namespace Sys2Proof.Machine

/-! ### The environment's own changes -/

theorem foldl_applyAct_configAddress (acts : List EnvAct) (x : PortSide) :
    (acts.foldl applyAct x).configAddress = x.configAddress := by
  induction acts generalizing x with
  | nil => rfl
  | cons a acts ih => rw [List.foldl_cons, ih]; cases a <;> rfl

theorem foldl_applyAct_draws (acts : List EnvAct) (x : PortSide) : (acts.foldl applyAct x).draws = x.draws := by
  induction acts generalizing x with
  | nil => rfl
  | cons a acts ih => rw [List.foldl_cons, ih]; cases a <;> rfl

theorem foldl_applyAct_trace (acts : List EnvAct) (x : PortSide) : (acts.foldl applyAct x).trace = x.trace := by
  induction acts generalizing x with
  | nil => rfl
  | cons a acts ih => rw [List.foldl_cons, ih]; cases a <;> rfl

theorem foldl_applyAct_wf (acts : List EnvAct) (x : PortSide) (h : Memory.wf x.cfg = true) :
    Memory.wf (acts.foldl applyAct x).cfg = true := by
  induction acts generalizing x with
  | nil => exact h
  | cons a acts ih =>
    rw [List.foldl_cons]
    apply ih
    cases a with
    | setReg r v => exact h
    | setCfg i r v => exact Memory.wf_write v h (cfgCell_lt i r)

/-- What the environment does to the register file and the configuration space depends on nothing else. -/
theorem foldl_applyAct_with (acts : List EnvAct) (x : PortSide) (w : Dword) (n : Nat) (e : List (List EnvAct))
    (t : List Event) :
    acts.foldl applyAct { x with configAddress := w, draws := n, env := e, trace := t } =
      { acts.foldl applyAct x with configAddress := w, draws := n, env := e, trace := t } := by
  induction acts generalizing x with
  | nil => rfl
  | cons a acts ih =>
    rw [List.foldl_cons, List.foldl_cons]
    cases a with
    | setReg r v => exact ih (applyAct x (.setReg r v))
    | setCfg i r v => exact ih (applyAct x (.setCfg i r v))

@[simp] theorem envStep_configAddress (x : PortSide) : (envStep x).configAddress = x.configAddress := by
  unfold envStep
  split
  · rfl
  · exact foldl_applyAct_configAddress _ x

@[simp] theorem envStep_draws (x : PortSide) : (envStep x).draws = x.draws := by
  unfold envStep
  split
  · rfl
  · exact foldl_applyAct_draws _ x

@[simp] theorem envStep_trace (x : PortSide) : (envStep x).trace = x.trace := by
  unfold envStep
  split
  · rfl
  · exact foldl_applyAct_trace _ x

@[simp] theorem envStep_env (x : PortSide) : (envStep x).env = x.env.tail := by
  unfold envStep
  split
  next h => simp [h]
  next h => simp [h]

theorem envStep_wf (x : PortSide) (h : Memory.wf x.cfg = true) : Memory.wf (envStep x).cfg = true := by
  unfold envStep
  split
  · exact h
  · exact foldl_applyAct_wf _ x h

/-- The environment's step does not look at the latch, the draws or the record of steps. -/
theorem envStep_with (x : PortSide) (w : Dword) (n : Nat) (t : List Event) :
    envStep { x with configAddress := w, draws := n, trace := t } =
      { envStep x with configAddress := w, draws := n, trace := t } := by
  obtain ⟨ca, cfg, regs, env, dr, tr⟩ := x
  cases env with
  | nil => rfl
  | cons acts rest =>
    have h1 := foldl_applyAct_with acts ⟨ca, cfg, regs, acts :: rest, dr, tr⟩ w n (acts :: rest) t
    simp only [envStep]
    rw [h1]

/-- An environment that changes nothing only uses up its inputs. -/
theorem envStep_passive {x : PortSide} (h : x.Passive) : envStep x = { x with env := x.env.tail } := by
  obtain ⟨ca, cfg, regs, env, dr, tr⟩ := x
  cases env with
  | nil => rfl
  | cons acts rest =>
    have : acts = [] := h acts List.mem_cons_self
    subst this
    rfl

theorem envRun_zero (x : PortSide) : envRun x 0 = x := rfl

/-- The first of the n moves is a move by itself. -/
theorem envRun_succ (x : PortSide) (n : Nat) : envRun x (n + 1) = envRun (envStep x) n := by
  cases h : x.env with
  | nil => simp [envRun, envStep, h]
  | cons acts rest =>
    simp only [envRun, envStep, h, List.take_succ_cons, List.flatten_cons, List.foldl_append, List.drop_succ_cons]
    generalize acts.foldl applyAct x = y
    rw [foldl_applyAct_with _ y y.configAddress y.draws rest y.trace, foldl_applyAct_configAddress,
      foldl_applyAct_draws, foldl_applyAct_trace]

/-- n moves are n single moves. -/
theorem envRun_eq_iterate (x : PortSide) (n : Nat) : envRun x n = envStep^[n] x := by
  induction n generalizing x with
  | zero => rfl
  | succ n ih => rw [envRun_succ, ih, Function.iterate_succ_apply]

theorem envRun_wf (x : PortSide) (n : Nat) (h : Memory.wf x.cfg = true) : Memory.wf (envRun x n).cfg = true :=
  foldl_applyAct_wf _ x h

theorem passive_tail {x : PortSide} (h : x.Passive) {y : PortSide} (hy : y.env = x.env.tail) : y.Passive := by
  intro acts ha
  rw [hy] at ha
  exact h acts (List.mem_of_mem_tail ha)

/-! ### The primitives on the far side -/

@[simp] theorem read8_trace (x : PortSide) (b : Binding) (p : Port) :
    (x.read8 b p).2.trace = x.trace ++ [.rd8 p (x.read8 b p).1] := by
  simp [PortSide.read8]

@[simp] theorem read32_trace (x : PortSide) (b : Binding) (p : Port) :
    (x.read32 b p).2.trace = x.trace ++ [.rd32 p (x.read32 b p).1] := by
  simp [PortSide.read32]

theorem writeByteAt_trace (x : PortSide) (t : PortTarget) (v : Byte) : (writeByteAt x t v).trace = x.trace := by
  cases t with
  | configData k => simp only [writeByteAt]; split <;> rfl
  | _ => rfl

theorem writeDwordAt_trace (x : PortSide) (t : PortTarget) (w : Dword) : (writeDwordAt x t w).trace = x.trace := by
  cases t with
  | configData k => simp only [writeDwordAt]; split <;> rfl
  | _ => rfl

theorem writeByteAt_env (x : PortSide) (t : PortTarget) (v : Byte) : (writeByteAt x t v).env = x.env := by
  cases t with
  | configData k => simp only [writeByteAt]; split <;> rfl
  | _ => rfl

theorem writeDwordAt_env (x : PortSide) (t : PortTarget) (w : Dword) : (writeDwordAt x t w).env = x.env := by
  cases t with
  | configData k => simp only [writeDwordAt]; split <;> rfl
  | _ => rfl

theorem writeByteAt_configAddress (x : PortSide) (t : PortTarget) (v : Byte) :
    (writeByteAt x t v).configAddress = x.configAddress := by
  cases t with
  | configData k => simp only [writeByteAt]; split <;> rfl
  | _ => rfl

theorem writeByteAt_wf (x : PortSide) (t : PortTarget) (v : Byte) (h : Memory.wf x.cfg = true) :
    Memory.wf (writeByteAt x t v).cfg = true := by
  cases t with
  | configData k =>
    simp only [writeByteAt]
    split
    · exact Memory.wf_write v h (routedCell_lt _ _)
    · exact h
  | _ => exact h

theorem writeDwordAt_wf (x : PortSide) (t : PortTarget) (w : Dword) (h : Memory.wf x.cfg = true) :
    Memory.wf (writeDwordAt x t w).cfg = true := by
  cases t with
  | configData k =>
    simp only [writeDwordAt]
    split
    · exact Memory.wf_write _ (Memory.wf_write _ (Memory.wf_write _ (Memory.wf_write _ h (routedCell_lt _ _))
        (routedCell_lt _ _)) (routedCell_lt _ _)) (routedCell_lt _ _)
    · exact h
  | _ => exact h

@[simp] theorem write8_trace (x : PortSide) (b : Binding) (p : Port) (v : Byte) :
    (x.write8 b p v).trace = x.trace ++ [.wr8 p v] := by
  unfold PortSide.write8
  cases b.platform <;> simp [writeByteAt_trace]

@[simp] theorem write32_trace (x : PortSide) (b : Binding) (p : Port) (w : Dword) :
    (x.write32 b p w).trace = x.trace ++ [.wr32 p w] := by
  unfold PortSide.write32
  cases b.platform <;> simp [writeDwordAt_trace]

@[simp] theorem read8_env (x : PortSide) (b : Binding) (p : Port) : (x.read8 b p).2.env = x.env.tail := by
  simp [PortSide.read8]

@[simp] theorem read32_env (x : PortSide) (b : Binding) (p : Port) : (x.read32 b p).2.env = x.env.tail := by
  simp [PortSide.read32]

@[simp] theorem write8_env (x : PortSide) (b : Binding) (p : Port) (v : Byte) : (x.write8 b p v).env = x.env.tail := by
  unfold PortSide.write8
  cases b.platform <;> simp [writeByteAt_env]

@[simp] theorem write32_env (x : PortSide) (b : Binding) (p : Port) (w : Dword) :
    (x.write32 b p w).env = x.env.tail := by
  unfold PortSide.write32
  cases b.platform <;> simp [writeDwordAt_env]

@[simp] theorem read8_configAddress (x : PortSide) (b : Binding) (p : Port) :
    (x.read8 b p).2.configAddress = x.configAddress := by simp [PortSide.read8]

@[simp] theorem read32_configAddress (x : PortSide) (b : Binding) (p : Port) :
    (x.read32 b p).2.configAddress = x.configAddress := by simp [PortSide.read32]

@[simp] theorem write8_configAddress (x : PortSide) (b : Binding) (p : Port) (v : Byte) :
    (x.write8 b p v).configAddress = x.configAddress := by
  unfold PortSide.write8
  cases b.platform <;> simp [writeByteAt_configAddress]

@[simp] theorem read8_cfg (x : PortSide) (b : Binding) (p : Port) : (x.read8 b p).2.cfg = (envStep x).cfg := by
  simp [PortSide.read8]

@[simp] theorem read8_regs (x : PortSide) (b : Binding) (p : Port) : (x.read8 b p).2.regs = (envStep x).regs := by
  simp [PortSide.read8]

@[simp] theorem read32_cfg (x : PortSide) (b : Binding) (p : Port) : (x.read32 b p).2.cfg = (envStep x).cfg := by
  simp [PortSide.read32]

@[simp] theorem read32_regs (x : PortSide) (b : Binding) (p : Port) : (x.read32 b p).2.regs = (envStep x).regs := by
  simp [PortSide.read32]

theorem write8_wf (x : PortSide) (b : Binding) (p : Port) (v : Byte) (h : Memory.wf x.cfg = true) :
    Memory.wf (x.write8 b p v).cfg = true := by
  unfold PortSide.write8
  cases b.platform
  · exact writeByteAt_wf _ _ _ (envStep_wf x h)
  · exact envStep_wf x h

theorem write32_wf (x : PortSide) (b : Binding) (p : Port) (w : Dword) (h : Memory.wf x.cfg = true) :
    Memory.wf (x.write32 b p w).cfg = true := by
  unfold PortSide.write32
  cases b.platform
  · exact writeDwordAt_wf _ _ _ (envStep_wf x h)
  · exact envStep_wf x h

/-! ### The primitives on the whole state -/

@[simp] theorem afterRead8_acc (s : State) (p : Port) : (afterRead8 s p).acc = s.acc := rfl
@[simp] theorem afterRead8_eng (s : State) (p : Port) : (afterRead8 s p).eng = s.eng := rfl
@[simp] theorem afterRead8_binding (s : State) (p : Port) : (afterRead8 s p).binding = s.binding := rfl
@[simp] theorem afterRead8_inbox (s : State) (p : Port) : (afterRead8 s p).inbox = s.inbox := rfl
@[simp] theorem afterRead32_acc (s : State) (p : Port) : (afterRead32 s p).acc = s.acc := rfl
@[simp] theorem afterRead32_eng (s : State) (p : Port) : (afterRead32 s p).eng = s.eng := rfl
@[simp] theorem afterRead32_binding (s : State) (p : Port) : (afterRead32 s p).binding = s.binding := rfl
@[simp] theorem afterRead32_inbox (s : State) (p : Port) : (afterRead32 s p).inbox = s.inbox := rfl
@[simp] theorem write8_acc (s : State) (p : Port) (v : Byte) : (write8 s p v).acc = s.acc := rfl
@[simp] theorem write8_eng (s : State) (p : Port) (v : Byte) : (write8 s p v).eng = s.eng := rfl
@[simp] theorem write8_binding (s : State) (p : Port) (v : Byte) : (write8 s p v).binding = s.binding := rfl
@[simp] theorem write8_inbox (s : State) (p : Port) (v : Byte) : (write8 s p v).inbox = s.inbox := rfl
@[simp] theorem write32_acc (s : State) (p : Port) (w : Dword) : (write32 s p w).acc = s.acc := rfl
@[simp] theorem write32_eng (s : State) (p : Port) (w : Dword) : (write32 s p w).eng = s.eng := rfl
@[simp] theorem write32_binding (s : State) (p : Port) (w : Dword) : (write32 s p w).binding = s.binding := rfl
@[simp] theorem write32_inbox (s : State) (p : Port) (w : Dword) : (write32 s p w).inbox = s.inbox := rfl
@[simp] theorem afterReg_acc (s : State) (r : Reg) : (afterReg s r).acc = s.acc := rfl
@[simp] theorem afterReg_eng (s : State) (r : Reg) : (afterReg s r).eng = s.eng := rfl
@[simp] theorem afterReg_binding (s : State) (r : Reg) : (afterReg s r).binding = s.binding := rfl
@[simp] theorem afterReg_inbox (s : State) (r : Reg) : (afterReg s r).inbox = s.inbox := rfl
@[simp] theorem wrReg_acc (s : State) (r : Reg) (v : Byte) : (wrReg s r v).acc = s.acc := rfl
@[simp] theorem wrReg_eng (s : State) (r : Reg) (v : Byte) : (wrReg s r v).eng = s.eng := rfl
@[simp] theorem wrReg_binding (s : State) (r : Reg) (v : Byte) : (wrReg s r v).binding = s.binding := rfl
@[simp] theorem wrReg_inbox (s : State) (r : Reg) (v : Byte) : (wrReg s r v).inbox = s.inbox := rfl
@[simp] theorem delay_acc (s : State) (d : DelayKind) : (delay s d).acc = s.acc := rfl
@[simp] theorem delay_eng (s : State) (d : DelayKind) : (delay s d).eng = s.eng := rfl
@[simp] theorem delay_binding (s : State) (d : DelayKind) : (delay s d).binding = s.binding := rfl
@[simp] theorem delay_inbox (s : State) (d : DelayKind) : (delay s d).inbox = s.inbox := rfl
@[simp] theorem emitDiag_acc (s : State) (d : Diag) : (emitDiag s d).acc = s.acc := rfl
@[simp] theorem emitDiag_eng (s : State) (d : Diag) : (emitDiag s d).eng = s.eng := rfl
@[simp] theorem emitDiag_binding (s : State) (d : Diag) : (emitDiag s d).binding = s.binding := rfl
@[simp] theorem emitDiag_inbox (s : State) (d : Diag) : (emitDiag s d).inbox = s.inbox := rfl

@[simp] theorem afterRead8_side_trace (s : State) (p : Port) :
    (afterRead8 s p).side.trace = s.side.trace ++ [.rd8 p (readVal8 s p)] := read8_trace ..
@[simp] theorem afterRead32_side_trace (s : State) (p : Port) :
    (afterRead32 s p).side.trace = s.side.trace ++ [.rd32 p (readVal32 s p)] := read32_trace ..
@[simp] theorem write8_side_trace (s : State) (p : Port) (v : Byte) :
    (write8 s p v).side.trace = s.side.trace ++ [.wr8 p v] := write8_trace ..
@[simp] theorem write32_side_trace (s : State) (p : Port) (w : Dword) :
    (write32 s p w).side.trace = s.side.trace ++ [.wr32 p w] := write32_trace ..
@[simp] theorem afterReg_side_trace (s : State) (r : Reg) :
    (afterReg s r).side.trace = s.side.trace ++ [.rd8 (s.binding.portOf r) (regVal s r)] := read8_trace ..
@[simp] theorem wrReg_side_trace (s : State) (r : Reg) (v : Byte) :
    (wrReg s r v).side.trace = s.side.trace ++ [.wr8 (s.binding.portOf r) v] := write8_trace ..
@[simp] theorem delay_side_trace (s : State) (d : DelayKind) :
    (delay s d).side.trace = s.side.trace ++ [.delay d] := by simp [delay]
@[simp] theorem emitDiag_side_trace (s : State) (d : Diag) :
    (emitDiag s d).side.trace = s.side.trace ++ [.diag d] := rfl

@[simp] theorem goTo_acc (s : State) (p : Phase) : (goTo s p).acc = s.acc := rfl
@[simp] theorem goTo_eng (s : State) (p : Phase) : (goTo s p).eng = { s.eng with st := p } := rfl
@[simp] theorem goTo_binding (s : State) (p : Phase) : (goTo s p).binding = s.binding := rfl
@[simp] theorem goTo_side (s : State) (p : Phase) : (goTo s p).side = s.side := rfl
@[simp] theorem goTo_inbox (s : State) (p : Phase) : (goTo s p).inbox = s.inbox := rfl

@[simp] theorem raiseFail_acc (s : State) (k : FailCode) : (raiseFail s k).acc = s.acc := by cases k <;> rfl
@[simp] theorem raiseFail_eng (s : State) (k : FailCode) :
    (raiseFail s k).eng = { s.eng with fail := k, st := .clearSticky } := by cases k <;> rfl
@[simp] theorem raiseFail_binding (s : State) (k : FailCode) : (raiseFail s k).binding = s.binding := by cases k <;> rfl
@[simp] theorem raiseFail_inbox (s : State) (k : FailCode) : (raiseFail s k).inbox = s.inbox := by cases k <;> rfl

/-! ### Routes -/

theorem target_configAddress (b : Binding) : b.target Config.CFG_ADDR_PORT = .configAddress := rfl

theorem dataPort_eq (reg : Byte) : dataPort reg = Config.CFG_DATA_PORT ||| (reg.extractLsb' 0 2).setWidth 16 := by
  revert reg
  decide

/-- A configuration access's data port reaches the lane of its register number. -/
theorem target_dataPort (b : Binding) (reg : Byte) : b.target (dataPort reg) = .configData (reg.extractLsb' 0 2) := by
  have h1 : ∀ reg : Byte, dataPort reg ≠ Config.CFG_ADDR_PORT := by decide
  have h2 : ∀ reg : Byte, dataPort reg &&& 0xFFFC#16 = Config.CFG_DATA_PORT := by decide
  have h3 : ∀ reg : Byte, (dataPort reg).extractLsb' 0 2 = reg.extractLsb' 0 2 := by decide
  simp only [Binding.target, if_neg (h1 reg), if_pos (h2 reg), h3 reg]

/-- The second byte of a 16-bit access reaches the next lane. -/
theorem target_dataPort_succ (b : Binding) (reg : Byte) (h : fitsWindow reg 2 = true) :
    b.target (dataPort reg + 1#16) = .configData ((reg + 1#8).extractLsb' 0 2) := by
  have h1 : ∀ reg : Byte, fitsWindow reg 2 = true → dataPort reg + 1#16 = dataPort (reg + 1#8) := by decide
  rw [h1 reg h, target_dataPort]

theorem regOffset_toNat (p : Params) (r : Reg) :
    (regOffset p r).toNat = match r with
      | .sts => p.offSts.toNat
      | .en => p.offEn.toNat
      | .cnt => p.offCnt.toNat
      | .hostcnt => p.offHostcnt.toNat
      | .addr => p.offAddr.toNat
      | .cmd => p.offCmd.toNat
      | .pcount => p.offPcount.toNat
      | .count => p.offCount.toNat
      | .byte i => p.offByte.toNat + i.val
      | .devaddr => p.offDevaddr.toNat
      | .db0 => p.offDb0.toNat
      | .db1 => p.offDb1.toNat
      | .slvsts => p.offSlvsts.toNat := by
  cases r with
  | byte i =>
    have h1 := p.offByte.isLt
    have h2 := i.isLt
    simp only [regOffset, BitVec.toNat_add, BitVec.toNat_setWidth, BitVec.toNat_ofNat]
    omega
  | sts => have := p.offSts.isLt; simp only [regOffset, BitVec.toNat_setWidth]; omega
  | en => have := p.offEn.isLt; simp only [regOffset, BitVec.toNat_setWidth]; omega
  | cnt => have := p.offCnt.isLt; simp only [regOffset, BitVec.toNat_setWidth]; omega
  | hostcnt => have := p.offHostcnt.isLt; simp only [regOffset, BitVec.toNat_setWidth]; omega
  | addr => have := p.offAddr.isLt; simp only [regOffset, BitVec.toNat_setWidth]; omega
  | cmd => have := p.offCmd.isLt; simp only [regOffset, BitVec.toNat_setWidth]; omega
  | pcount => have := p.offPcount.isLt; simp only [regOffset, BitVec.toNat_setWidth]; omega
  | count => have := p.offCount.isLt; simp only [regOffset, BitVec.toNat_setWidth]; omega
  | devaddr => have := p.offDevaddr.isLt; simp only [regOffset, BitVec.toNat_setWidth]; omega
  | db0 => have := p.offDb0.isLt; simp only [regOffset, BitVec.toNat_setWidth]; omega
  | db1 => have := p.offDb1.isLt; simp only [regOffset, BitVec.toNat_setWidth]; omega
  | slvsts => have := p.offSlvsts.isLt; simp only [regOffset, BitVec.toNat_setWidth]; omega

theorem portOffsets_eq (p : Params) : p.portOffsets = Reg.all.map fun r => (regOffset p r).toNat := by
  simp only [Reg.all, List.map, regOffset_toNat]
  rfl

theorem Reg.mem_all (r : Reg) : r ∈ Reg.all := by
  cases r with
  | byte i => revert i; decide
  | _ => decide

theorem find_all (r : Reg) : Reg.all.find? (fun q => decide (q = r)) = some r := by
  cases r with
  | byte i => revert i; decide
  | _ => decide

/-- R10: the ports of the register file are pairwise distinct. -/
theorem portOf_inj {b : Binding} (hv : b.params.Valid) {r q : Reg} (h : b.portOf r = b.portOf q) : r = q := by
  have ho : regOffset b.params r = regOffset b.params q := by simpa [Binding.portOf] using h
  have hn := hv.ports_nodup
  rw [portOffsets_eq] at hn
  exact List.inj_on_of_nodup_map hn (Reg.mem_all r) (Reg.mem_all q) (congrArg BitVec.toNat ho)

theorem portOf_not_config {b : Binding} (hc : b.portsClear = true) (r : Reg) : isConfigPort (b.portOf r) = false := by
  have := List.all_eq_true.1 hc r (Reg.mem_all r)
  simpa using this

theorem config_and_mask {p : Port} (h : p &&& 0xFFFC#16 = Config.CFG_DATA_PORT) : isConfigPort p = true := by
  have hp : p = (p &&& 0xFFFC#16) ||| (p &&& 0x3#16) := by
    ext i hi
    simp only [BitVec.getElem_or, BitVec.getElem_and]
    interval_cases i <;> simp
  have h3 : (p &&& 0x3#16).toNat < 4 := by
    rw [BitVec.toNat_and]
    have : p.toNat &&& (0x3#16).toNat ≤ (0x3#16).toNat := Nat.and_le_right
    simp at this
    simp
    omega
  rw [h] at hp
  generalize p &&& 0x3#16 = q at hp h3
  have hq : q = 0#16 ∨ q = 1#16 ∨ q = 2#16 ∨ q = 3#16 := by
    rcases (by omega : q.toNat = 0 ∨ q.toNat = 1 ∨ q.toNat = 2 ∨ q.toNat = 3) with h | h | h | h
    · exact .inl (BitVec.eq_of_toNat_eq h)
    · exact .inr (.inl (BitVec.eq_of_toNat_eq h))
    · exact .inr (.inr (.inl (BitVec.eq_of_toNat_eq h)))
    · exact .inr (.inr (.inr (BitVec.eq_of_toNat_eq h)))
  subst hp
  rcases hq with rfl | rfl | rfl | rfl <;> decide

/-- A port of the register file is routed to its own register. -/
theorem target_portOf {b : Binding} (hv : b.params.Valid) (hb : b.baseValid = true) (hc : b.portsClear = true) (r : Reg) :
    b.target (b.portOf r) = .smbus r := by
  have hn := portOf_not_config hc r
  have h1 : b.portOf r ≠ Config.CFG_ADDR_PORT := by
    intro h
    rw [h] at hn
    exact absurd hn (by decide)
  have h2 : ¬(b.portOf r &&& 0xFFFC#16 = Config.CFG_DATA_PORT) := fun h => by
    rw [config_and_mask h] at hn
    exact absurd hn (by decide)
  have h3 : Reg.all.find? (fun q => decide (b.portOf q = b.portOf r)) = some r := by
    have : (fun q => decide (b.portOf q = b.portOf r)) = fun q => decide (q = r) := by
      funext q
      exact decide_eq_decide.2 ⟨portOf_inj hv, congrArg _⟩
    rw [this, find_all]
  simp only [Binding.target, if_neg h1, if_neg h2, if_pos hb, h3]

end Sys2Proof.Machine
end

