-- ==== Sys2Proof/Laws/Engine.lean ====
section
/-! SUPPORT. What the SMBus engine can do: every phase, and the whole pass, is an `EngineMove`, which says once what no
phase ever touches and what it adds to the record of steps; and one lemma per phase for the engine's registers. -/

namespace Sys2Proof.Machine

/-- The frame of the engine. It leaves the accessor, the binding registers, the client's inputs and the address latch
alone, keeps the configuration memory canonical, issues only permitted accesses (R63), and, in an environment that
changes nothing on its own, leaves the configuration space and the registers it never accesses (R43) as they were. -/
structure EngineMove (s t : State) : Prop where
  acc : t.acc = s.acc
  binding : t.binding = s.binding
  inbox : t.inbox = s.inbox
  latch : t.side.configAddress = s.side.configAddress
  wf : Memory.wf s.side.cfg = true → Memory.wf t.side.cfg = true
  trace : ∃ es, t.side.trace = s.side.trace ++ es ∧ ∀ e ∈ es, allowedEvent s.binding e
  passive : s.side.Passive → t.side.Passive
  cfg : s.side.Passive → s.binding.portsClear = true → t.side.cfg = s.side.cfg
  untouched : s.side.Passive → s.binding.params.Valid → s.binding.baseValid = true → s.binding.portsClear = true →
    ∀ r : Reg, engineAccesses r = false → t.side.regs.get r = s.side.regs.get r

namespace EngineMove

theorem refl (s : State) : EngineMove s s where
  acc := rfl
  binding := rfl
  inbox := rfl
  latch := rfl
  wf := id
  trace := ⟨[], by simp, by simp⟩
  passive := id
  cfg _ _ := rfl
  untouched _ _ _ _ _ _ := rfl

theorem trans {s t u : State} (h : EngineMove s t) (k : EngineMove t u) : EngineMove s u where
  acc := k.acc.trans h.acc
  binding := k.binding.trans h.binding
  inbox := k.inbox.trans h.inbox
  latch := k.latch.trans h.latch
  wf hw := k.wf (h.wf hw)
  trace := by
    obtain ⟨es, h1, h2⟩ := h.trace
    obtain ⟨fs, k1, k2⟩ := k.trace
    refine ⟨es ++ fs, by rw [k1, h1, List.append_assoc], fun e he => ?_⟩
    rcases List.mem_append.1 he with he | he
    · exact h2 e he
    · have := k2 e he
      rwa [h.binding] at this
  passive hp := k.passive (h.passive hp)
  cfg hp hc := (k.cfg (h.passive hp) (by rwa [h.binding])).trans (h.cfg hp hc)
  untouched hp hv hb hc r hr :=
    (k.untouched (h.passive hp) (by rwa [h.binding]) (by rwa [h.binding]) (by rwa [h.binding]) r hr).trans
      (h.untouched hp hv hb hc r hr)

/-- A change of the engine's own registers only. -/
theorem setEng (s : State) (e : Engine) : EngineMove s (s.setEng e) where
  acc := rfl
  binding := rfl
  inbox := rfl
  latch := rfl
  wf := id
  trace := ⟨[], by simp, by simp⟩
  passive := id
  cfg _ _ := rfl
  untouched _ _ _ _ _ _ := rfl

theorem emitDiag (s : State) (d : Diag) : EngineMove s (emitDiag s d) where
  acc := rfl
  binding := rfl
  inbox := rfl
  latch := rfl
  wf := id
  trace := ⟨[.diag d], rfl, by simp [allowedEvent]⟩
  passive := id
  cfg _ _ := rfl
  untouched _ _ _ _ _ _ := rfl

theorem delay (s : State) (d : DelayKind) : EngineMove s (delay s d) where
  acc := rfl
  binding := rfl
  inbox := rfl
  latch := envStep_configAddress _
  wf := envStep_wf _
  trace := ⟨[.delay d], by simp, by simp [allowedEvent]⟩
  passive hp := passive_tail hp (by simp [Machine.delay])
  cfg hp _ := by simp [Machine.delay, envStep_passive hp]
  untouched hp _ _ _ _ _ := by simp [Machine.delay, envStep_passive hp]

theorem afterReg (s : State) {r : Reg} (hr : engineAccesses r = true) : EngineMove s (afterReg s r) where
  acc := rfl
  binding := rfl
  inbox := rfl
  latch := read8_configAddress ..
  wf h := by
    show Memory.wf (s.side.read8 s.binding (s.binding.portOf r)).2.cfg = true
    rw [read8_cfg]
    exact envStep_wf _ h
  trace := ⟨[.rd8 (s.binding.portOf r) (regVal s r)], by simp,
    by simpa [allowedEvent, allowedBytePort] using Or.inr ⟨r, hr, rfl⟩⟩
  passive hp := passive_tail hp (read8_env ..)
  cfg hp _ := by
    show (s.side.read8 s.binding (s.binding.portOf r)).2.cfg = _
    rw [read8_cfg, envStep_passive hp]
  untouched hp _ _ _ q _ := by
    show (s.side.read8 s.binding (s.binding.portOf r)).2.regs.get q = _
    rw [read8_regs, envStep_passive hp]

theorem not_configData {b : Binding} (hc : b.portsClear = true) (r : Reg) (k : BitVec 2) :
    b.target (b.portOf r) ≠ .configData k := by
  intro h
  unfold Binding.target at h
  split at h
  · simp at h
  split at h
  next h2 =>
    have := portOf_not_config hc r
    rw [config_and_mask h2] at this
    simp at this
  split at h
  · split at h <;> simp at h
  · simp at h

theorem wrReg (s : State) {r : Reg} (v : Byte) (hr : engineAccesses r = true) : EngineMove s (wrReg s r v) where
  acc := rfl
  binding := rfl
  inbox := rfl
  latch := write8_configAddress ..
  wf h := write8_wf _ _ _ _ h
  trace := ⟨[.wr8 (s.binding.portOf r) v], by simp,
    by simpa [allowedEvent, allowedBytePort] using Or.inr ⟨r, hr, rfl⟩⟩
  passive hp := passive_tail hp (write8_env ..)
  cfg hp hc := by
    show (s.side.write8 s.binding (s.binding.portOf r) v).cfg = _
    unfold PortSide.write8
    cases s.binding.platform
    · have hn := not_configData hc r
      cases ht : s.binding.target (s.binding.portOf r) with
      | configData k => exact absurd ht (hn k)
      | _ => simp [writeByteAt, envStep_passive hp]
    · simp [envStep_passive hp]
  untouched hp hv hb hc q hq := by
    have hqr : q ≠ r := fun h => by simp [h, hr] at hq
    show (s.side.write8 s.binding (s.binding.portOf r) v).regs.get q = _
    unfold PortSide.write8
    cases s.binding.platform
    · simp [target_portOf hv hb hc, writeByteAt, envStep_passive hp, RegFile.get_portWrite_other _ _ hqr]
    · simp [envStep_passive hp]

theorem raiseFail (s : State) (k : FailCode) : EngineMove s (raiseFail s k) := by
  cases k <;> first | exact setEng .. | exact (setEng s _).trans (emitDiag _ _)

theorem goTo (s : State) (p : Phase) : EngineMove s (goTo s p) := setEng ..

/-! ### The phases -/

theorem winReg_accessed (i : Nat) : engineAccesses (winReg i) = true := rfl

theorem placeWindow (s : State) (first i n : Nat) : EngineMove s (placeWindow s first i n) := by
  induction n generalizing s i with
  | zero => exact refl s
  | succ n ih => exact (wrReg s _ (winReg_accessed i)).trans (ih ..)

theorem fetchWindow (s : State) (i n : Nat) : EngineMove s (fetchWindow s i n) := by
  induction n generalizing s i with
  | zero => exact refl s
  | succ n ih => exact ((afterReg s (winReg_accessed i)).trans (setEng ..)).trans (ih ..)

theorem busyCheck (s : State) : EngineMove s (busyCheck s) := (afterReg s rfl).trans (setEng ..)

theorem beforeRecheck (s : State) : EngineMove s (beforeRecheck s) := by
  unfold Machine.beforeRecheck
  split
  · exact (wrReg s _ rfl).trans (delay ..)
  · exact delay ..

theorem recheck (s : State) : EngineMove s (recheck s) := by
  unfold Machine.recheck
  have h := (afterReg (r := .cnt) s rfl).trans (setEng _
    { (Machine.afterReg s .cnt).eng with c := regVal s .cnt, retry := (Machine.afterReg s .cnt).eng.retry + 1 })
  simp only
  split
  · split
    · exact h.trans (raiseFail ..)
    · exact h
  · exact h.trans (goTo ..)

theorem recover (s : State) : EngineMove s (recover s) := (beforeRecheck s).trans (recheck _)

theorem readControl (s : State) : EngineMove s (readControl s) := (afterReg s rfl).trans (setEng ..)

theorem clearFlags (s : State) : EngineMove s (clearFlags s) :=
  (((readControl s).trans (wrReg _ _ rfl)).trans (wrReg _ _ rfl)).trans (goTo ..)

theorem programOperands (s : State) : EngineMove s (programOperands s) := by
  unfold Machine.programOperands
  split
  · exact refl s
  · exact refl s
  · exact refl s
  · exact wrReg _ _ rfl
  · exact wrReg _ _ rfl
  · exact (wrReg s _ rfl).trans (wrReg _ _ rfl)
  · exact wrReg _ _ rfl
  · exact (((wrReg s _ rfl).trans (wrReg _ _ rfl)).trans (placeWindow ..)).trans (setEng ..)

theorem startTransfer (s : State) : EngineMove s (startTransfer s) :=
  (((wrReg s _ rfl).trans (programOperands _)).trans (wrReg _ _ rfl)).trans (setEng ..)

theorem fetchByte (s : State) : EngineMove s (fetchByte s) := (afterReg s rfl).trans (setEng ..)

theorem afterPoll (s : State) : EngineMove s (afterPoll s) := by
  unfold Machine.afterPoll
  split <;> first | exact goTo .. | exact fetchByte s

theorem readStatus (s : State) : EngineMove s (readStatus s) := (afterReg s rfl).trans (setEng ..)

theorem judgeStatus (s : State) : EngineMove s (judgeStatus s) := by
  unfold Machine.judgeStatus
  split
  · exact raiseFail ..
  split
  · exact afterPoll s
  split
  · exact raiseFail ..
  · exact refl s

theorem pollComplete (s : State) : EngineMove s (pollComplete s) :=
  ((delay s .poll).trans (readStatus _)).trans (judgeStatus _)

theorem loadCount (s : State) : EngineMove s (loadCount s) := (afterReg s rfl).trans (setEng ..)

theorem readCount (s : State) : EngineMove s (readCount s) := by
  unfold Machine.readCount
  split
  · exact loadCount s
  · exact refl s

theorem endGroup (s : State) : EngineMove s (endGroup s) := by
  unfold Machine.endGroup
  split <;> exact setEng ..

theorem fetchGroup (s : State) : EngineMove s (fetchGroup s) :=
  (((fetchWindow s _ _).trans (setEng ..)).trans (wrReg _ _ rfl)).trans (endGroup _)

theorem blockReadLoop (s : State) : EngineMove s (blockReadLoop s) := by
  unfold Machine.blockReadLoop
  simp only
  split
  · exact (readCount s).trans (setEng ..)
  · exact (readCount s).trans (fetchGroup _)

theorem blockWriteLoop (s : State) : EngineMove s (blockWriteLoop s) :=
  (((placeWindow s _ _ _).trans (setEng ..)).trans (wrReg _ _ rfl)).trans (setEng ..)

theorem endPass (s : State) : EngineMove s (endPass s) := by
  unfold Machine.endPass
  split <;> exact setEng ..

theorem clearSticky (s : State) : EngineMove s (clearSticky s) := (wrReg s _ rfl).trans (endPass _)

theorem enginePhase (s : State) : EngineMove s (enginePhase s) := by
  unfold Machine.enginePhase
  split
  · exact refl s
  · exact busyCheck s
  · exact recover s
  · exact clearFlags s
  · exact startTransfer s
  · exact pollComplete s
  · exact blockReadLoop s
  · exact clearSticky s
  · exact refl s
  · exact refl s
  · exact blockWriteLoop s

theorem runEngine (n : Nat) (s : State) : EngineMove s (runEngine n s) := by
  induction n generalizing s with
  | zero => exact refl s
  | succ n ih =>
    rw [Machine.runEngine]
    split
    · exact refl s
    · exact (enginePhase s).trans (ih _)

theorem runPass (s : State) : EngineMove s (runPass s) := runEngine ..

theorem latchSmb (s : State) (t : Xfer) (rw : Dir) (sa : BitVec 7) (cmd : Byte) (data : List Byte) :
    EngineMove s (latchSmb s t rw sa cmd data) := setEng ..

end EngineMove

/-! ### The engine's registers after each phase -/

@[simp] theorem placeWindow_eng (s : State) (first i n : Nat) : (placeWindow s first i n).eng = s.eng := by
  induction n generalizing s i with
  | zero => rfl
  | succ n ih => rw [placeWindow, ih, wrReg_eng]

@[simp] theorem placeWindow_binding (s : State) (first i n : Nat) : (placeWindow s first i n).binding = s.binding :=
  (EngineMove.placeWindow s first i n).binding

@[simp] theorem fetchWindow_binding (s : State) (i n : Nat) : (fetchWindow s i n).binding = s.binding :=
  (EngineMove.fetchWindow s i n).binding

/-- Fetching window bytes changes no register of the engine but `x[rbuf]`. -/
theorem fetchWindow_eng (s : State) (i n : Nat) :
    (fetchWindow s i n).eng = { s.eng with rbuf := (fetchWindow s i n).eng.rbuf } := by
  induction n generalizing s i with
  | zero => rfl
  | succ n ih =>
    rw [fetchWindow]
    rw [ih]
    rfl

@[simp] theorem beforeRecheck_eng (s : State) : (beforeRecheck s).eng = s.eng := by
  unfold beforeRecheck
  split <;> rfl

@[simp] theorem beforeRecheck_binding (s : State) : (beforeRecheck s).binding = s.binding :=
  (EngineMove.beforeRecheck s).binding

theorem busyCheck_eng (s : State) :
    (busyCheck s).eng = { s.eng with
      c := regVal s .cnt
      st := if isBusy s.binding.params (regVal s .cnt) then .recover else .clearFlags } := rfl

theorem recover_eng (s : State) :
    (recover s).eng =
      let c := regVal (beforeRecheck s) .cnt
      { s.eng with
        c := c
        retry := s.eng.retry + 1
        fail := if isBusy s.binding.params c ∧ retrySpent (s.eng.retry + 1) = true then .busContention else s.eng.fail
        st := if isBusy s.binding.params c then
                if retrySpent (s.eng.retry + 1) then .clearSticky else s.eng.st
              else .clearFlags } := by
  unfold recover recheck
  simp only [State.setEng_binding, afterReg_binding, beforeRecheck_binding, State.setEng_eng, afterReg_eng,
    beforeRecheck_eng]
  split
  · split <;> simp_all
  · simp_all

theorem clearFlags_eng (s : State) :
    (clearFlags s).eng = { s.eng with c := regVal s .cnt, st := .startTransfer } := rfl

theorem programOperands_eng (s : State) :
    (programOperands s).eng = { s.eng with
      got := if s.eng.type = .blockData ∧ s.eng.rw = .write then min s.eng.wlen Config.WINDOW else s.eng.got } := by
  obtain ⟨a, ⟨st, type, rw, sa, cmd, wlen, wbuf, retry, poll, c, v, cnt, got, rbuf, rlen, ok, fail⟩, b, x, l⟩ := s
  cases type <;> cases rw <;> simp [programOperands, setGot]

@[simp] theorem programOperands_binding (s : State) : (programOperands s).binding = s.binding :=
  (EngineMove.programOperands s).binding

theorem startTransfer_eng (s : State) :
    (startTransfer s).eng = { s.eng with
      got := if s.eng.type = .blockData ∧ s.eng.rw = .write then min s.eng.wlen Config.WINDOW else s.eng.got
      poll := 0
      st := .pollComplete } := by
  simp only [startTransfer, awaitPoll, State.setEng_eng, wrReg_eng, programOperands_eng]
  rfl

theorem fetchByte_eng (s : State) :
    (fetchByte s).eng = { s.eng with
      rbuf := bufPut s.eng.rbuf 0 (regVal s (winReg 0)), rlen := 1, st := .clearSticky } := rfl

theorem readCount_eng (s : State) :
    (readCount s).eng = { s.eng with
      cnt := if s.eng.got = 0 then capCount (regVal s .count) else s.eng.cnt } := by
  unfold readCount
  split <;> simp_all [loadCount]

@[simp] theorem readCount_binding (s : State) : (readCount s).binding = s.binding := (EngineMove.readCount s).binding

theorem endGroup_eng (s : State) :
    (endGroup s).eng = { s.eng with
      poll := if moreGroups s.eng.got s.eng.cnt then 0 else s.eng.poll
      rlen := if moreGroups s.eng.got s.eng.cnt then s.eng.rlen else s.eng.cnt
      st := if moreGroups s.eng.got s.eng.cnt then .pollComplete else .clearSticky } := by
  unfold endGroup
  split <;> simp_all [awaitPoll]

theorem fetchGroup_eng (s : State) :
    (fetchGroup s).eng =
      let got := s.eng.got + groupSize s.eng.cnt s.eng.got
      { s.eng with
        rbuf := (fetchWindow s 0 (groupSize s.eng.cnt s.eng.got)).eng.rbuf
        got := got
        poll := if moreGroups got s.eng.cnt then 0 else s.eng.poll
        rlen := if moreGroups got s.eng.cnt then s.eng.rlen else s.eng.cnt
        st := if moreGroups got s.eng.cnt then .pollComplete else .clearSticky } := by
  have h : ∀ t : State, t.eng = { s.eng with rbuf := t.eng.rbuf } → ∀ (n : Nat) (v : Byte),
      (wrReg (setGot t (t.eng.got + n)) .sts v).eng = { s.eng with rbuf := t.eng.rbuf, got := s.eng.got + n } := by
    intro t ht n v
    rw [wrReg_eng, setGot, State.setEng_eng, ht]
  rw [fetchGroup, endGroup_eng, h _ (fetchWindow_eng s 0 _)]

theorem blockWriteLoop_eng (s : State) :
    (blockWriteLoop s).eng = { s.eng with
      got := s.eng.got + groupSize s.eng.wlen s.eng.got, poll := 0, st := .pollComplete } := by
  simp [blockWriteLoop, awaitPoll, setGot]

theorem clearSticky_eng (s : State) :
    (clearSticky s).eng = { s.eng with
      ok := decide (s.eng.fail = .noFailure)
      rlen := if s.eng.fail = .noFailure then s.eng.rlen else 0
      st := if s.eng.fail = .noFailure then .done else .failed } := by
  unfold clearSticky endPass
  simp only [wrReg_eng]
  split <;> simp_all

end Sys2Proof.Machine
end

