-- ==== Sys2Proof/Laws/Pass.lean ====
section
/-! SUPPORT. How long a pass can take, and what the SMBus operations answer: a bound on the phases left that every
phase lowers, so that `runPass` ends in Done or Failed; and the inversion of `smbOperation`. -/

namespace Sys2Proof.Machine

/-! ### One poll -/

theorem afterPoll_eng (s : State) :
    (afterPoll s).eng = { s.eng with
      rbuf := if (s.eng.type = .byte ∨ s.eng.type = .byteData) ∧ s.eng.rw = .read then
          bufPut s.eng.rbuf 0 (regVal s (winReg 0)) else s.eng.rbuf
      rlen := if (s.eng.type = .byte ∨ s.eng.type = .byteData) ∧ s.eng.rw = .read then 1 else s.eng.rlen
      st := match s.eng.type, s.eng.rw with
        | .blockData, .read => .blockReadLoop
        | .blockData, .write => if s.eng.got < s.eng.wlen then .blockWriteLoop else .clearSticky
        | .quick, _ => .clearSticky
        | .byte, _ => .clearSticky
        | .byteData, _ => .clearSticky } := by
  obtain ⟨a, ⟨st, type, rw, sa, cmd, wlen, wbuf, retry, poll, c, v, cnt, got, rbuf, rlen, ok, fail⟩, b, x, l⟩ := s
  cases type <;> cases rw <;> simp [afterPoll, fetchByte_eng, moreGroups]

/-- One poll, with v the status value it reads. -/
theorem pollComplete_eng (s : State) :
    (pollComplete s).eng =
      let v := regVal (delay s .poll) .sts
      let e := { s.eng with s := v, poll := s.eng.poll + 1 }
      let t := (afterReg (delay s .poll) .sts).setEng e
      if isError s.binding.params v then { e with fail := .transferFailure, st := .clearSticky }
      else if isComplete s.binding.params s.eng.type v then (afterPoll t).eng
      else if pollSpent (s.eng.poll + 1) then { e with fail := .transferTimeout, st := .clearSticky }
      else e := by
  by_cases h1 : isError s.binding.params (regVal (delay s .poll) .sts) = true
  · simp [pollComplete, judgeStatus, readStatus, h1]
  by_cases h2 : isComplete s.binding.params s.eng.type (regVal (delay s .poll) .sts) = true
  · simp [pollComplete, judgeStatus, readStatus, h1, h2]
  by_cases h3 : pollSpent (s.eng.poll + 1) = true
  · simp [pollComplete, judgeStatus, readStatus, h1, h2, h3]
  · simp [pollComplete, judgeStatus, readStatus, h1, h2, h3]

theorem blockReadLoop_eng (s : State) :
    (blockReadLoop s).eng =
      if (readCount s).eng.cnt = 0 then { (readCount s).eng with rlen := 0, st := .clearSticky }
      else (fetchGroup (readCount s)).eng := by
  unfold blockReadLoop
  simp only
  split <;> rfl

/-! ### The phases left -/

/-- The phases a pass can have left after the present stay in PollComplete and before its last. -/
def Engine.later (e : Engine) : Nat :=
  match e.type, e.rw with
  | .blockData, .read => 41 * ((39 - e.got) / 8 - 1) + 1
  | .blockData, .write => 41 * ((e.wlen - e.got + 7) / 8)
  | .quick, _ => 0
  | .byte, _ => 0
  | .byteData, _ => 0

/-- An upper bound on the phases a pass has left (R173). -/
def Engine.left (e : Engine) : Nat :=
  match e.st with
  | .idle => 0
  | .done => 0
  | .failed => 0
  | .clearSticky => 1
  | .pollComplete => 40 - e.poll + 1 + e.later
  | .blockReadLoop => e.later + 1
  | .blockWriteLoop => e.later + 1
  | .startTransfer => 166
  | .clearFlags => 167
  | .recover => 10 - e.retry + 167
  | .busyCheck => 178

/-- What holds of the engine during a pass and makes `left` an upper bound. -/
structure Engine.OnPass (e : Engine) : Prop where
  wlen : e.wlen ≤ 32
  cnt : e.cnt ≤ 32
  fresh : e.st = .busyCheck ∨ e.st = .recover ∨ e.st = .clearFlags ∨ e.st = .startTransfer → e.got = 0
  start : e.st = .busyCheck → e.retry = 0
  retry : e.st = .recover → e.retry < 10
  poll : e.st = .pollComplete → e.poll < 40
  readLoop : e.st = .blockReadLoop → e.type = .blockData ∧ e.rw = .read
  writeLoop : e.st = .blockWriteLoop → e.type = .blockData ∧ e.rw = .write ∧ e.got < e.wlen
  reads : e.type = .blockData → e.rw = .read → e.st = .pollComplete ∨ e.st = .blockReadLoop →
    e.got ≤ 24 ∧ e.got % 8 = 0
  writes : e.type = .blockData → e.rw = .write → e.st = .pollComplete ∨ e.st = .blockWriteLoop →
    e.got ≤ e.wlen ∧ e.wlen ≤ e.got + 24 ∧ (e.got < e.wlen → e.got % 8 = 0)

/-- A phase that lowers the bound. -/
def Lowers (e f : Engine) : Prop := f.OnPass ∧ f.left < e.left

theorem onPass_latch (s : State) (t : Xfer) (rw : Dir) (sa : BitVec 7) (cmd : Byte) (data : List Byte)
    (h : data.length ≤ 32) : (latchSmb s t rw sa cmd data).eng.OnPass := by
  constructor <;> simp [latchSmb, h]

/-- Any engine that goes to ClearSticky from an earlier state lowers the bound. -/
theorem lowers_clearSticky {e f : Engine} (h : e.OnPass) (hf : f.st = .clearSticky) (hw : f.wlen = e.wlen)
    (hc : f.cnt ≤ 32) (he : 1 < e.left) : Lowers e f := by
  have := h.wlen
  refine ⟨?_, by simpa [Engine.left, hf] using he⟩
  constructor <;> simp_all

theorem busyCheck_lowers (s : State) (h : s.eng.OnPass) (hs : s.eng.st = .busyCheck) :
    Lowers s.eng (busyCheck s).eng := by
  obtain ⟨wlen, cnt, fresh, start, -, -, -, -, -, -⟩ := h
  rw [busyCheck_eng]
  cases isBusy s.binding.params (regVal s .cnt) <;>
  · constructor
    · constructor <;> simp_all
    · simp_all [Engine.left]

theorem recover_lowers (s : State) (h : s.eng.OnPass) (hs : s.eng.st = .recover) : Lowers s.eng (recover s).eng := by
  obtain ⟨wlen, cnt, fresh, -, retry, -, -, -, -, -⟩ := h
  rw [recover_eng]
  simp only [retrySpent, Config.N_BUSY_RETRY]
  cases isBusy s.binding.params (regVal (beforeRecheck s) .cnt) <;> by_cases hr : s.eng.retry + 1 = 10 <;>
  · constructor
    · constructor <;> simp_all <;> omega
    · simp_all [Engine.left] <;> omega

theorem clearFlags_lowers (s : State) (h : s.eng.OnPass) (hs : s.eng.st = .clearFlags) :
    Lowers s.eng (clearFlags s).eng := by
  obtain ⟨wlen, cnt, fresh, -, -, -, -, -, -, -⟩ := h
  rw [clearFlags_eng]
  constructor
  · constructor <;> simp_all
  · simp_all [Engine.left]

theorem startTransfer_lowers (s : State) (h : s.eng.OnPass) (hs : s.eng.st = .startTransfer) :
    Lowers s.eng (startTransfer s).eng := by
  obtain ⟨wlen, cnt, fresh, -, -, -, -, -, -, -⟩ := h
  have h0 : s.eng.got = 0 := fresh (by simp [hs])
  rw [startTransfer_eng]
  cases ht : s.eng.type <;> cases hr : s.eng.rw <;>
  · constructor
    · constructor <;> simp [ht, hr, h0, Config.WINDOW, wlen, cnt] <;> omega
    · simp [Engine.left, Engine.later, hs, ht, hr, h0, Config.WINDOW] <;> omega

theorem pollComplete_lowers (s : State) (h : s.eng.OnPass) (hs : s.eng.st = .pollComplete) :
    Lowers s.eng (pollComplete s).eng := by
  have hp := h.poll hs
  have hl : 1 < s.eng.left := by simp only [Engine.left, hs]; omega
  rw [pollComplete_eng]
  by_cases h1 : isError s.binding.params (regVal (delay s .poll) .sts) = true
  · simp only [h1, if_true]
    exact lowers_clearSticky h rfl rfl h.cnt hl
  by_cases h2 : isComplete s.binding.params s.eng.type (regVal (delay s .poll) .sts) = true
  · simp only [if_neg h1, h2, if_true, afterPoll_eng, State.setEng_eng]
    obtain ⟨wlen, cnt, -, -, -, -, -, -, reads, writes⟩ := id h
    cases ht : s.eng.type <;> cases hr : s.eng.rw
    case blockData.read =>
      obtain ⟨h5, h6⟩ := reads ht hr (.inl hs)
      constructor
      · constructor <;> simp [*]
      · simp [Engine.left, Engine.later, hs, ht, hr]; omega
    case blockData.write =>
      obtain ⟨h5, h6, h7⟩ := writes ht hr (.inl hs)
      by_cases hg : s.eng.got < s.eng.wlen
      · simp only [hg, if_true]
        constructor
        · constructor <;> simp [*]
        · simp [Engine.left, Engine.later, hs, ht, hr]; omega
      · simp only [hg, if_false]
        exact lowers_clearSticky h rfl rfl cnt hl
    all_goals exact lowers_clearSticky h rfl rfl cnt hl
  by_cases h3 : pollSpent (s.eng.poll + 1) = true
  · simp only [if_neg h1, if_neg h2, h3, if_true]
    exact lowers_clearSticky h rfl rfl h.cnt hl
  · simp only [if_neg h1, if_neg h2, if_neg h3]
    have h4 : s.eng.poll + 1 ≠ 40 := by simpa [pollSpent, Config.N_POLL] using h3
    obtain ⟨wlen, cnt, -, -, -, -, -, -, reads, writes⟩ := h
    constructor
    · constructor <;> simp_all <;> omega
    · simp [Engine.left, Engine.later, hs]; omega

theorem blockReadLoop_lowers (s : State) (h : s.eng.OnPass) (hs : s.eng.st = .blockReadLoop) :
    Lowers s.eng (blockReadLoop s).eng := by
  obtain ⟨ht, hr⟩ := h.readLoop hs
  obtain ⟨h24, h8⟩ := h.reads ht hr (.inr hs)
  have hl : 1 < s.eng.left := by simp only [Engine.left, Engine.later, hs, ht, hr]; omega
  have hc : (readCount s).eng.cnt ≤ 32 := by
    have := h.cnt
    rw [readCount_eng]
    simp only [capCount, Config.BLOCK_MAX]
    split <;> omega
  have he : (readCount s).eng = { s.eng with cnt := (readCount s).eng.cnt } := by rw [readCount_eng]
  rw [blockReadLoop_eng]
  generalize readCount s = t at hc he
  have hg : t.eng.got = s.eng.got := by rw [he]
  have hw : t.eng.wlen = s.eng.wlen := by rw [he]
  split
  · exact lowers_clearSticky h rfl hw hc hl
  · rw [fetchGroup_eng]
    simp only [moreGroups, groupSize, Config.WINDOW, hg]
    by_cases hm : s.eng.got + min 8 (t.eng.cnt - s.eng.got) < t.eng.cnt
    · simp only [hm, decide_true, if_true]
      have h1 : t.eng.type = .blockData := by rw [he]; exact ht
      have h2 : t.eng.rw = .read := by rw [he]; exact hr
      have h3 := h.wlen
      constructor
      · constructor <;> simp [h1, h2, hw, h3, hc] <;> omega
      · simp [Engine.left, Engine.later, hs, ht, hr, h1, h2]; omega
    · simp only [hm, decide_false, Bool.false_eq_true, if_false]
      exact lowers_clearSticky h rfl hw hc hl

theorem clearSticky_lowers (s : State) (h : s.eng.OnPass) (hs : s.eng.st = .clearSticky) :
    Lowers s.eng (clearSticky s).eng := by
  obtain ⟨wlen, cnt, -, -, -, -, -, -, -, -⟩ := h
  rw [clearSticky_eng]
  by_cases hf : s.eng.fail = .noFailure <;>
  · constructor
    · constructor <;> simp_all
    · simp_all [Engine.left]

theorem blockWriteLoop_lowers (s : State) (h : s.eng.OnPass) (hs : s.eng.st = .blockWriteLoop) :
    Lowers s.eng (blockWriteLoop s).eng := by
  obtain ⟨ht, hr, hg⟩ := h.writeLoop hs
  obtain ⟨h4, h5, h6⟩ := h.writes ht hr (.inr hs)
  have h7 := h.wlen
  have h8 := h.cnt
  rw [blockWriteLoop_eng]
  simp only [groupSize, Config.WINDOW]
  constructor
  · constructor <;> simp [ht, hr, h7, h8] <;> omega
  · simp [Engine.left, Engine.later, hs, ht, hr]; omega

/-- Every phase of a pass lowers the bound on what is left of it. -/
theorem enginePhase_lowers (s : State) (h : s.eng.OnPass) (hs : s.eng.st.accepting = false) :
    Lowers s.eng (enginePhase s).eng := by
  unfold enginePhase
  split
  next hst => simp [hst, Phase.accepting] at hs
  next hst => exact busyCheck_lowers s h hst
  next hst => exact recover_lowers s h hst
  next hst => exact clearFlags_lowers s h hst
  next hst => exact startTransfer_lowers s h hst
  next hst => exact pollComplete_lowers s h hst
  next hst => exact blockReadLoop_lowers s h hst
  next hst => exact clearSticky_lowers s h hst
  next hst => simp [hst, Phase.accepting] at hs
  next hst => simp [hst, Phase.accepting] at hs
  next hst => exact blockWriteLoop_lowers s h hst

/-- With at least the phases left as fuel, the pass ends. -/
theorem runEngine_ends (n : Nat) (s : State) (h : s.eng.OnPass) (hn : s.eng.left ≤ n) :
    (runEngine n s).eng.st.accepting = true := by
  induction n generalizing s with
  | zero =>
    have h0 : s.eng.left = 0 := Nat.le_zero.1 hn
    rw [runEngine]
    cases hs : s.eng.st <;> simp_all [Engine.left, Phase.accepting]
  | succ n ih =>
    rw [runEngine]
    split
    · assumption
    next hs =>
      obtain ⟨h1, h2⟩ := enginePhase_lowers s h (by simpa using hs)
      exact ih _ h1 (by omega)

/-- The engine on a pass at each of its ends: a fixed point of more fuel. -/
theorem runEngine_accepting (n : Nat) (s : State) (h : s.eng.st.accepting = true) : runEngine n s = s := by
  cases n <;> simp [runEngine, h]

/-- R173: the pass of a command with at most 32 data bytes ends in Done or Failed. -/
theorem runPass_ends (s : State) (t : Xfer) (rw : Dir) (sa : BitVec 7) (cmd : Byte) (data : List Byte)
    (h : data.length ≤ 32) : (runPass (latchSmb s t rw sa cmd data)).eng.st.accepting = true :=
  runEngine_ends _ _ (onPass_latch s t rw sa cmd data h) (Nat.le_refl _)

/-! ### What the SMBus operations answer -/

/-- An SMBus operation answers next exactly when it is accepted, and then with the state after its pass. -/
theorem smbOperation_next {s u : State} {t : Xfer} {rw : Dir} {sa : BitVec 7} {cmd : Byte} {data : List Byte} :
    smbOperation s t rw sa cmd data = .next u ↔ SmbReady s ∧ u = runPass (latchSmb s t rw sa cmd data) := by
  unfold smbOperation whenIdle SmbReady
  cases s.eng.st.accepting <;> cases s.binding.baseValid <;> cases s.binding.portsClear <;> simp [eq_comm]

/-- Each of the eight instructions is the shared operation on its operands (R180 to R187). -/
theorem exec_smb {i : Instr} {t : Xfer} {rw : Dir} {sa : BitVec 7} {cmd : Byte} {data : List Byte}
    (h : smbOperands i = some (t, rw, sa, cmd, data)) (hw : i.wellFormed = true) (s : State) :
    exec i s = smbOperation s t rw sa cmd data := by
  cases i <;> simp only [smbOperands, Option.some.injEq, Prod.mk.injEq, reduceCtorEq] at h
  case smbWriteBlockData sa' cmd' data' =>
    obtain ⟨rfl, rfl, rfl, rfl, rfl⟩ := h
    exact if_pos hw
  all_goals
    obtain ⟨rfl, rfl, rfl, rfl, rfl⟩ := h
    rfl

/-- A well-formed SMBus instruction carries at most 32 data bytes. -/
theorem smbOperands_length {i : Instr} {t : Xfer} {rw : Dir} {sa : BitVec 7} {cmd : Byte} {data : List Byte}
    (h : smbOperands i = some (t, rw, sa, cmd, data)) (hw : i.wellFormed = true) : data.length ≤ 32 := by
  cases i <;> simp only [smbOperands, Option.some.injEq, Prod.mk.injEq, reduceCtorEq] at h
  case smbWriteBlockData sa' cmd' data' =>
    obtain ⟨rfl, rfl, rfl, rfl, rfl⟩ := h
    have := of_decide_eq_true hw
    exact this.2
  all_goals
    obtain ⟨rfl, rfl, rfl, rfl, rfl⟩ := h
    simp

end Sys2Proof.Machine
end

