-- ==== Sys2Proof/Laws/PciConfig.lean ====
section
/-! SUPPORT. What the PCI configuration accessor can do: where an address word routes a data access, and `CfgMove`,
which says once what no configuration operation ever touches and what it adds to the record of steps. -/

namespace Sys2Proof.Machine

/-! ### The address word -/

theorem cfgAddr_enabled (b : BitVec 8) (d : BitVec 5) (f : BitVec 3) (r : Byte) : (cfgAddr b d f r).getLsbD 31 = true := by
  simp [cfgAddr, Config.CFG_ENABLE]

/-- Bits 23:8 of the address word are the linear index. -/
theorem cfgAddr_index (b : BitVec 8) (d : BitVec 5) (f : BitVec 3) (r : Byte) :
    (cfgAddr b d f r).extractLsb' 8 16 = lin b d f := by
  apply BitVec.eq_of_getLsbD_eq
  intro i hi
  simp only [cfgAddr, lin, Config.CFG_ENABLE, Config.CFG_REG_MASK, BitVec.getLsbD_extractLsb', BitVec.getLsbD_or,
    BitVec.getLsbD_shiftLeft, BitVec.getLsbD_setWidth, BitVec.getLsbD_and]
  interval_cases i <;> simp

/-- Bits 7:2 are those of the register number. -/
theorem cfgAddr_dword (b : BitVec 8) (d : BitVec 5) (f : BitVec 3) (r : Byte) :
    (cfgAddr b d f r).extractLsb' 2 6 = r.extractLsb' 2 6 := by
  apply BitVec.eq_of_getLsbD_eq
  intro i hi
  simp only [cfgAddr, Config.CFG_ENABLE, Config.CFG_REG_MASK, BitVec.getLsbD_extractLsb', BitVec.getLsbD_or,
    BitVec.getLsbD_shiftLeft, BitVec.getLsbD_setWidth, BitVec.getLsbD_and]
  interval_cases i <;> simp

/-- Lane k under the address word reaches the k-th byte of the addressed dword. -/
theorem routedCell_cfgAddr (b : BitVec 8) (d : BitVec 5) (f : BitVec 3) (r : Byte) (k : BitVec 2) :
    routedCell (cfgAddr b d f r) k = cfgCell (lin b d f) (r.extractLsb' 2 6 ++ k) := by
  rw [routedCell, cfgAddr_index, cfgAddr_dword]

/-- The lane of a register number reaches the register. -/
theorem routedCell_lane (b : BitVec 8) (d : BitVec 5) (f : BitVec 3) (r : Byte) :
    routedCell (cfgAddr b d f r) (r.extractLsb' 0 2) = cfgCell (lin b d f) r := by
  have h : ∀ r : Byte, (r.extractLsb' 2 6 ++ r.extractLsb' 0 2 : BitVec (6 + 2)) = r := by decide
  rw [routedCell_cfgAddr]
  exact congrArg _ (h r)

theorem dataPort_config (r : Byte) : 0xCFC ≤ (dataPort r).toNat ∧ (dataPort r).toNat ≤ 0xCFF := by
  revert r
  decide

theorem dataPort_succ_config {r : Byte} (h : fitsWindow r 2 = true) :
    0xCFC ≤ (dataPort r + 1#16).toNat ∧ (dataPort r + 1#16).toNat ≤ 0xCFF := by
  revert r
  decide

theorem dataPort_aligned {r : Byte} (h : fitsWindow r 4 = true) : dataPort r = 0xCFC#16 := by
  revert r
  decide

/-! ### The visitor's call -/

theorem callVisitor_trace (s : State) : (callVisitor s).side.trace =
    s.side.trace ++ [.visit (idxBus s.acc.idx) (idxDev s.acc.idx) (idxFn s.acc.idx)] := by
  simp [callVisitor, scanTriple]

/-! ### The frame -/

/-- What every configuration operation keeps: the engine, the binding registers and the client's inputs; the canonical
form of configuration memory; permitted accesses only (R63); a passive environment; and the scan position. -/
structure CfgMove (s t : State) : Prop where
  eng : t.eng = s.eng
  binding : t.binding = s.binding
  inbox : t.inbox = s.inbox
  wf : Memory.wf s.side.cfg = true → Memory.wf t.side.cfg = true
  trace : ∃ es, t.side.trace = s.side.trace ++ es ∧ ∀ e ∈ es, allowedEvent s.binding e
  passive : s.side.Passive → t.side.Passive
  idx : t.acc.idx = s.acc.idx

namespace CfgMove

theorem refl (s : State) : CfgMove s s where
  eng := rfl
  binding := rfl
  inbox := rfl
  wf := id
  trace := ⟨[], by simp, by simp⟩
  passive := id
  idx := rfl

theorem trans {s t u : State} (h : CfgMove s t) (k : CfgMove t u) : CfgMove s u where
  eng := k.eng.trans h.eng
  binding := k.binding.trans h.binding
  inbox := k.inbox.trans h.inbox
  wf hw := k.wf (h.wf hw)
  trace := by
    obtain ⟨es, h1, h2⟩ := h.trace
    obtain ⟨fs, k1, k2⟩ := k.trace
    refine ⟨es ++ fs, by rw [k1, h1, List.append_assoc], fun e he => ?_⟩
    rcases List.mem_append.1 he with he | he
    · exact h2 e he
    · have := k2 e he
      rwa [h.binding] at this
  passive hp := k.passive (h.passive hp)
  idx := k.idx.trans h.idx

/-- A change of the accessor's registers, the scan position apart. -/
theorem setAcc (s : State) (a : Accessor) (h : a.idx = s.acc.idx) : CfgMove s (s.setAcc a) where
  eng := rfl
  binding := rfl
  inbox := rfl
  wf := id
  trace := ⟨[], by simp, by simp⟩
  passive := id
  idx := h

theorem write32 (s : State) (p : Port) (w : Dword) (hp : p = 0xCF8#16 ∨ p = 0xCFC#16) :
    CfgMove s (write32 s p w) where
  eng := rfl
  binding := rfl
  inbox := rfl
  wf h := write32_wf _ _ _ _ h
  trace := ⟨[.wr32 p w], by simp, by simpa [allowedEvent] using hp⟩
  passive h := passive_tail h (write32_env ..)
  idx := rfl

theorem write8 (s : State) (p : Port) (v : Byte) (hp : 0xCFC ≤ p.toNat ∧ p.toNat ≤ 0xCFF) : CfgMove s (write8 s p v) where
  eng := rfl
  binding := rfl
  inbox := rfl
  wf h := write8_wf _ _ _ _ h
  trace := ⟨[.wr8 p v], by simp, by simpa [allowedEvent, allowedBytePort] using Or.inl hp⟩
  passive h := passive_tail h (write8_env ..)
  idx := rfl

theorem afterRead8 (s : State) (p : Port) (hp : 0xCFC ≤ p.toNat ∧ p.toNat ≤ 0xCFF) : CfgMove s (afterRead8 s p) where
  eng := rfl
  binding := rfl
  inbox := rfl
  wf h := by
    show Memory.wf (s.side.read8 s.binding p).2.cfg = true
    rw [read8_cfg]
    exact envStep_wf _ h
  trace := ⟨[.rd8 p (readVal8 s p)], by simp, by simpa [allowedEvent, allowedBytePort] using Or.inl hp⟩
  passive h := passive_tail h (read8_env ..)
  idx := rfl

theorem afterRead32 (s : State) (p : Port) (hp : p = 0xCFC#16) : CfgMove s (afterRead32 s p) where
  eng := rfl
  binding := rfl
  inbox := rfl
  wf h := by
    show Memory.wf (s.side.read32 s.binding p).2.cfg = true
    rw [read32_cfg]
    exact envStep_wf _ h
  trace := ⟨[.rd32 p (readVal32 s p)], by simp, by simpa [allowedEvent] using hp⟩
  passive h := passive_tail h (read32_env ..)
  idx := rfl

theorem addressPhase (s : State) : CfgMove s (addressPhase s) := write32 _ _ _ (.inl rfl)

theorem latchCfg (s : State) (b : BitVec 8) (d : BitVec 5) (f : BitVec 3) (r : Byte) (v : Option Dword) :
    CfgMove s (latchCfg s b d f r v) := setAcc _ _ rfl

theorem setRdata (s : State) (v : Dword) : CfgMove s (setRdata s v) := setAcc _ _ rfl

/-- One configuration access inside the data window. -/
theorem runAccess (s : State) {a : CfgAccess} (h : a.wellFormed = true) : CfgMove s (runAccess s a) := by
  cases a with
  | rd8 b d f r =>
    exact (((latchCfg ..).trans (addressPhase _)).trans (afterRead8 _ _ (dataPort_config r))).trans (setRdata ..)
  | rd16 b d f r =>
    exact ((((latchCfg ..).trans (addressPhase _)).trans (afterRead8 _ _ (dataPort_config r))).trans
      (afterRead8 _ _ (dataPort_succ_config h))).trans (setRdata ..)
  | rd32 b d f r =>
    exact (((latchCfg ..).trans (addressPhase _)).trans (afterRead32 _ _ (dataPort_aligned h))).trans (setRdata ..)
  | wr8 b d f r v =>
    exact ((latchCfg ..).trans (addressPhase _)).trans (write8 _ _ _ (dataPort_config r))
  | wr16 b d f r v =>
    exact (((latchCfg ..).trans (addressPhase _)).trans (write8 _ _ _ (dataPort_config r))).trans
      (write8 _ _ _ (dataPort_succ_config h))
  | wr32 b d f r v =>
    exact ((latchCfg ..).trans (addressPhase _)).trans (write32 _ _ _ (.inr (dataPort_aligned h)))

/-- The commands of one visitor call. -/
theorem cmds (s : State) {l : List CfgAccess} (h : l.all CfgAccess.wellFormed = true) :
    CfgMove s (l.foldl Machine.runAccess s) := by
  induction l generalizing s with
  | nil => exact refl s
  | cons a l ih =>
    rw [List.all_cons, Bool.and_eq_true] at h
    exact (runAccess s h.1).trans (ih _ h.2)

theorem callVisitor (s : State) : CfgMove s (callVisitor s) where
  eng := rfl
  binding := rfl
  inbox := rfl
  wf h := envStep_wf _ h
  trace := ⟨[.visit (idxBus s.acc.idx) (idxDev s.acc.idx) (idxFn s.acc.idx)], callVisitor_trace s, by simp [allowedEvent]⟩
  passive h := passive_tail h (envStep_env _)
  idx := rfl

end CfgMove

/-! ### What the operations answer -/

/-- A configuration operation answers next exactly when it is accepted and stays in the data window. -/
theorem cfgOperation_next {s t : State} {a : CfgAccess} :
    cfgOperation s a = .next t ↔ s.eng.st.accepting = true ∧ a.wellFormed = true ∧ t = runAccess s a := by
  unfold cfgOperation whenIdle
  cases s.eng.st.accepting <;> cases a.wellFormed <;> simp [eq_comm]

/-- One step of the scan, at a position below 65536 and with a call left that returns. -/
theorem scanFrom_cons (s : State) (v : VisitorCall) (vs : List VisitorCall) (h : s.acc.idx.toNat < 65536)
    (hw : v.cmds.all CfgAccess.wellFormed = true) :
    scanFrom s (v :: vs) =
      let t := v.cmds.foldl runAccess (callVisitor s)
      match v.answer with
      | none => .fault .visitorNeverReturns
      | some true => .next (t.setAcc { t.acc with found := true })
      | some false => scanFrom (t.setAcc { t.acc with idx := t.acc.idx + 1#17 }) vs :=
  (if_pos (show s.acc.idx.toNat < Config.N_FUNCTIONS from h)).trans (if_pos hw)

/-- A scan that has reached the end stops. -/
theorem scanFrom_end (s : State) (vs : List VisitorCall) (h : ¬s.acc.idx.toNat < 65536) : scanFrom s vs = .next s := by
  cases vs <;> simp [scanFrom, scanRest, h, Config.N_FUNCTIONS]

theorem idleVisits_allowed (b : Binding) (i : BitVec 17) (n : Nat) : ∀ e ∈ idleVisits i n, allowedEvent b e := by
  induction n generalizing i with
  | zero => simp [idleVisits]
  | succ n ih => simpa [idleVisits, allowedEvent] using ih _

/-- A scan that ends has left the engine, the binding and the inputs alone, has kept the canonical form and the range
of the scan position, and has issued permitted accesses only. -/
theorem scanFrom_next {s t : State} {vs : List VisitorCall} (h : scanFrom s vs = .next t)
    (hi : s.acc.idx.toNat ≤ 65536) :
    t.eng = s.eng ∧ t.binding = s.binding ∧ t.inbox = s.inbox ∧
      (Memory.wf s.side.cfg = true → Memory.wf t.side.cfg = true) ∧ t.acc.idx.toNat ≤ 65536 ∧
      ∃ es, t.side.trace = s.side.trace ++ es ∧ ∀ e ∈ es, allowedEvent s.binding e := by
  induction vs generalizing s with
  | nil =>
    rw [scanFrom, Host.Outcome.next.injEq] at h
    subst h
    unfold scanRest
    split
    · exact ⟨rfl, rfl, rfl, envRun_wf _ _, Nat.le_refl _, _, rfl, idleVisits_allowed _ _ _⟩
    · exact ⟨rfl, rfl, rfl, id, hi, [], by simp, by simp⟩
  | cons v vs ih =>
    by_cases hlt : s.acc.idx.toNat < 65536
    · by_cases hw : v.cmds.all CfgAccess.wellFormed = true
      · rw [scanFrom_cons s v vs hlt hw] at h
        have hm : CfgMove s (v.cmds.foldl runAccess (callVisitor s)) :=
          (CfgMove.callVisitor s).trans (CfgMove.cmds _ hw)
        simp only at h
        split at h
        · cases h
        · rw [Host.Outcome.next.injEq] at h
          subst h
          refine ⟨hm.eng, hm.binding, hm.inbox, hm.wf, ?_, hm.trace⟩
          simpa [hm.idx] using hi
        · have hidx : (v.cmds.foldl runAccess (callVisitor s)).acc.idx = s.acc.idx := hm.idx
          obtain ⟨h1, h2, h3, h4, h5, es, h6, h7⟩ := ih h (by
            simp only [State.setAcc_acc, hidx, BitVec.toNat_add, BitVec.toNat_ofNat]
            omega)
          obtain ⟨fs, k1, k2⟩ := hm.trace
          refine ⟨h1.trans hm.eng, h2.trans hm.binding, h3.trans hm.inbox, fun hw => h4 (hm.wf hw), h5, fs ++ es, ?_, ?_⟩
          · rw [h6]
            simp [k1]
          · intro e he
            rcases List.mem_append.1 he with he | he
            · exact k2 e he
            · have := h7 e he
              simpa [hm.binding] using this
      · simp [scanFrom, hlt, hw, Config.N_FUNCTIONS] at h
    · rw [scanFrom_end s _ hlt, Host.Outcome.next.injEq] at h
      subst h
      exact ⟨rfl, rfl, rfl, id, hi, [], by simp, by simp⟩

end Sys2Proof.Machine
end

