-- ==== Sys2Proof/Laws/BlockStep.lean ====
section
/-! SUPPORT. What a step of the block can do: `perform_adds` says that it adds one step to the record, `settle_side`
that the bookkeeping between two steps touches nothing on the far side of the ports, and `blockSteps_add` cuts a run of
steps in two. -/

namespace Sys2Proof.Machine

/-! ### Runs of steps -/

@[simp] theorem blockSteps_zero (r : InFlight) : blockSteps 0 r = .next r := rfl

theorem blockSteps_succ {n : Nat} {r q : InFlight} (h : blockStep r = .next q) :
    blockSteps (n + 1) r = blockSteps n q := by
  rw [blockSteps, h]

theorem blockSteps_add {m n : Nat} {r q : InFlight} (h : blockSteps m r = .next q) :
    blockSteps (m + n) r = blockSteps n q := by
  induction m generalizing r with
  | zero =>
    rw [blockSteps_zero, Host.Outcome.next.injEq] at h
    rw [h, Nat.zero_add]
  | succ m ih =>
    rw [blockSteps] at h
    rw [Nat.add_right_comm, blockSteps]
    split at h
    next p hp => exact ih h
    · cases h
    · cases h

/-- The next step of a plan that begins with one. -/
theorem blockStep_act {s s' : State} {a : BlockAct} {rest more : List Todo} (h : perform s a = .ok (s', more)) :
    blockStep { state := s, todo := .act a :: rest } = settle s' (more ++ rest) := by
  simp [blockStep, advance, h]

theorem stepCount_append (es fs : List Event) : stepCount (es ++ fs) = stepCount es + stepCount fs := by
  simp [stepCount]

/-! ### The bookkeeping between steps -/

@[simp] theorem setGot_side (s : State) (n : Nat) : (setGot s n).side = s.side := rfl
@[simp] theorem awaitPoll_side (s : State) : (awaitPoll s).side = s.side := rfl
@[simp] theorem endEmpty_side (s : State) : (endEmpty s).side = s.side := rfl

@[simp] theorem endGroup_side (s : State) : (endGroup s).side = s.side := by
  unfold endGroup
  split <;> rfl

@[simp] theorem endPass_side (s : State) : (endPass s).side = s.side := by
  unfold endPass
  split <;> rfl

/-- The bookkeeping leaves the far side of the ports, and so the record, as it was. -/
theorem settle_side {s : State} {l : List Todo} {q : InFlight} (h : settle s l = .next q) : q.state.side = s.side := by
  induction l generalizing s with
  | nil =>
    cases h
    rfl
  | cons x l ih =>
    cases x with
    | act a =>
      cases h
      rfl
    | keep b =>
      cases b with
      | flagsCleared => exact ih (s := goTo s .startTransfer) (by simpa only [settle] using h)
      | setGot n => exact ih (s := setGot s n) (by simpa only [settle] using h)
      | awaitPoll => exact ih (s := awaitPoll s) (by simpa only [settle] using h)
      | endGroup => exact (ih (s := endGroup s) (by simpa only [settle] using h)).trans (endGroup_side s)
      | endPass => exact (ih (s := endPass s) (by simpa only [settle] using h)).trans (endPass_side s)
      | nextPhase =>
        rw [settle] at h
        split at h
        · exact ih h
        · cases h
          rfl
      | answered v later =>
        rcases v with _ | _ | _
        · rw [settle] at h
          cases h
        · rw [settle] at h
          simp only at h
          split at h
          · cases h
            rfl
          · exact (ih h :)
        · rw [settle] at h
          exact (ih h :)

/-! ### One step -/

theorem raiseFail_adds (s : State) (k : FailCode) :
    ∃ d, (raiseFail s k).side.trace = s.side.trace ++ d ∧ (d = [] ∨ ∃ k, d = [.diag k]) := by
  cases k with
  | noFailure => exact ⟨[], by simp [raiseFail, FailCode.diag], .inl rfl⟩
  | busContention => exact ⟨_, rfl, .inr ⟨_, rfl⟩⟩
  | transferFailure => exact ⟨_, rfl, .inr ⟨_, rfl⟩⟩
  | transferTimeout => exact ⟨_, rfl, .inr ⟨_, rfl⟩⟩

/-- The tests on a status value add at most a diagnostic, where they leave no byte to fetch. -/
theorem judgeStatus_adds {s : State} (h : byteToFetch s = false) :
    ∃ d, (judgeStatus s).side.trace = s.side.trace ++ d ∧ (d = [] ∨ ∃ k, d = [.diag k]) := by
  unfold judgeStatus
  split
  · exact raiseFail_adds ..
  split
  next he hc =>
    refine ⟨[], ?_, .inl rfl⟩
    rw [List.append_nil]
    simp only [byteToFetch, he, hc] at h
    unfold afterPoll
    split <;> first | rfl | simp_all
  split
  · exact raiseFail_adds ..
  · exact ⟨[], by simp, .inl rfl⟩

/-- What a step of the block adds to the record: one step, and at most a diagnostic after it. -/
theorem perform_adds {s t : State} {a : BlockAct} {more : List Todo} (h : perform s a = .ok (t, more)) :
    ∃ e d, t.side.trace = s.side.trace ++ e :: d ∧ e.isStep = true ∧ (d = [] ∨ ∃ k, d = [.diag k]) := by
  have one : ∀ {u : State} (e : Event), e.isStep = true → u.side.trace = s.side.trace ++ [e] →
      u.side.trace = s.side.trace ++ e :: [] ∧ e.isStep = true ∧ (([] : List Event) = [] ∨ ∃ k, [] = [Event.diag k]) :=
    fun e he hu => ⟨hu, he, .inl rfl⟩
  cases a with
  | recheck =>
    cases h
    let u := (afterReg s .cnt).setEng
      { (afterReg s .cnt).eng with c := regVal s .cnt, retry := (afterReg s .cnt).eng.retry + 1 }
    have hu : u.side.trace = s.side.trace ++ [.rd8 (s.binding.portOf .cnt) (regVal s .cnt)] := by simp [u]
    have hr : ∃ d, (recheck s).side.trace = u.side.trace ++ d ∧ (d = [] ∨ ∃ k, d = [.diag k]) := by
      unfold recheck
      simp only
      split
      · split
        · exact raiseFail_adds ..
        · exact ⟨[], by simp [u], .inl rfl⟩
      · exact ⟨[], by simp [u, goTo], .inl rfl⟩
    obtain ⟨d, h1, h2⟩ := hr
    exact ⟨_, d, by rw [h1, hu, List.append_assoc]; rfl, rfl, h2⟩
  | readStatus =>
    have hu : (readStatus s).side.trace = s.side.trace ++ [.rd8 (s.binding.portOf .sts) (regVal s .sts)] := by
      simp [readStatus]
    simp only [perform] at h
    split at h
    · cases h
      exact ⟨_, _, one _ rfl hu⟩
    next hf =>
      cases h
      obtain ⟨d, h1, h2⟩ := judgeStatus_adds (by simpa using hf)
      exact ⟨_, d, by rw [h1, hu, List.append_assoc]; rfl, rfl, h2⟩
  | visit calls =>
    simp only [perform] at h
    split at h
    · cases h
      exact ⟨_, _, one _ rfl (callVisitor_trace s)⟩
    · cases h
  | loadCount =>
    have hu : (loadCount s).side.trace = s.side.trace ++ [.rd8 (s.binding.portOf .count) (regVal s .count)] := by
      simp [loadCount]
    simp only [perform] at h
    split at h <;> cases h <;> exact ⟨_, _, one _ rfl hu⟩
  | address a =>
    cases h
    have hs : (acceptAccess s a).side = s.side := by cases a <;> rfl
    exact ⟨_, _, one _ rfl (by rw [addressPhase, write32_side_trace, hs])⟩
  | readByte => cases h; exact ⟨_, _, one _ rfl (afterRead8_side_trace s _)⟩
  | readLow => cases h; exact ⟨_, _, one _ rfl (afterRead8_side_trace s _)⟩
  | readHigh lo => cases h; exact ⟨_, _, one _ rfl (afterRead8_side_trace s _)⟩
  | readDword => cases h; exact ⟨_, _, one _ rfl (afterRead32_side_trace s _)⟩
  | writeLow => cases h; exact ⟨_, _, one _ rfl (write8_side_trace s _ _)⟩
  | writeHigh => cases h; exact ⟨_, _, one _ rfl (write8_side_trace s _ _)⟩
  | writeDword => cases h; exact ⟨_, _, one _ rfl (write32_side_trace s _ _)⟩
  | write r v => cases h; exact ⟨_, _, one _ rfl (wrReg_side_trace s r v)⟩
  | writeControl => cases h; exact ⟨_, _, one _ rfl (wrReg_side_trace s .cnt _)⟩
  | wait d => cases h; exact ⟨_, _, one _ rfl (delay_side_trace s d)⟩
  | busyRead => cases h; exact ⟨_, _, one _ rfl (afterReg_side_trace s .cnt)⟩
  | readControl => cases h; exact ⟨_, _, one _ rfl (afterReg_side_trace s .cnt)⟩
  | fetchByte => cases h; exact ⟨_, _, one _ rfl (afterReg_side_trace s _)⟩
  | fetch i => cases h; exact ⟨_, _, one _ rfl (afterReg_side_trace s _)⟩

end Sys2Proof.Machine
end

