-- ==== Sys2Proof/Laws/Decode.lean ====
section
/-! SUPPORT. The command word bit by bit, its fields, and what each check of the decoder says when it lets a command
through. -/

namespace Sys2Proof

theorem wordC_getLsbD (op : Byte) (b : BitVec 8) (d : BitVec 5) (f : BitVec 3) (r : Byte) (i : Nat) :
    (wordC op b d f r).getLsbD i =
      if i < 8 then r.getLsbD i else if i < 11 then f.getLsbD (i - 8) else if i < 16 then d.getLsbD (i - 11)
      else if i < 24 then b.getLsbD (i - 16) else op.getLsbD (i - 24) := by
  have h : wordC op b d f r = BitVec.cast rfl (op ++ b ++ d ++ f ++ r) := rfl
  rw [h, BitVec.getLsbD_cast]
  iterate 4 rw [BitVec.getLsbD_append]
  simp only [Nat.sub_sub]
  by_cases h1 : i < 8
  · simp [h1]
  by_cases h2 : i < 11
  · simp [h1, h2, show i - 8 < 3 by omega]
  by_cases h3 : i < 16
  · simp [h1, h2, h3, show ¬i - 8 < 3 by omega, show i - 11 < 5 by omega]
  by_cases h4 : i < 24
  · simp [h1, h2, h3, h4, show ¬i - 8 < 3 by omega, show ¬i - 11 < 5 by omega, show i - 16 < 8 by omega]
  · simp [h1, h2, h3, h4, show ¬i - 8 < 3 by omega, show ¬i - 11 < 5 by omega, show ¬i - 16 < 8 by omega]

theorem wordS_getLsbD (op : Byte) (sa : BitVec 7) (cmd : Byte) (n : BitVec 6) (i : Nat) :
    (wordS op sa cmd n).getLsbD i =
      if i < 6 then n.getLsbD i else if i < 8 then false else if i < 16 then cmd.getLsbD (i - 8)
      else if i < 23 then sa.getLsbD (i - 16) else if i < 24 then false else op.getLsbD (i - 24) := by
  have h : wordS op sa cmd n = BitVec.cast rfl (op ++ 0#1 ++ sa ++ cmd ++ 0#2 ++ n) := rfl
  rw [h, BitVec.getLsbD_cast]
  iterate 5 rw [BitVec.getLsbD_append]
  simp only [Nat.sub_sub]
  by_cases h1 : i < 6
  · simp [h1]
  by_cases h2 : i < 8
  · simp [h1, h2, show i - 6 < 2 by omega]
  by_cases h3 : i < 16
  · simp [h1, h2, h3, show ¬i - 6 < 2 by omega, show i - 8 < 8 by omega]
  by_cases h4 : i < 23
  · simp [h1, h2, h3, h4, show ¬i - 6 < 2 by omega, show ¬i - 8 < 8 by omega, show i - 16 < 7 by omega]
  by_cases h5 : i < 24
  · simp [h1, h2, h3, h4, h5, show ¬i - 6 < 2 by omega, show ¬i - 8 < 8 by omega, show ¬i - 16 < 7 by omega,
      show i - 23 < 1 by omega]
  · simp [h1, h2, h3, h4, h5, show ¬i - 6 < 2 by omega, show ¬i - 8 < 8 by omega, show ¬i - 16 < 7 by omega,
      show ¬i - 23 < 1 by omega]

@[simp] theorem opcodeOf_wordC (op : Byte) (b : BitVec 8) (d : BitVec 5) (f : BitVec 3) (r : Byte) : opcodeOf (wordC op b d f r) = op := by
  apply BitVec.eq_of_getLsbD_eq
  intro i hi
  simp only [opcodeOf, BitVec.getLsbD_extractLsb', wordC_getLsbD]
  interval_cases i <;> simp

@[simp] theorem busOf_wordC (op : Byte) (b : BitVec 8) (d : BitVec 5) (f : BitVec 3) (r : Byte) : busOf (wordC op b d f r) = b := by
  apply BitVec.eq_of_getLsbD_eq
  intro i hi
  simp only [busOf, BitVec.getLsbD_extractLsb', wordC_getLsbD]
  interval_cases i <;> simp

@[simp] theorem devOf_wordC (op : Byte) (b : BitVec 8) (d : BitVec 5) (f : BitVec 3) (r : Byte) : devOf (wordC op b d f r) = d := by
  apply BitVec.eq_of_getLsbD_eq
  intro i hi
  simp only [devOf, BitVec.getLsbD_extractLsb', wordC_getLsbD]
  interval_cases i <;> simp

@[simp] theorem fnOf_wordC (op : Byte) (b : BitVec 8) (d : BitVec 5) (f : BitVec 3) (r : Byte) : fnOf (wordC op b d f r) = f := by
  apply BitVec.eq_of_getLsbD_eq
  intro i hi
  simp only [fnOf, BitVec.getLsbD_extractLsb', wordC_getLsbD]
  interval_cases i <;> simp

@[simp] theorem regOf_wordC (op : Byte) (b : BitVec 8) (d : BitVec 5) (f : BitVec 3) (r : Byte) : regOf (wordC op b d f r) = r := by
  apply BitVec.eq_of_getLsbD_eq
  intro i hi
  simp only [regOf, BitVec.getLsbD_extractLsb', wordC_getLsbD]
  interval_cases i <;> simp

@[simp] theorem opcodeOf_wordS (op : Byte) (sa : BitVec 7) (cmd : Byte) (n : BitVec 6) : opcodeOf (wordS op sa cmd n) = op := by
  apply BitVec.eq_of_getLsbD_eq
  intro i hi
  simp only [opcodeOf, BitVec.getLsbD_extractLsb', wordS_getLsbD]
  interval_cases i <;> simp

@[simp] theorem zeroBitOf_wordS (op : Byte) (sa : BitVec 7) (cmd : Byte) (n : BitVec 6) : zeroBitOf (wordS op sa cmd n) = 0#1 := by
  apply BitVec.eq_of_getLsbD_eq
  intro i hi
  simp only [zeroBitOf, BitVec.getLsbD_extractLsb', wordS_getLsbD]
  interval_cases i; simp

@[simp] theorem saOf_wordS (op : Byte) (sa : BitVec 7) (cmd : Byte) (n : BitVec 6) : saOf (wordS op sa cmd n) = sa := by
  apply BitVec.eq_of_getLsbD_eq
  intro i hi
  simp only [saOf, BitVec.getLsbD_extractLsb', wordS_getLsbD]
  interval_cases i <;> simp

@[simp] theorem cmdOf_wordS (op : Byte) (sa : BitVec 7) (cmd : Byte) (n : BitVec 6) : cmdOf (wordS op sa cmd n) = cmd := by
  apply BitVec.eq_of_getLsbD_eq
  intro i hi
  simp only [cmdOf, BitVec.getLsbD_extractLsb', wordS_getLsbD]
  interval_cases i <;> simp

@[simp] theorem zeroPairOf_wordS (op : Byte) (sa : BitVec 7) (cmd : Byte) (n : BitVec 6) : zeroPairOf (wordS op sa cmd n) = 0#2 := by
  apply BitVec.eq_of_getLsbD_eq
  intro i hi
  simp only [zeroPairOf, BitVec.getLsbD_extractLsb', wordS_getLsbD]
  interval_cases i <;> simp

@[simp] theorem wlenOf_wordS (op : Byte) (sa : BitVec 7) (cmd : Byte) (n : BitVec 6) : wlenOf (wordS op sa cmd n) = n := by
  apply BitVec.eq_of_getLsbD_eq
  intro i hi
  simp only [wlenOf, BitVec.getLsbD_extractLsb', wordS_getLsbD]
  interval_cases i <;> simp

/-- A word is its five fields of format C. -/
theorem wordC_fields (w : Dword) : wordC (opcodeOf w) (busOf w) (devOf w) (fnOf w) (regOf w) = w := by
  apply BitVec.eq_of_getLsbD_eq
  intro i hi
  simp only [opcodeOf, busOf, devOf, fnOf, regOf, BitVec.getLsbD_extractLsb', wordC_getLsbD]
  interval_cases i <;> simp

/-- A word whose must-be-zero bits are zero is its four fields of format S. -/
theorem wordS_fields (w : Dword) (h1 : zeroBitOf w = 0#1) (h2 : zeroPairOf w = 0#2) :
    wordS (opcodeOf w) (saOf w) (cmdOf w) (wlenOf w) = w := by
  have b23 : w.getLsbD 23 = false := by simpa [zeroBitOf] using congrArg (·.getLsbD 0) h1
  have b6 : w.getLsbD 6 = false := by simpa [zeroPairOf] using congrArg (·.getLsbD 0) h2
  have b7 : w.getLsbD 7 = false := by simpa [zeroPairOf] using congrArg (·.getLsbD 1) h2
  apply BitVec.eq_of_getLsbD_eq
  intro i hi
  simp only [opcodeOf, saOf, cmdOf, wlenOf, BitVec.getLsbD_extractLsb', wordS_getLsbD]
  interval_cases i <;> simp_all

/-! ### The checks of the decoder -/

theorem need_ok {ok : Bool} {r : Reject} {go : Except Reject Instr} {i : Instr} :
    need ok r go = .ok i ↔ ok = true ∧ go = .ok i := by
  cases ok <;> simp [need]

theorem bare_iff {c : Command} : c.bare = true ↔ c.wdata = none ∧ c.wbuf = [] ∧ c.visitor = none := by
  simp [Command.bare, and_assoc]

/-- A configuration read is let through bare and inside the data window. -/
theorem decodeCfgRead_ok {c : Command} {n : Nat} {i j : Instr} :
    decodeCfgRead c n i = .ok j ↔
      (c.wdata = none ∧ c.wbuf = [] ∧ c.visitor = none) ∧ fitsWindow (regOf c.word) n = true ∧ i = j := by
  simp [decodeCfgRead, need_ok, bare_iff]

/-- A configuration write is let through with a value no wider than the operation. -/
theorem decodeCfgWrite_ok {c : Command} {n : Nat} {i : Dword → Instr} {j : Instr} :
    decodeCfgWrite c n i = .ok j ↔
      ∃ v, c.wdata = some v ∧ (c.wbuf = [] ∧ c.visitor = none) ∧ v.toNat < 2 ^ (8 * n) ∧
        fitsWindow (regOf c.word) n = true ∧ i v = j := by
  unfold decodeCfgWrite
  cases c.wdata with
  | none => simp
  | some v => simp [need_ok]

/-- A scan is let through with a visitor and bits 26:0 zero. -/
theorem decodeScan_ok {c : Command} {j : Instr} :
    decodeScan c = .ok j ↔
      ∃ v, c.visitor = some v ∧ (c.wdata = none ∧ c.wbuf = []) ∧ c.word.extractLsb' 0 27 = 0#27 ∧ .cfgScan v = j := by
  unfold decodeScan
  cases c.visitor with
  | none => simp
  | some v => simp [need_ok]

/-- An SMBus command is let through with its must-be-zero bits zero, `wlen` in range and `wlen` bytes. -/
theorem decodeSmb_ok {c : Command} {cmdZero : Bool} {lo hi : Nat} {i j : Instr} :
    decodeSmb c cmdZero lo hi i = .ok j ↔
      (c.wdata = none ∧ c.visitor = none) ∧
      (zeroBitOf c.word = 0#1 ∧ zeroPairOf c.word = 0#2 ∧ (cmdZero = true → cmdOf c.word = 0#8)) ∧
      (lo ≤ (wlenOf c.word).toNat ∧ (wlenOf c.word).toNat ≤ hi) ∧ c.wbuf.length = (wlenOf c.word).toNat ∧ i = j := by
  cases cmdZero <;> simp [decodeSmb, need_ok, and_assoc]

/-- A configuration access the decoder lets through stays in the data window (R71). -/
theorem fitsWindow_iff (r : Byte) :
    fitsWindow r 1 = true ∧ (fitsWindow r 2 = true ↔ r &&& 3#8 ≠ 3#8) ∧ (fitsWindow r 4 = true ↔ r &&& 3#8 = 0#8) := by
  revert r
  decide

end Sys2Proof
end

