-- ==== Sys2Proof/Laws/PerInstr.lean ====
section
/-! SUPPORT. Statements made for every instruction, one lemma per constructor (LAWS.json "per_instruction"). -/

namespace Sys2Proof.Laws

open Sys2Proof

namespace TableRow

/-- The command word of an instruction belongs to the row of spec/opcode_table.json that has its mnemonic. -/
def Statement (i : Instr) : Prop :=
  ∃ row ∈ opcodeTable, row.mnemonic = i.mnemonic ∧ (encode i).word &&& row.mask = row.pattern

theorem wordC_opcode (op : Byte) (b : BitVec 8) (d : BitVec 5) (f : BitVec 3) (r : Byte) :
    wordC op b d f r &&& 0xFF000000#32 = wordC op 0 0 0 0 := by
  apply BitVec.eq_of_getLsbD_eq
  intro i hi
  simp only [BitVec.getLsbD_and, wordC_getLsbD]
  interval_cases i <;> simp

theorem wordS_opcode (op : Byte) (sa : BitVec 7) (cmd : Byte) (n : BitVec 6) :
    wordS op sa cmd n &&& 0xFF8000C0#32 = wordS op 0 0 0 := by
  apply BitVec.eq_of_getLsbD_eq
  intro i hi
  simp only [BitVec.getLsbD_and, wordS_getLsbD]
  interval_cases i <;> simp

theorem wordS_cmd (op : Byte) (sa : BitVec 7) (cmd : Byte) (n : BitVec 6) :
    wordS op sa cmd n &&& 0xFF8000FF#32 = wordS op 0 0 n := by
  apply BitVec.eq_of_getLsbD_eq
  intro i hi
  simp only [BitVec.getLsbD_and, wordS_getLsbD]
  interval_cases i <;> simp

theorem wordS_bare (op : Byte) (sa : BitVec 7) (n : BitVec 6) :
    wordS op sa 0#8 n &&& 0xFF80FFFF#32 = wordS op 0 0 n := by
  apply BitVec.eq_of_getLsbD_eq
  intro i hi
  simp only [BitVec.getLsbD_and, wordS_getLsbD]
  interval_cases i <;> simp

theorem cfgRd8 (bus : BitVec 8) (dev : BitVec 5) (fn : BitVec 3) (reg : Byte) :
    Statement (.cfgRd8 bus dev fn reg) :=
  ⟨⟨"CFG_RD8", 0x00000000#32, 0xFF000000#32⟩, by simp [opcodeTable], rfl, wordC_opcode ..⟩

theorem cfgRd16 (bus : BitVec 8) (dev : BitVec 5) (fn : BitVec 3) (reg : Byte) :
    Statement (.cfgRd16 bus dev fn reg) :=
  ⟨⟨"CFG_RD16", 0x01000000#32, 0xFF000000#32⟩, by simp [opcodeTable], rfl, wordC_opcode ..⟩

theorem cfgRd32 (bus : BitVec 8) (dev : BitVec 5) (fn : BitVec 3) (reg : Byte) :
    Statement (.cfgRd32 bus dev fn reg) :=
  ⟨⟨"CFG_RD32", 0x02000000#32, 0xFF000000#32⟩, by simp [opcodeTable], rfl, wordC_opcode ..⟩

theorem cfgWr8 (bus : BitVec 8) (dev : BitVec 5) (fn : BitVec 3) (reg : Byte) (v : Byte) :
    Statement (.cfgWr8 bus dev fn reg v) :=
  ⟨⟨"CFG_WR8", 0x04000000#32, 0xFF000000#32⟩, by simp [opcodeTable], rfl, wordC_opcode ..⟩

theorem cfgWr16 (bus : BitVec 8) (dev : BitVec 5) (fn : BitVec 3) (reg : Byte) (v : BitVec 16) :
    Statement (.cfgWr16 bus dev fn reg v) :=
  ⟨⟨"CFG_WR16", 0x05000000#32, 0xFF000000#32⟩, by simp [opcodeTable], rfl, wordC_opcode ..⟩

theorem cfgWr32 (bus : BitVec 8) (dev : BitVec 5) (fn : BitVec 3) (reg : Byte) (v : Dword) :
    Statement (.cfgWr32 bus dev fn reg v) :=
  ⟨⟨"CFG_WR32", 0x06000000#32, 0xFF000000#32⟩, by simp [opcodeTable], rfl, wordC_opcode ..⟩

theorem cfgScan (visitor : List VisitorCall) : Statement (.cfgScan visitor) :=
  ⟨⟨"CFG_SCAN", 0x08000000#32, 0xFFFFFFFF#32⟩, by simp [opcodeTable], rfl,
    show 0x08000000#32 &&& 0xFFFFFFFF#32 = 0x08000000#32 by decide⟩

theorem smbWriteQuick (sa : BitVec 7) : Statement (.smbWriteQuick sa) :=
  ⟨⟨"SMB_WRITE_QUICK", 0x10000000#32, 0xFF80FFFF#32⟩, by simp [opcodeTable], rfl, wordS_bare ..⟩

theorem smbReadQuick (sa : BitVec 7) : Statement (.smbReadQuick sa) :=
  ⟨⟨"SMB_READ_QUICK", 0x11000000#32, 0xFF80FFFF#32⟩, by simp [opcodeTable], rfl, wordS_bare ..⟩

theorem smbWriteByte (sa : BitVec 7) (data : Byte) : Statement (.smbWriteByte sa data) :=
  ⟨⟨"SMB_WRITE_BYTE", 0x12000001#32, 0xFF80FFFF#32⟩, by simp [opcodeTable], rfl, wordS_bare ..⟩

theorem smbReadByte (sa : BitVec 7) : Statement (.smbReadByte sa) :=
  ⟨⟨"SMB_READ_BYTE", 0x13000000#32, 0xFF80FFFF#32⟩, by simp [opcodeTable], rfl, wordS_bare ..⟩

theorem smbWriteByteData (sa : BitVec 7) (cmd : Byte) (data : Byte) : Statement (.smbWriteByteData sa cmd data) :=
  ⟨⟨"SMB_WRITE_BYTE_DATA", 0x14000001#32, 0xFF8000FF#32⟩, by simp [opcodeTable], rfl, wordS_cmd ..⟩

theorem smbReadByteData (sa : BitVec 7) (cmd : Byte) : Statement (.smbReadByteData sa cmd) :=
  ⟨⟨"SMB_READ_BYTE_DATA", 0x15000000#32, 0xFF8000FF#32⟩, by simp [opcodeTable], rfl, wordS_cmd ..⟩

theorem smbWriteBlockData (sa : BitVec 7) (cmd : Byte) (data : List Byte) : Statement (.smbWriteBlockData sa cmd data) :=
  ⟨⟨"SMB_WRITE_BLOCK_DATA", 0x16000000#32, 0xFF8000C0#32⟩, by simp [opcodeTable], rfl, wordS_opcode ..⟩

theorem smbReadBlockData (sa : BitVec 7) (cmd : Byte) : Statement (.smbReadBlockData sa cmd) :=
  ⟨⟨"SMB_READ_BLOCK_DATA", 0x17000000#32, 0xFF8000FF#32⟩, by simp [opcodeTable], rfl, wordS_cmd ..⟩

end TableRow

end Sys2Proof.Laws
end

