-- ==== Sys2Proof/Laws/Step.lean ====
section
/-! SUPPORT. What a step and an instruction can do, said once: the cases of a step that answers next, and the frame of
every instruction that does. -/

namespace Sys2Proof.Machine

/-- The configuration access of the six configuration instructions. -/
def cfgAccessOf : Instr → Option CfgAccess
  | .cfgRd8 b d f r => some (.rd8 b d f r)
  | .cfgRd16 b d f r => some (.rd16 b d f r)
  | .cfgRd32 b d f r => some (.rd32 b d f r)
  | .cfgWr8 b d f r v => some (.wr8 b d f r v)
  | .cfgWr16 b d f r v => some (.wr16 b d f r v)
  | .cfgWr32 b d f r v => some (.wr32 b d f r v)
  | .cfgScan _ => none
  | .smbWriteQuick _ => none
  | .smbReadQuick _ => none
  | .smbWriteByte _ _ => none
  | .smbReadByte _ => none
  | .smbWriteByteData _ _ _ => none
  | .smbReadByteData _ _ => none
  | .smbWriteBlockData _ _ _ => none
  | .smbReadBlockData _ _ => none

/-- The six configuration instructions are the shared operation on their access. -/
theorem exec_cfg {i : Instr} {a : CfgAccess} (h : cfgAccessOf i = some a) (s : State) :
    exec i s = cfgOperation s a := by
  cases i <;> simp only [cfgAccessOf, Option.some.injEq, reduceCtorEq] at h <;> subst h <;> rfl

/-- An instruction that answers next: a configuration access that is accepted, a scan, or the pass of an SMBus command
of at most 32 bytes. -/
theorem exec_next {i : Instr} {s t : State} (h : exec i s = .next t) :
    (∃ a, cfgAccessOf i = some a ∧ s.eng.st.accepting = true ∧ a.wellFormed = true ∧ t = runAccess s a) ∨
    (∃ v, i = .cfgScan v ∧ s.eng.st.accepting = true ∧
      scanFrom (startScan s) v = .next t) ∨
    (∃ ty rw sa cmd data, smbOperands i = some (ty, rw, sa, cmd, data) ∧ data.length ≤ 32 ∧ SmbReady s ∧
      t = runPass (latchSmb s ty rw sa cmd data)) := by
  cases ha : cfgAccessOf i with
  | some a =>
    rw [exec_cfg ha, cfgOperation_next] at h
    exact .inl ⟨a, rfl, h⟩
  | none =>
    cases hs : smbOperands i with
    | some o =>
      obtain ⟨ty, rw, sa, cmd, data⟩ := o
      have hw : i.wellFormed = true := by
        cases i <;> simp only [smbOperands, reduceCtorEq] at hs <;> try rfl
        simp only [exec, execSmbWriteBlockData] at h
        split at h
        · assumption
        · cases h
      rw [exec_smb hs hw, smbOperation_next] at h
      exact .inr (.inr ⟨ty, rw, sa, cmd, data, rfl, smbOperands_length hs hw, h⟩)
    | none =>
      cases i <;> simp only [cfgAccessOf, smbOperands, reduceCtorEq] at ha hs
      case cfgScan v =>
        change whenIdle s _ = _ at h
        unfold whenIdle at h
        split at h
        · exact .inr (.inl ⟨v, rfl, by assumption, h⟩)
        · cases h

/-- The cases of a step that answers next. -/
theorem step_cases {s t : State} (h : step s = .next t) :
    (s.eng.st.accepting = true ∧ s.inbox = [] ∧ t = s) ∨
    (∃ b rest, s.eng.st.accepting = true ∧ s.inbox = .bind b :: rest ∧ s.binding.baseValid = false ∧
      b ∉ Config.BASE_INVALID ∧
      t = (((s.setInbox rest).setBinding { s.binding with base := b, baseValid := true }).setEng
        { s.eng with st := .idle })) ∨
    (∃ c rest i, s.eng.st.accepting = true ∧ s.inbox = .command c :: rest ∧ decode c = .ok i ∧
      exec i (s.setInbox rest) = .next t) ∨
    (s.eng.st.accepting = false ∧ s.binding.portsClear = true ∧ t = enginePhase s) := by
  unfold step at h
  split at h
  next ha =>
    split at h
    next hi => exact .inl ⟨ha, hi, by simpa using h.symm⟩
    next x rest hi =>
      cases x with
      | bind b =>
        by_cases hv : s.binding.baseValid = true
        · simp [takeInput, bindBase, whenIdle, ha, hv] at h
        by_cases hb : b ∈ Config.BASE_INVALID
        · simp [takeInput, bindBase, whenIdle, ha, hv, hb] at h
        · simp only [takeInput, bindBase, whenIdle, State.setInbox_eng, State.setInbox_binding, if_pos ha, if_neg hv,
            if_neg hb, Host.Outcome.next.injEq] at h
          exact .inr (.inl ⟨b, rest, ha, hi, by simpa using hv, hb, h.symm⟩)
      | command c =>
        simp only [takeInput] at h
        split at h
        next i hd => exact .inr (.inr (.inl ⟨c, rest, i, ha, hi, hd, h⟩))
        · cases h
  next ha =>
    split at h
    next hp => exact .inr (.inr (.inr ⟨by simpa using ha, hp, by simpa using h.symm⟩))
    · cases h

end Sys2Proof.Machine
end

