-- ==== Sys2Proof/Tests/Slice0.lean ====
section
/-! SUPPORT. The model's own tests: the smoke test of well-formedness, words written out from 30_encoding.md R102, at
most two small tests per operation with the expected values of 42_smbus_ops.md and 95_test_vectors.md (under the
illustration `P0`, which no statement uses), and for every statement of Certificates/Slice0/Obligations.lean a witness
of its hypotheses. -/

namespace Sys2Proof.Tests

open Sys2Proof Sys2Proof.Machine

/-! ### Helpers -/

/-- The answer is a next state with the property. -/
def nextWith (r : Res) (p : State → Bool) : Bool :=
  match r with
  | .next t => p t
  | .fault _ => false
  | .refused _ => false

/-- The answer is the refusal given. -/
def refusedWith (r : Res) (e : Refusal) : Bool :=
  match r with
  | .next _ => false
  | .fault _ => false
  | .refused f => decide (f = e)

/-- A machine after reset with the configuration bytes given. -/
def withCfg (m : Memory) : State := { State.reset with side := { State.reset.side with cfg := m } }

/-- A machine bound at `0x0880` under `P0`, with the register file and the environment's changes given. -/
def bound (f : RegFile) (env : List (List EnvAct)) : State :=
  { State.reset with
    binding := { base := 0x0880#16, baseValid := true, params := Params.P0, platform := .hardware }
    side := { State.reset.side with regs := f, env := env } }

/-- Control `40`, everything else zero (42_smbus_ops.md). -/
def regs40 : RegFile := { RegFile.reset with cnt := 0x40 }

/-- As `regs40`, with the completion bit of `P0` set in the status register. -/
def regsDone : RegFile := { RegFile.reset with cnt := 0x40, sts := 0x08 }

/-- n steps in which the environment changes nothing. -/
def quiet (n : Nat) : List (List EnvAct) := List.replicate n []

/-- The port accesses among the events added. -/
def ports (s t : State) : List Event := (newEvents s t).filter Event.isPort

/-- One byte read, one byte written, at an offset from `0x0880`. -/
def rdAt (o : Port) (v : Byte) : Event := .rd8 (0x0880#16 + o) v
def wrAt (o : Port) (v : Byte) : Event := .wr8 (0x0880#16 + o) v

/-- What every pass of 42_smbus_ops.md begins with: two control reads of `40`, ClearFlags' writes, the address. -/
def opening (addr : Byte) : List Event := [rdAt 2 0x40, rdAt 2 0x40, wrAt 2 0x00, wrAt 0 0xE0, wrAt 4 addr]

/-- A bound machine on which the environment has the status register show a value before the second poll. -/
def secondPoll (steps : Nat) (acts : List EnvAct) : State := bound regs40 (quiet steps ++ [acts])

/-! ### Well-formedness: an ill-formed term for each check (R104 b, d) -/

theorem test_illFormed_rd16 : (Instr.cfgRd16 0 1 0 0x77).wellFormed = false := by decide
theorem test_illFormed_rd32 : (Instr.cfgRd32 0 0 0 0x01).wellFormed = false := by decide
theorem test_illFormed_wr16 : (Instr.cfgWr16 0 1 0 0x77 0).wellFormed = false := by decide
theorem test_illFormed_wr32 : (Instr.cfgWr32 0 0 0 0x03 0).wellFormed = false := by decide
theorem test_illFormed_block0 : (Instr.smbWriteBlockData 0x69 0 []).wellFormed = false := by decide
theorem test_illFormed_block33 : (Instr.smbWriteBlockData 0x69 0 (List.replicate 33 0)).wellFormed = false := by decide
theorem test_illFormed_access : (CfgAccess.rd16 0 0 0 0x03).wellFormed = false := by decide
/-- The opcode alone does not show that the byte accesses are always inside the window. -/
theorem test_wellFormed_rd8 : (Instr.cfgRd8 0 0 0 0x03).wellFormed = true := by decide

/-! ### Words written out from R102: opcode, then format C `bus dev fun reg` or format S `0 sa cmd 00 wlen` -/

theorem test_decode_rd8 : decode { word := 0b00000000_00000000_00001_000_01000000#32 } = .ok (.cfgRd8 0 1 0 0x40) := by decide
theorem test_decode_rd16 : decode { word := 0b00000001_10000000_11111_101_01110100#32 } = .ok (.cfgRd16 0x80 0x1F 5 0x74) := by
  decide
theorem test_decode_rd32 : decode { word := 0b00000010_00000001_00000_111_11111100#32 } = .ok (.cfgRd32 1 0 7 0xFC) := by decide
theorem test_decode_wr8 :
    decode { word := 0b00000100_00000000_00001_000_01000000#32, wdata := some 0x80#32 } = .ok (.cfgWr8 0 1 0 0x40 0x80) := by decide
theorem test_decode_wr16 :
    decode { word := 0b00000101_00000000_00001_000_01110100#32, wdata := some 0x0880#32 } =
      .ok (.cfgWr16 0 1 0 0x74 0x0880) := by decide
theorem test_decode_wr32 :
    decode { word := 0b00000110_00000000_00010_000_00010000#32, wdata := some 0x0000E001#32 } =
      .ok (.cfgWr32 0 2 0 0x10 0x0000E001) := by decide
theorem test_decode_scan :
    decode { word := 0b00001000_00000000_00000_000_00000000#32, visitor := some [⟨[], some true⟩] } =
      .ok (.cfgScan [⟨[], some true⟩]) := by decide
theorem test_decode_writeQuick : decode { word := 0b00010000_0_0101101_00000000_00_000000#32 } = .ok (.smbWriteQuick 0x2D) := by
  decide
theorem test_decode_readQuick : decode { word := 0b00010001_0_1101001_00000000_00_000000#32 } = .ok (.smbReadQuick 0x69) := by
  decide
theorem test_decode_writeByte :
    decode { word := 0b00010010_0_1101001_00000000_00_000001#32, wbuf := [0x5A] } = .ok (.smbWriteByte 0x69 0x5A) := by decide
theorem test_decode_readByte : decode { word := 0b00010011_0_1101001_00000000_00_000000#32 } = .ok (.smbReadByte 0x69) := by
  decide
theorem test_decode_writeByteData :
    decode { word := 0b00010100_0_1101001_00000011_00_000001#32, wbuf := [0x5A] } =
      .ok (.smbWriteByteData 0x69 0x03 0x5A) := by decide
theorem test_decode_readByteData :
    decode { word := 0b00010101_0_1101001_00000011_00_000000#32 } = .ok (.smbReadByteData 0x69 0x03) := by decide
theorem test_decode_writeBlockData :
    decode { word := 0b00010110_0_1101001_00010000_00_000010#32, wbuf := [0x30, 0x31] } =
      .ok (.smbWriteBlockData 0x69 0x10 [0x30, 0x31]) := by decide
theorem test_decode_readBlockData :
    decode { word := 0b00010111_0_1101001_00000001_00_000000#32 } = .ok (.smbReadBlockData 0x69 0x01) := by decide

/-! ### Refused words: V5, V7, V8, V11, V12, V37 -/

theorem test_reject_unlisted :
    [0x03000000#32, 0x07000000#32, 0x09000000#32, 0x0F000000#32, 0x18000000#32, 0x20000000#32, 0xFF000000#32].all
      (fun x => decide (decode { word := x } = .error .unknownOpcode)) = true := by decide
theorem test_reject_lane3 : decode { word := 0x01000877#32 } = .error .leavesWindow := by decide
theorem test_reject_dword :
    [0x02000001#32, 0x02000002#32, 0x02000003#32].all
      (fun x => decide (decode { word := x } = .error .leavesWindow)) = true := by decide
theorem test_reject_wideData : decode { word := 0x04000840#32, wdata := some 0x180#32 } = .error .wdataTooWide := by decide
theorem test_reject_scanBits : decode { word := 0x08000001#32, visitor := some [] } = .error .fieldNotZero := by decide
theorem test_reject_noData : decode { word := 0x04000840#32 } = .error .wrongOperand := by decide
theorem test_reject_block0 : decode { word := 0x16690000#32 } = .error .wlenOutOfRange := by decide
theorem test_reject_block33 :
    decode { word := 0x16690021#32, wbuf := List.replicate 33 0 } = .error .wlenOutOfRange := by decide
theorem test_reject_wbuf3 : decode { word := 0x16690002#32, wbuf := [1, 2, 3] } = .error .wbufLength := by decide
theorem test_reject_readWlen : decode { word := 0x17690001#32, wbuf := [1] } = .error .wlenOutOfRange := by decide
theorem test_reject_quickCmd : decode { word := 0x10000100#32 } = .error .fieldNotZero := by decide
theorem test_reject_bit23 : decode { word := 0x11E90000#32 } = .error .fieldNotZero := by decide

/-! ### Words as the opcode table numbers them -/

theorem test_tableWord_rd16 : decodeTableWord 32 0x01000874 = some (.cfgRd16 0 1 0 0x74) := by decide
theorem test_tableWord_block : decodeTableWord 32 0x16690102 = some (.smbWriteBlockData 0x69 1 [0, 0]) := by decide
/-- A table word is the next command the machine runs, as the first after reset too. -/
theorem test_withFetchWord : nextWith (step (State.reset.withFetchWord 32 0x04000840)) (fun t =>
    decide (t.acc.dev = 1 ∧ t.acc.reg = 0x40 ∧ t.side.cfg = [(8 * 256 + 0x40, 0x00)])) = true := by decide

/-! ### Reset -/

theorem test_reset_memory : Memory.wf State.reset.side.cfg = true := by decide

/-! ### The configuration operations: V3, V4, V6, V8, V9, V10, V11, P3 -/

theorem test_rd8 : nextWith (exec (.cfgRd8 0xFF 0x1F 7 0xFF) (withCfg [(0xFFFFFF, 0x5A)])) (fun t =>
    decide (t.acc.rdata = 0x5A#32 ∧ t.side.trace = [.wr32 0xCF8 0x80FFFFFC, .rd8 0xCFF 0x5A])) = true := by decide
theorem test_rd16 : nextWith (exec (.cfgRd16 0 1 0 0x75) (withCfg [(8 * 256 + 0x75, 0x08), (8 * 256 + 0x76, 0xAA)])) (fun t =>
    decide (t.acc.rdata = 0xAA08#32 ∧
      t.side.trace = [.wr32 0xCF8 0x80000874, .rd8 0xCFD 0x08, .rd8 0xCFE 0xAA])) = true := by decide
/-- The environment changes the register between the two byte reads (R133). -/
theorem test_rd16_torn : nextWith (exec (.cfgRd16 0 1 0 0x74) { withCfg [(8 * 256 + 0x74, 0x80), (8 * 256 + 0x75, 0x08)] with
      side := { (withCfg [(8 * 256 + 0x74, 0x80), (8 * 256 + 0x75, 0x08)]).side with
        env := [[], [], [.setCfg 8 0x74 0x11, .setCfg 8 0x75 0x22]] } }) (fun t =>
    decide (t.acc.rdata = 0x2280#32)) = true := by decide
theorem test_rd32 : nextWith (exec (.cfgRd32 0 0 0 0) (withCfg [(0, 0x39), (1, 0x10), (2, 0x30), (3, 0x06)])) (fun t =>
    decide (t.acc.rdata = 0x06301039#32 ∧
      t.side.trace = [.wr32 0xCF8 0x80000000, .rd32 0xCFC 0x06301039])) = true := by decide
theorem test_wr8 : nextWith (exec (.cfgWr8 0 1 0 0x40 0x80) (withCfg [(8 * 256 + 0x40, 0x00)])) (fun t =>
    decide (t.side.cfg = [(8 * 256 + 0x40, 0x80)] ∧
      t.side.trace = [.wr32 0xCF8 0x80000840, .wr8 0xCFC 0x80])) = true := by decide
theorem test_wr16 : nextWith (exec (.cfgWr16 0 1 0 0x76 0xBEEF) (withCfg [])) (fun t =>
    decide (t.side.cfg = [(8 * 256 + 0x76, 0xEF), (8 * 256 + 0x77, 0xBE)] ∧
      t.side.trace = [.wr32 0xCF8 0x80000874, .wr8 0xCFE 0xEF, .wr8 0xCFF 0xBE])) = true := by decide
theorem test_wr32 : nextWith (exec (.cfgWr32 0 2 0 0x10 0x0000E001) (withCfg [])) (fun t =>
    decide (t.side.cfg = [(16 * 256 + 0x10, 0x01), (16 * 256 + 0x11, 0xE0), (16 * 256 + 0x12, 0x00), (16 * 256 + 0x13, 0x00)] ∧
      t.side.trace = [.wr32 0xCF8 0x80001010, .wr32 0xCFC 0x0000E001])) = true := by decide

/-- A visitor call that reads the VendorID dword and goes on, or stops. -/
def lookAt (f : BitVec 3) (stop : Bool) : VisitorCall := ⟨[.rd32 0 0 f 0], some stop⟩

theorem test_scan_hit : nextWith (exec (.cfgScan [⟨[], some false⟩, ⟨[], some true⟩]) (withCfg [])) (fun t =>
    decide (t.acc.found = true ∧ t.acc.idx = 1#17 ∧ t.acc.fn = 1#3 ∧
      t.side.trace = [.visit 0 0 0, .visit 0 0 1])) = true := by decide

/-- R13, R80: the environment moves before each visitor call, here before the second. -/
theorem test_scan_environment : nextWith (exec (.cfgScan [⟨[], some false⟩, ⟨[], some true⟩])
    (bound RegFile.reset [[], [.setReg .sts 0x08], [.setReg .sts 0xFF]])) (fun t =>
      decide (t.side.regs.sts = 0x08 ∧ t.side.env = [[.setReg .sts 0xFF]])) = true := by decide

/-- P3 in small: the visitor's accesses are the scan's only port accesses. -/
theorem test_scan_visitor : nextWith (exec (.cfgScan [lookAt 0 false, lookAt 1 true])
      (withCfg [(0, 1), (1, 1), (2, 1), (3, 1), (256, 0x39), (257, 0x10), (258, 0x08), (259, 0x00)])) (fun t =>
    decide (t.acc.found = true ∧ t.acc.rdata = 0x00081039#32 ∧ t.side.configAddress = 0x80000100#32 ∧
      portCount t.side.trace = 4)) = true := by decide

/-! ### The eight SMBus operations: the traces of R180 to R187, first poll `00`, second poll completing -/

set_option maxRecDepth 100000

theorem test_readQuick : nextWith (exec (.smbReadQuick 0x69) (secondPoll 9 [.setReg .sts 0x08])) (fun t =>
    decide (t.eng.ok = true ∧ t.side.trace.filter Event.isPort =
      opening 0xD3 ++ [wrAt 3 0x10, rdAt 0 0x00, rdAt 0 0x08, wrAt 0 0xFF])) = true := by decide
theorem test_writeQuick : nextWith (exec (.smbWriteQuick 0) (secondPoll 9 [.setReg .sts 0x08])) (fun t =>
    decide (t.eng.ok = true ∧ t.side.trace.filter Event.isPort =
      opening 0x00 ++ [wrAt 3 0x10, rdAt 0 0x00, rdAt 0 0x08, wrAt 0 0xFF])) = true := by decide
theorem test_readByte : nextWith (exec (.smbReadByte 0x69) (secondPoll 9 [.setReg .sts 0x08, .setReg (.byte 0) 0xA7])) (fun t =>
    decide (t.eng.ok = true ∧ t.eng.rlen = 1 ∧ bufGet t.eng.rbuf 0 = 0xA7 ∧ t.side.trace.filter Event.isPort =
      opening 0xD3 ++ [wrAt 3 0x11, rdAt 0 0x00, rdAt 0 0x08, rdAt 8 0xA7, wrAt 0 0xFF])) = true := by decide
theorem test_writeByte : nextWith (exec (.smbWriteByte 0x69 0x5A) (secondPoll 10 [.setReg .sts 0x08])) (fun t =>
    decide (t.eng.ok = true ∧ t.side.trace.filter Event.isPort =
      opening 0xD2 ++ [wrAt 5 0x5A, wrAt 3 0x11, rdAt 0 0x00, rdAt 0 0x08, wrAt 0 0xFF])) = true := by decide
theorem test_readByteData :
    nextWith (exec (.smbReadByteData 0x69 0x03) (secondPoll 10 [.setReg .sts 0x08, .setReg (.byte 0) 0xA7])) (fun t =>
    decide (t.eng.ok = true ∧ t.eng.rlen = 1 ∧ bufGet t.eng.rbuf 0 = 0xA7 ∧ t.side.trace.filter Event.isPort =
      opening 0xD3 ++ [wrAt 5 0x03, wrAt 3 0x12, rdAt 0 0x00, rdAt 0 0x08, rdAt 8 0xA7, wrAt 0 0xFF])) = true := by decide
/-- V38: a transfer other than a block does not end on "block finished". -/
theorem test_readByteData_blockFin : nextWith (exec (.smbReadByteData 0x69 0x03) (bound { RegFile.reset with sts := 0x10 } []))
    (fun t => decide (t.eng.fail = .transferTimeout ∧ portCount t.side.trace = 48)) = true := by decide
theorem test_writeByteData : nextWith (exec (.smbWriteByteData 0x69 0x03 0x5A) (secondPoll 11 [.setReg .sts 0x08])) (fun t =>
    decide (t.eng.ok = true ∧ t.side.trace.filter Event.isPort =
      opening 0xD2 ++ [wrAt 5 0x03, wrAt 8 0x5A, wrAt 3 0x12, rdAt 0 0x00, rdAt 0 0x08, wrAt 0 0xFF])) = true := by decide
theorem test_readBlockData :
    nextWith (exec (.smbReadBlockData 0x69 0) (secondPoll 10 [.setReg .sts 0x10, .setReg .count 3, .setReg (.byte 0) 0x11,
      .setReg (.byte 1) 0x22, .setReg (.byte 2) 0x33])) (fun t =>
    decide (t.eng.ok = true ∧ t.eng.rlen = 3 ∧ t.eng.rbuf.toList.take 3 = [0x11, 0x22, 0x33] ∧
      t.side.trace.filter Event.isPort = opening 0xD3 ++ [wrAt 5 0x00, wrAt 3 0x15, rdAt 0 0x00, rdAt 0 0x10, rdAt 7 0x03, rdAt 8 0x11, rdAt 9 0x22,
        rdAt 10 0x33, wrAt 0 0x10, wrAt 0 0xFF])) = true := by decide
/-- V34: an error in the second group discards the eight bytes already fetched. -/
theorem test_readBlockData_error : nextWith (exec (.smbReadBlockData 0x69 0) (bound { RegFile.reset with sts := 0x10, count := 12 }
      (quiet 20 ++ [[.setReg .sts 0x02]]))) (fun t =>
    decide (t.eng.fail = .transferFailure ∧ t.eng.rlen = 0 ∧ t.eng.got = 8 ∧ portCount t.side.trace = 20)) = true := by decide
theorem test_writeBlockData : nextWith (exec (.smbWriteBlockData 0x69 0 [0x41]) (secondPoll 12 [.setReg .sts 0x08])) (fun t =>
    decide (t.eng.ok = true ∧ t.side.trace.filter Event.isPort =
      opening 0xD2 ++ [wrAt 5 0x00, wrAt 7 0x01, wrAt 8 0x41, wrAt 3 0x15, rdAt 0 0x00, rdAt 0 0x08, wrAt 0 0xFF])) = true := by decide
/-- V35: nine bytes: the ninth goes into window byte 0 after the first poll, then the re-arm. -/
theorem test_writeBlockData_nine : nextWith (exec (.smbWriteBlockData 0x69 0x10 [0x30, 0x31, 0x32, 0x33, 0x34, 0x35, 0x36, 0x37, 0x38])
      (bound { RegFile.reset with sts := 0x10 } (quiet 20 ++ [[.setReg .sts 0x08]]))) (fun t =>
    decide (t.eng.ok = true ∧ portCount t.side.trace = 21 ∧ (t.side.trace.filter Event.isPort).drop 16 =
      [rdAt 0 0x10, wrAt 8 0x38, wrAt 0 0x10, rdAt 0 0x08, wrAt 0 0xFF])) = true := by decide

/-! ### Witnesses: states and operands that meet the hypotheses of each statement together -/

theorem witness_DecodeOfEncodeIsTheInstruction :
    (Instr.smbWriteBlockData 0x69 0 [0x41]).wellFormed = true ∧
    (Instr.smbWriteBlockData 0x69 0 (List.replicate 32 0xFF)).wellFormed = true ∧
    (Instr.cfgWr16 0 1 0 0x76 0xFFFF).wellFormed = true := by decide

theorem witness_EncodeOfDecodeIsTheCommand :
    decode { word := 0x05000876#32, wdata := some 0xFFFF#32 } = .ok (.cfgWr16 0 1 0 0x76 0xFFFF) := by decide

theorem witness_OpcodeTableDecides_unlisted :
    ∀ row ∈ opcodeTable, (0x03000000#32) &&& row.mask ≠ row.pattern := by decide

/-- The last opcode below the table's first gap, between its opcodes, and above its last. -/
theorem witness_RefusedCommands_opcode :
    [0x03000000#32, 0x07000000#32, 0x09000000#32, 0x0F000000#32, 0x18000000#32, 0xFF000000#32].all (fun x =>
      decide ((opcodeOf x).toNat ∉ [0, 1, 2, 4, 5, 6, 8, 16, 17, 18, 19, 20, 21, 22, 23])) = true := by decide

theorem witness_RefusedCommands_fields :
    decode { word := 0x16690020#32, wbuf := List.replicate 32 0 } =
      .ok (.smbWriteBlockData 0x69 0 (List.replicate 32 0)) ∧
    decode { word := 0x04000840#32, wdata := some 0xFF#32 } = .ok (.cfgWr8 0 1 0 0x40 0xFF) := by decide

theorem witness_RefusedCommands_noBase :
    (smbOperands (.smbReadQuick 0x69)).isSome = true ∧ (Instr.smbReadQuick 0x69).wellFormed = true ∧
    CfgReady State.reset ∧ State.reset.binding.baseValid = false := by decide

/-- A machine in the middle of a pass. -/
def active : State := { bound regs40 [] with eng := { Engine.reset with st := .pollComplete } }

theorem witness_RefusedCommands_active :
    (Instr.cfgScan []).wellFormed = true ∧ active.eng.st.accepting = false := by decide

theorem witness_IllFormedTermsAreRefused :
    (Instr.smbWriteBlockData 0x69 0 []).wellFormed = false ∧ (Instr.cfgRd16 0 0 0 3).wellFormed = false ∧
    CfgReady (bound regs40 []) := by decide

/-- A machine to which the client has sent what is given. -/
def sent (l : List ClientInput) : State := { bound regsDone [] with inbox := l }

theorem witness_StepRunsTheDecodedCommand :
    CfgReady (sent [.command { word := 0x11690000#32 }]) ∧
    (sent [.command { word := 0x11690000#32 }]).inbox = .command { word := 0x11690000#32 } :: [] ∧
    decode { word := 0x11690000#32 } = .ok (.smbReadQuick 0x69) ∧
    decodeTableWord 32 0x11690000 = some (.smbReadQuick 0x69) := by decide

/-- What n steps of the block come to has the property. -/
def blockWith (r : Host.Outcome InFlight Fault Refusal) (p : InFlight → Bool) : Bool :=
  match r with
  | .next q => p q
  | .fault _ => false
  | .refused _ => false

/-- A machine with no base, between operations, to which the client has sent `CFG_RD16` of register 0x75. -/
def midRead : InFlight := { state := { withCfg [] with inbox := [.command { word := 0x01000875#32 }] }, todo := [] }

/-- R131, R133: the first step of a 16-bit read is its address write alone, and two data reads are left to do. -/
theorem test_blockStep_first : blockWith (blockStep midRead) (fun q =>
    decide (newEvents midRead.state q.state = [.wr32 0xCF8#16 0x80000874#32] ∧ q.todo = [.act .readLow])) = true := by decide

/-- R133: the third step ends it. -/
theorem test_blockSteps_three : blockWith (blockSteps 3 midRead) (fun q =>
    decide (q.todo = [] ∧ stepCount (newEvents midRead.state q.state) = 3)) = true := by decide

theorem witness_ABlockStepIsOneStep :
    let r : InFlight := { state := withCfg [], todo := [.act .readByte] }
    r.todo = .act .readByte :: [] ∧ blockWith (blockStep r) (fun _ => true) = true := by decide

theorem witness_AnOperationIsItsBlockSteps :
    nextWith (exec (.smbReadQuick 0x69) (bound regsDone [])) (fun _ => true) = true ∧
    exec (.cfgScan [⟨[], none⟩]) State.reset = .fault .visitorNeverReturns ∧
    refusedWith (exec (.smbReadQuick 0x69) State.reset) .noBase = true := ⟨by decide, rfl, by decide⟩

theorem witness_AStepIsTheBlockStepsOfItsCommand :
    CfgReady (sent [.command { word := 0x11690000#32 }]) ∧
    (sent [.command { word := 0x11690000#32 }]).inbox = .command { word := 0x11690000#32 } :: [] ∧
    nextWith (step (sent [.command { word := 0x11690000#32 }])) (fun _ => true) = true := by decide

theorem witness_StepRefusesWhatDoesNotDecode :
    CfgReady (sent [.command { word := 0x18000000#32 }]) ∧
    (sent [.command { word := 0x18000000#32 }]).inbox = .command { word := 0x18000000#32 } :: [] ∧
    decode { word := 0x18000000#32 } = .error .unknownOpcode := by decide

theorem witness_NothingHappensWithoutACommand : CfgReady (sent []) ∧ (sent []).inbox = [] := by decide

/-- A machine that holds the result of a pass, to which the client has sent l. -/
def holding (l : List ClientInput) : State := { bound RegFile.reset [] with
  eng := { Engine.reset with st := .done, ok := true }
  inbox := l }

theorem witness_AResultIsHeld :
    ((holding []).eng.st = .done ∨ (holding []).eng.st = .failed) ∧ (holding []).binding.baseValid = true ∧
    (holding []).inbox = [] ∧ ∃ t, step (holding [.command { word := 0x00000000#32 }]) = .next t :=
  ⟨.inl rfl, rfl, rfl, _, rfl⟩

theorem witness_BindStep_second :
    CfgReady (sent [.bind 0x0880#16]) ∧ (sent [.bind 0x0880#16]).inbox = .bind 0x0880#16 :: [] ∧
    (sent [.bind 0x0880#16]).binding.baseValid = true := by decide

/-- A machine with no base to which the client hands a value. -/
def binding (b : Port) : State := { State.reset with inbox := [.bind b] }

theorem witness_BindStep_refused :
    CfgReady (binding 0xFFFF#16) ∧ (binding 0xFFFF#16).inbox = .bind 0xFFFF#16 :: [] ∧
    (binding 0xFFFF#16).binding.baseValid = false := by decide

theorem witness_BindStep_taken :
    CfgReady (binding 0x0001#16) ∧ (binding 0x0001#16).inbox = .bind 0x0001#16 :: [] ∧
    (binding 0x0001#16).binding.baseValid = false ∧ (0x0001#16 : Port) ≠ 0x0000#16 ∧
    (0x0001#16 : Port) ≠ 0xFFFF#16 := by decide

theorem bound_inv (f : RegFile) (e : List (List EnvAct)) (l : List ClientInput) : ({ bound f e with inbox := l }).Inv where
  cfg_wf := rfl
  params_valid := Params.P0_valid
  base_ok := fun _ => (by decide : (0x0880#16 : Port) ∉ Config.BASE_INVALID)
  unbound_idle := fun h => by cases h
  idx_le := Nat.zero_le _
  eng := (by constructor <;> decide : Engine.reset.Inv)

theorem witness_StepKeepsTheInvariant :
    (sent [.command { word := 0x11690000#32 }]).Inv ∧
    ∃ t, step (sent [.command { word := 0x11690000#32 }]) = .next t :=
  ⟨bound_inv .., _, rfl⟩

theorem witness_TheBoundBaseNeverChanges :
    (sent [.command { word := 0x11690000#32 }]).binding.baseValid = true ∧
    ∃ t, step (sent [.command { word := 0x11690000#32 }]) = .next t :=
  ⟨rfl, _, rfl⟩

theorem witness_OnlyPermittedPortsAreTouched :
    nextWith (step (sent [.command { word := 0x11690000#32 }]))
      (fun t => decide (portCount t.side.trace = 8)) = true := by decide

/-- Two machines that differ in every working register that a pass reads. -/
def stale : State := { bound regsDone [] with
  eng := { Engine.reset with sa := 5, cmd := 6, c := 7, s := 8, retry := 3, poll := 9, got := 4, cnt := 2, st := .done, rlen := 1 }
  acc := { Accessor.reset with reg := 9, wdata := 10, rdata := 11 } }

theorem witness_NoStaleWorkingRegisterIsRead :
    CfgReady (bound regsDone []) ∧ CfgReady stale ∧ (bound regsDone []).binding = stale.binding ∧
    (bound regsDone []).side = stale.side ∧ (bound regsDone []).inbox = stale.inbox ∧ bound regsDone [] ≠ stale := by
  refine ⟨by decide, by decide, rfl, rfl, rfl, fun h => ?_⟩
  exact absurd (congrArg (·.eng.sa) h) (by decide)

theorem witness_BytesTheEngineForms : 1 ≤ 1 ∧ 1 ≤ 32 ∧ 1 ≤ 32 ∧ 32 ≤ 32 := by decide

/-- For the six configuration results: the state, and the register numbers at the ends of each width's lanes. -/
theorem witness_CfgResults :
    CfgReady State.reset ∧ State.reset.binding.platform = .hardware ∧
    ((0x00#8 &&& 3#8 : Byte) ≠ 3#8 ∧ (0x02#8 &&& 3#8 : Byte) ≠ 3#8 ∧ (0xFE#8 &&& 3#8 : Byte) ≠ 3#8) ∧
    ((0x00#8 &&& 3#8 : Byte) = 0#8 ∧ (0xFC#8 &&& 3#8 : Byte) = 0#8) := by decide

theorem reset_passive : State.reset.side.Passive := by simp [PortSide.Passive, State.reset]

theorem witness_ConfigurationDataIsLittleEndian :
    (0xFC#8 &&& 3#8 : Byte) = 0#8 ∧ CfgReady State.reset ∧ State.reset.binding.platform = .hardware ∧
    State.reset.side.Passive := ⟨by decide, by decide, rfl, reset_passive⟩

theorem witness_ConfigurationPortAccessCounts :
    (CfgAccess.rd16 0 0 0 2).wellFormed = true ∧ (CfgAccess.wr32 0 0 0 0 0).wellFormed = true ∧ CfgReady State.reset ∧
    ∀ v ∈ [VisitorCall.mk [] (some false)], v.cmds = [] ∧ v.answer.isSome = true := by decide

theorem witness_ScanStopsAtTheFirstHit :
    CfgReady State.reset ∧ (∀ v ∈ [lookAt 0 false], served v = true ∧ v.answer = some false) ∧
    served (lookAt 1 true) = true ∧ (lookAt 1 true).answer = some true ∧ [lookAt 0 false].length < 65536 := by decide

theorem witness_ScanStopsAtTheFirstHit_last :
    (∀ v ∈ List.replicate 65535 (VisitorCall.mk [] (some false)), served v = true ∧ v.answer = some false) ∧
    (List.replicate 65535 (VisitorCall.mk [] (some false))).length < 65536 := by
  refine ⟨fun v hv => ?_, by rw [List.length_replicate]; decide⟩
  rw [List.eq_of_mem_replicate hv]
  decide

theorem witness_ScanVisitsEveryFunctionOnce :
    CfgReady State.reset ∧ (∀ v ∈ [lookAt 0 false], served v = true ∧ v.answer = some false) ∧
    (∀ v ∈ [VisitorCall.mk [] (some false)], served v = true ∧ v.answer = some false ∧ v.cmds = []) := by decide

theorem witness_ScanStopsWithItsVisitor :
    CfgReady State.reset ∧ (∀ v ∈ [lookAt 0 false], served v = true ∧ v.answer = some false) ∧
    [lookAt 0 false].length < 65536 ∧
    ((VisitorCall.mk [] none).cmds.all CfgAccess.wellFormed = true ∧ (VisitorCall.mk [] none).answer = none) ∧
    (VisitorCall.mk [.rd16 0 0 0 3] none).cmds.all CfgAccess.wellFormed = false := by decide

/-- The stub platform, bound. -/
def stub : State := { bound RegFile.reset [] with
  binding := { base := 0x0880#16, baseValid := true, params := Params.P0, platform := .stub } }

theorem witness_StubPlatform :
    CfgReady stub ∧ stub.binding.platform = .stub ∧ stub.side.Passive ∧ SmbReady stub ∧
    (smbOperands (.smbReadBlockData 0x69 0)).isSome = true ∧ (Instr.smbReadBlockData 0x69 0).wellFormed = true :=
  ⟨by decide, rfl, by simp [PortSide.Passive, stub, bound], by decide, by decide, by decide⟩

theorem witness_EngineTransitions :
    active.eng.st.accepting = false ∧ active.binding.portsClear = true ∧
    smbOperands (.smbWriteBlockData 0x69 0 [1]) = some (.blockData, .write, 0x69, 0, [1]) ∧
    (Instr.smbWriteBlockData 0x69 0 [1]).wellFormed = true ∧ SmbReady (bound regsDone []) ∧
    smbOperands (.cfgRd8 0 0 0 0) = none ∧ nextWith (exec (.cfgRd8 0 0 0 0) (bound regsDone [])) (fun _ => true) = true := by
  decide

/-- The hypotheses the statements on a pass share: an SMBus instruction, its operands, a machine that accepts it. -/
theorem witness_EveryPassEnds :
    (smbOperands (.smbReadBlockData 0x69 0)).isSome = true ∧ (Instr.smbReadBlockData 0x69 0).wellFormed = true ∧
    SmbReady (bound regsDone []) := by decide

theorem witness_ResultOfAPass :
    smbOperands (.smbReadQuick 0x69) = some (.quick, .read, 0x69, 0, []) ∧ (Instr.smbReadQuick 0x69).wellFormed = true ∧
    SmbReady (bound regsDone []) ∧ ∃ t, exec (.smbReadQuick 0x69) (bound regsDone []) = .next t :=
  ⟨by decide, by decide, by decide, _, rfl⟩

theorem bound_passive (f : RegFile) (n : Nat) : (bound f (quiet n)).side.Passive := by
  intro acts h
  exact List.eq_of_mem_replicate h

theorem witness_APassLeavesTheRestAlone :
    (smbOperands (.smbReadQuick 0x69)).isSome = true ∧ SmbReady (bound regsDone (quiet 0)) ∧
    (bound regsDone (quiet 0)).binding.params.Valid ∧ (bound regsDone (quiet 0)).side.Passive ∧
    ∃ t, exec (.smbReadQuick 0x69) (bound regsDone (quiet 0)) = .next t :=
  ⟨by decide, by decide, Params.P0_valid, bound_passive _ _, _, rfl⟩

/-- The premise of the second clause: a pass whose record has a write of the control register. -/
theorem witness_ValuesThePassWrites_control :
    nextWith (exec (.smbReadQuick 0x69) (bound { regsDone with cnt := 0x50 } [])) (fun t =>
      decide (newEvents (bound { regsDone with cnt := 0x50 } []) t =
        [rdAt 2 0x50, rdAt 2 0x50] ++ wrAt 2 (0x50 &&& ~~~Params.P0.cntMstoEn) ::
          (newEvents (bound { regsDone with cnt := 0x50 } []) t).drop 3)) = true := by decide

theorem witness_ValuesThePassWrites :
    smbOperands (.smbReadQuick 0x69) = some (.quick, .read, 0x69, 0, []) ∧ SmbReady (bound regsDone []) ∧
    (bound regsDone []).binding.params.Valid ∧ ∃ t, exec (.smbReadQuick 0x69) (bound regsDone []) = .next t :=
  ⟨by decide, by decide, Params.P0_valid, _, rfl⟩

/-- Control `43`: both busy bits set (V20, V22). -/
def regsBusy : RegFile := { RegFile.reset with cnt := 0x43, sts := 0x08 }

theorem witness_BusContentionStartsNothing_tenth :
    let s : State := { bound regsBusy [] with eng := { Engine.reset with st := .recover, retry := 9 } }
    s.eng.st = .recover ∧ s.eng.retry = 9 ∧ isBusy s.binding.params (recover s).eng.c = true := by decide

theorem witness_BusContentionStartsNothing :
    (smbOperands (.smbWriteQuick 0)).isSome = true ∧ SmbReady (bound regsBusy []) ∧
    nextWith (exec (.smbWriteQuick 0) (bound regsBusy [])) (fun t => decide (t.eng.fail = .busContention)) = true := by decide

theorem witness_BusyBitsThatNeverClear :
    (smbOperands (.smbWriteQuick 0)).isSome = true ∧ (Instr.smbWriteQuick 0).wellFormed = true ∧
    SmbReady (bound regsBusy (quiet 0)) ∧ (bound regsBusy (quiet 0)).binding.platform = .hardware ∧
    (bound regsBusy (quiet 0)).binding.params.Valid ∧ (bound regsBusy (quiet 0)).side.Passive ∧
    isBusy Params.P0 regsBusy.cnt = true ∧ isBusy Params.P0 0x01 = true ∧ isBusy Params.P0 0x02 = true :=
  ⟨by decide, by decide, by decide, rfl, Params.P0_valid, bound_passive _ _, by decide, by decide, by decide⟩

/-- V20: the busy bits clear before the first re-check. -/
def clearing : State := bound regsBusy [[], [], [], [.setReg .cnt 0x40]]

theorem witness_BusyBitsThatClearAfterTheKill :
    SmbReady clearing ∧ clearing.binding.platform = .hardware ∧ clearing.binding.params.Valid ∧
    clearing.side.env = [] :: [] :: [] :: [.setReg .cnt 0x40] :: [] ∧
    isBusy clearing.binding.params clearing.side.regs.cnt = true ∧ isBusy clearing.binding.params 0x40 = false ∧
    isError clearing.binding.params (clearing.side.regs.sts &&& ~~~clearing.binding.params.stsPreclear) = false ∧
    isDone clearing.binding.params (clearing.side.regs.sts &&& ~~~clearing.binding.params.stsPreclear) = true :=
  ⟨by decide, rfl, Params.P0_valid, rfl, by decide, by decide, by decide, by decide⟩

theorem witness_TimeoutAfterFortyPolls :
    smbOperands (.smbReadQuick 0x69) = some (.quick, .read, 0x69, 0, []) ∧
    smbOperands (.smbReadBlockData 0x69 0) = some (.blockData, .read, 0x69, 0, []) ∧
    (Instr.smbReadBlockData 0x69 0).wellFormed = true ∧ SmbReady (bound regs40 (quiet 0)) ∧
    (bound regs40 (quiet 0)).binding.platform = .hardware ∧ (bound regs40 (quiet 0)).binding.params.Valid ∧
    (bound regs40 (quiet 0)).side.Passive ∧ isBusy Params.P0 regs40.cnt = false ∧
    isError Params.P0 (regs40.sts &&& ~~~Params.P0.stsPreclear) = false ∧
    isDone Params.P0 (regs40.sts &&& ~~~Params.P0.stsPreclear) = false ∧
    isBlockFin Params.P0 (regs40.sts &&& ~~~Params.P0.stsPreclear) = false ∧
    isBlockFin Params.P0 (0x10#8 &&& ~~~Params.P0.stsPreclear) = true :=
  ⟨by decide, by decide, by decide, by decide, rfl, Params.P0_valid, bound_passive _ _, by decide, by decide, by decide,
    by decide, by decide⟩

/-- Error and completion in one status value (V26). -/
def regsError : RegFile := { RegFile.reset with sts := 0x0A }

theorem witness_AnErrorBitWins :
    (smbOperands (.smbReadByteData 0x69 3)).isSome = true ∧ (Instr.smbReadByteData 0x69 3).wellFormed = true ∧
    SmbReady (bound regsError (quiet 0)) ∧ (bound regsError (quiet 0)).binding.platform = .hardware ∧
    (bound regsError (quiet 0)).binding.params.Valid ∧ (bound regsError (quiet 0)).side.Passive ∧
    isBusy Params.P0 regsError.cnt = false ∧ isError Params.P0 (regsError.sts &&& ~~~Params.P0.stsPreclear) = true :=
  ⟨by decide, by decide, by decide, rfl, Params.P0_valid, bound_passive _ _, by decide, by decide⟩

/-- For the results of the eight operations: the machine, the completion shown, and the ends of the two block ranges. -/
theorem witness_SmbResults :
    SmbReady (bound regsDone (quiet 0)) ∧ (bound regsDone (quiet 0)).binding.platform = .hardware ∧
    (bound regsDone (quiet 0)).binding.params.Valid ∧ (bound regsDone (quiet 0)).side.Passive ∧
    isBusy Params.P0 regsDone.cnt = false ∧ isError Params.P0 (regsDone.sts &&& ~~~Params.P0.stsPreclear) = false ∧
    isDone Params.P0 (regsDone.sts &&& ~~~Params.P0.stsPreclear) = true ∧
    (1 ≤ [0x41#8].length ∧ [0x41#8].length ≤ 32) ∧
    (1 ≤ (List.replicate 32 0x41#8).length ∧ (List.replicate 32 0x41#8).length ≤ 32) :=
  ⟨by decide, rfl, Params.P0_valid, bound_passive _ _, by decide, by decide, by decide, by decide, by decide⟩

theorem witness_AReadReturnsTheBytesItRead :
    smbOperands (.smbReadBlockData 0x69 0) = some (.blockData, .read, 0x69, 0, []) ∧
    SmbReady (bound { regsDone with count := 9 } []) ∧ (bound { regsDone with count := 9 } []).binding.params.Valid ∧
    nextWith (exec (.smbReadBlockData 0x69 0) (bound { regsDone with count := 9 } []))
      (fun t => decide (t.eng.st = .done ∧ t.eng.rlen = 9)) = true :=
  ⟨by decide, by decide, Params.P0_valid, by decide⟩

theorem witness_ABlockWriteSendsItsBytes :
    SmbReady (bound regsDone []) ∧ (bound regsDone []).binding.params.Valid ∧
    nextWith (exec (.smbWriteBlockData 0x69 0 (List.replicate 9 0x41)) (bound regsDone []))
      (fun t => decide (t.eng.st = .done)) = true :=
  ⟨by decide, Params.P0_valid, by decide⟩

/-- The illustration of 43_client_sequences.md, with example E1's instance. -/
theorem witness_KeyRoundTrip :
    ([4, 5, 6, 2] : List (Fin 8)).Nodup ∧ (0 : Fin 8) ∉ ([4, 5, 6, 2] : List (Fin 8)) ∧ 13 < 2 ^ 4 ∧
    getKey [4, 5, 6, 2] 0x5C = 13 ∧ encodeKey [4, 5, 6, 2] 0x08 1 = 0x18 := by decide

/-- The clients' illustration I0. -/
def I0 : ClientParams where
  vidReg := 0x00
  didReg := 0x02
  lpc := ⟨0, 1, 0, 0x1039, 0x0008⟩
  acpiCtlReg := 0x40
  acpiEnMask := 0x80
  smbBaseReg := 0x74
  pllSa := 0x69
  keyReg := 0
  keyBits := [4, 5, 6, 2]
  enReg := 1
  enBit := 0

/-- P1: discovery succeeds with ACPI disabled at first; and with the sentinel in the base register it fails. -/
theorem witness_InitSmbBindsAValidBase :
    (match initSMB I0 (withCfg [(2048, 0x39), (2049, 0x10), (2050, 0x08), (2051, 0x00), (2112, 0x00), (2164, 0x80), (2165, 0x08)]) with
      | .ok t => decide (t.binding.base = 0x0880#16 ∧ portCount t.side.trace = 15)
      | .error _ => false) = true ∧
    (match initSMB I0 (withCfg [(2048, 0x39), (2049, 0x10), (2050, 0x08), (2051, 0x00), (2112, 0x80), (2164, 0xFF), (2165, 0xFF)]) with
      | .ok _ => false
      | .error (.failed k _) => decide (k = .firmwareState)
      | .error (.emptyResult _) => false
      | .error (.refused _) => false) = true := by decide

end Sys2Proof.Tests
end

section
/-! The steps of the block behind an operation (00_scope.md R13). `Leads s l t k` says that the block, made to step on
from the state s with the plan l, comes to the state t with the plan k after exactly the steps it has recorded on the
way. The functions of PciConfig.lean and Engine.lean are tied to their plans by it: an access (`accessPlan_carries`), a
phase of the engine (`phasePlan_carries`), a pass (`runEngine_carries`) and a scan (`scanFrom_endsAs`); and
`beginOperation_takenUp` puts them together for every instruction. -/

namespace Sys2Proof.Machine

/-! ### Steps that lead from one plan to another -/

/-- n more steps of the block, from a machine that has not stopped. -/
def goOn (n : Nat) : Host.Outcome InFlight Fault Refusal → Host.Outcome InFlight Fault Refusal
  | .next q => blockSteps n q
  | .fault e => .fault e
  | .refused e => .refused e

@[simp] theorem goOn_zero (o : Host.Outcome InFlight Fault Refusal) : goOn 0 o = o := by
  cases o <;> rfl

theorem blockSteps_succ_eq (n : Nat) (r : InFlight) : blockSteps (n + 1) r = goOn n (blockStep r) := by
  rw [blockSteps]
  cases blockStep r <;> rfl

theorem goOn_add (m n : Nat) (o : Host.Outcome InFlight Fault Refusal) : goOn (m + n) o = goOn n (goOn m o) := by
  induction m generalizing o with
  | zero => rw [Nat.zero_add, goOn_zero]
  | succ m ih =>
    cases o with
    | next r =>
      rw [Nat.add_right_comm]
      simp only [goOn, blockSteps_succ_eq]
      exact ih _
    | fault e => rfl
    | refused e => rfl

/-- The block comes from the state s with the plan l to the state t with the plan k, and the steps it takes are those
that the record then has more. -/
def Leads (s : State) (l : List Todo) (t : State) (k : List Todo) : Prop :=
  ∃ es, t.side.trace = s.side.trace ++ es ∧ goOn (stepCount es) (settle s l) = settle t k

namespace Leads

/-- Two plans that settle alike, from states with the same record, are no step apart. -/
theorem of_settle {s t : State} {l k : List Todo} (hs : t.side = s.side) (h : settle s l = settle t k) :
    Leads s l t k :=
  ⟨[], by rw [hs, List.append_nil], h ▸ goOn_zero _⟩

theorem refl (s : State) (l : List Todo) : Leads s l s l := of_settle rfl rfl

theorem trans {s t u : State} {l k j : List Todo} (h : Leads s l t k) (h' : Leads t k u j) : Leads s l u j := by
  obtain ⟨es, h1, h2⟩ := h
  obtain ⟨fs, k1, k2⟩ := h'
  exact ⟨es ++ fs, by rw [k1, h1, List.append_assoc], by rw [stepCount_append, goOn_add, h2, k2]⟩

/-- The step that stands first in the plan is made. -/
theorem act {s t : State} {a : BlockAct} {more : List Todo} (h : perform s a = .ok (t, more)) (rest : List Todo) :
    Leads s (.act a :: rest) t (more ++ rest) := by
  obtain ⟨e, d, htr, he, hd⟩ := perform_adds h
  have hn : stepCount (e :: d) = 1 := by
    rw [stepCount, List.filter_cons_of_pos he]
    rcases hd with rfl | ⟨k, rfl⟩ <;> rfl
  have hb : goOn 1 (settle s (.act a :: rest)) = blockStep { state := s, todo := .act a :: rest } :=
    (blockSteps_succ_eq 0 _).trans (goOn_zero _)
  exact ⟨e :: d, htr, by rw [hn, hb, blockStep_act h]⟩

end Leads

/-- The plan l, whatever stands after it, takes the state s to the state t. -/
def Carries (s : State) (l : List Todo) (t : State) : Prop := ∀ rest, Leads s (l ++ rest) t rest

namespace Carries

theorem nil (s : State) : Carries s [] s := Leads.refl s

theorem append {s t u : State} {l k : List Todo} (h : Carries s l t) (h' : Carries t k u) : Carries s (l ++ k) u :=
  fun rest => by
    rw [List.append_assoc]
    exact (h _).trans (h' rest)

/-- A step that calls for others, then those and the rest of the plan. -/
theorem actMore {s t u : State} {a : BlockAct} {more l : List Todo} (h : perform s a = .ok (t, more))
    (h' : Carries t (more ++ l) u) : Carries s (.act a :: l) u :=
  fun rest => (Leads.act h (l ++ rest)).trans (List.append_assoc more l rest ▸ h' rest)

/-- A step that calls for no other, then the rest of the plan. -/
theorem act {s t u : State} {a : BlockAct} {l : List Todo} (h : perform s a = .ok (t, [])) (h' : Carries t l u) :
    Carries s (.act a :: l) u :=
  actMore h h'

/-- A bookkeeping item that changes registers of the block, then the rest of the plan. -/
theorem keep {s t u : State} {b : Bookkeeping} {l : List Todo}
    (h : ∀ rest, settle s (.keep b :: rest) = settle t rest) (hs : t.side = s.side) (h' : Carries t l u) :
    Carries s (.keep b :: l) u :=
  fun rest => (Leads.of_settle hs (h _)).trans (h' rest)

end Carries

/-! ### Configuration accesses -/

theorem accessPlan_carries (s : State) (a : CfgAccess) : Carries s (accessPlan a) (runAccess s a) := by
  cases a with
  | rd8 b d f r => exact .act rfl (.act rfl (.nil _))
  | rd16 b d f r => exact .act rfl (.actMore rfl (.act rfl (.nil _)))
  | rd32 b d f r => exact .act rfl (.act rfl (.nil _))
  | wr8 b d f r v => exact .act rfl (.act rfl (.nil _))
  | wr16 b d f r v => exact .act rfl (.act rfl (.act rfl (.nil _)))
  | wr32 b d f r v => exact .act rfl (.act rfl (.nil _))

/-- The commands a visitor issues in one call. -/
theorem cmdsPlan_carries (s : State) (cmds : List CfgAccess) :
    Carries s (cmds.flatMap accessPlan) (cmds.foldl runAccess s) := by
  induction cmds generalizing s with
  | nil => exact .nil s
  | cons a cmds ih => exact (accessPlan_carries s a).append (ih _)

/-! ### The phases of the engine -/

@[simp] theorem setGot_binding (s : State) (n : Nat) : (setGot s n).binding = s.binding := rfl

theorem placePlan_carries {s p : State} (h : s.eng = p.eng) (first i n : Nat) :
    Carries s (placePlan p first i n) (placeWindow s first i n) := by
  induction n generalizing s i with
  | zero => exact .nil s
  | succ n ih =>
    rw [placeWindow, h]
    exact .act rfl (ih (by rw [wrReg_eng, h]) _)

theorem fetchPlan_carries (s : State) (i n : Nat) : Carries s (fetchPlan i n) (fetchWindow s i n) := by
  induction n generalizing s i with
  | zero => exact .nil s
  | succ n ih => exact .act rfl (ih _ _)

/-- The row of R158, planned from the registers as they were before the address was written. -/
theorem operandPlan_carries {s p : State} (h : s.eng = p.eng) : Carries s (operandPlan p) (programOperands s) := by
  cases ht : p.eng.type with
  | quick =>
    cases hr : p.eng.rw <;> simp only [operandPlan, programOperands, h, ht, hr] <;> exact .nil s
  | byte =>
    cases hr : p.eng.rw <;> simp only [operandPlan, programOperands, h, ht, hr]
    · exact .act rfl (.nil _)
    · exact .nil s
  | byteData =>
    cases hr : p.eng.rw <;> simp only [operandPlan, programOperands, h, ht, hr]
    · exact .act rfl (.act rfl (.nil _))
    · exact .act rfl (.nil _)
  | blockData =>
    cases hr : p.eng.rw <;>
      simp only [operandPlan, programOperands, h, ht, hr, wrReg_eng, List.cons_append, List.nil_append]
    · exact .act rfl (.act rfl ((placePlan_carries (by rw [wrReg_eng, wrReg_eng, h]) 0 0 _).append
        (.keep (fun _ => rfl) rfl (.nil _))))
    · exact .act rfl (.nil _)

theorem recoverPlan_carries {s : State} (hs : s.eng.st = .recover) : Carries s (phasePlan s) (recover s) := by
  simp only [phasePlan, hs, recover, beforeRecheck]
  split
  · exact .act rfl (.act rfl (.act rfl (.nil _)))
  · exact .act rfl (.act rfl (.nil _))

/-- A status value that completes a transfer with one byte to fetch is followed by that fetch. -/
theorem judgeStatus_byteToFetch {s : State} (h : byteToFetch s = true) : judgeStatus s = fetchByte s := by
  simp only [byteToFetch, Bool.and_eq_true, Bool.not_eq_true', decide_eq_true_eq] at h
  obtain ⟨⟨he, hc⟩, hr, ht⟩ := h
  rw [judgeStatus, if_neg (by simp [he]), if_pos hc, afterPoll, hr]
  rcases ht with ht | ht <;> rw [ht]

theorem pollPlan_carries (s : State) : Carries s [.act (.wait .poll), .act .readStatus] (pollComplete s) := by
  refine .act rfl ?_
  rw [pollComplete]
  cases hb : byteToFetch (readStatus (delay s .poll)) with
  | true =>
    rw [judgeStatus_byteToFetch hb]
    exact .actMore (if_pos hb) (.act rfl (.nil _))
  | false => exact .act (if_neg (by simp [hb])) (.nil _)

/-- One group of a block read. -/
theorem groupPlan_carries (s : State) : Carries s (groupPlan s) (fetchGroup s) := by
  have hg : (fetchWindow s 0 (groupSize s.eng.cnt s.eng.got)).eng.got = s.eng.got := by rw [fetchWindow_eng]
  rw [fetchGroup, hg, setGot_binding, fetchWindow_binding]
  exact (fetchPlan_carries s 0 _).append
    (.keep (fun _ => rfl) rfl (.act rfl (.keep (fun _ => rfl) (endGroup_side _) (.nil _))))

theorem startPlan_carries {s : State} (hs : s.eng.st = .startTransfer) :
    Carries s (phasePlan s) (startTransfer s) := by
  have ht : ∀ t : State, (programOperands t).eng.type = t.eng.type := fun t => by rw [programOperands_eng]
  simp only [phasePlan, hs, List.cons_append, List.nil_append, startTransfer, programOperands_binding, ht]
  exact .act rfl ((operandPlan_carries (wrReg_eng s _ _)).append (.act rfl (.keep (fun _ => rfl) rfl (.nil _))))

theorem blockWritePlan_carries {s : State} (hs : s.eng.st = .blockWriteLoop) :
    Carries s (phasePlan s) (blockWriteLoop s) := by
  simp only [phasePlan, hs, blockWriteLoop, placeWindow_eng, setGot_binding, placeWindow_binding]
  exact (placePlan_carries rfl _ _ _).append
    (.keep (fun _ => rfl) rfl (.act rfl (.keep (fun _ => rfl) rfl (.nil _))))

/-- R165 to R167: the block read loop, entered anew with nothing fetched or with a count already read. -/
theorem blockReadPlan_carries {s : State} (hs : s.eng.st = .blockReadLoop)
    (h : s.eng.got = 0 ∨ s.eng.got < s.eng.cnt) : Carries s (phasePlan s) (blockReadLoop s) := by
  simp only [phasePlan, hs, blockReadLoop, readCount]
  split
  · by_cases hc : (loadCount s).eng.cnt = 0
    · rw [if_pos hc]
      exact .act (if_pos hc) (.nil _)
    · rw [if_neg hc]
      exact .actMore (if_neg hc) (by simpa using groupPlan_carries _)
  next hg =>
    rw [if_neg (by omega)]
    exact groupPlan_carries s

/-! ### The pass -/

/-- What a block read keeps between its groups (R165, R167): once a byte is fetched there is one left to fetch. -/
def Engine.GroupLeft (e : Engine) : Prop :=
  e.rw = .read → e.st = .pollComplete ∨ e.st = .blockReadLoop → e.got = 0 ∨ e.got < e.cnt

theorem groupLeft_latch (s : State) (t : Xfer) (rw : Dir) (sa : BitVec 7) (cmd : Byte) (data : List Byte) :
    (latchSmb s t rw sa cmd data).eng.GroupLeft := fun _ _ => .inl rfl

theorem groupLeft_of_st {e : Engine} (hp : e.st ≠ .pollComplete) (hb : e.st ≠ .blockReadLoop) : e.GroupLeft :=
  fun _ h => (h.elim hp hb).elim

theorem pollComplete_groupLeft {s : State} (hs : s.eng.st = .pollComplete) (h : s.eng.GroupLeft) :
    (pollComplete s).eng.GroupLeft := by
  have hk : (pollComplete s).eng.rw = s.eng.rw ∧ (pollComplete s).eng.got = s.eng.got ∧
      (pollComplete s).eng.cnt = s.eng.cnt := by
    rw [pollComplete_eng]
    dsimp only
    (repeat' split) <;> simp [afterPoll_eng]
  obtain ⟨hrw, hgot, hcnt⟩ := hk
  intro hr _
  rw [hgot, hcnt]
  exact h (hrw ▸ hr) (.inl hs)

/-- The loop goes on to another poll only where its group was not the last. -/
theorem blockReadLoop_groupLeft (s : State) : (blockReadLoop s).eng.GroupLeft := by
  rw [blockReadLoop_eng]
  generalize readCount s = t
  split
  · exact groupLeft_of_st (by simp) (by simp)
  · rw [fetchGroup_eng]
    cases hm : moreGroups (t.eng.got + groupSize t.eng.cnt t.eng.got) t.eng.cnt with
    | true => exact fun _ _ => .inr (of_decide_eq_true hm)
    | false => exact groupLeft_of_st (by simp [hm]) (by simp [hm])

theorem enginePhase_groupLeft {s : State} (h : s.eng.OnPass) (hg : s.eng.GroupLeft) :
    (enginePhase s).eng.GroupLeft := by
  unfold enginePhase
  split
  next => exact hg
  next =>
    rw [busyCheck_eng]
    apply groupLeft_of_st <;> dsimp only <;> split <;> simp
  next hs =>
    rw [recover_eng, hs]
    apply groupLeft_of_st <;> dsimp only <;> (repeat' split) <;> simp
  next => exact groupLeft_of_st (by simp [clearFlags_eng]) (by simp [clearFlags_eng])
  next hs =>
    have h0 := h.fresh (by simp [hs])
    intro hr _
    simp_all [startTransfer_eng]
  next hs => exact pollComplete_groupLeft hs hg
  next => exact blockReadLoop_groupLeft s
  next =>
    rw [clearSticky_eng]
    apply groupLeft_of_st <;> dsimp only <;> split <;> simp
  next => exact hg
  next => exact hg
  next hs =>
    obtain ⟨-, hw, -⟩ := h.writeLoop hs
    intro hr
    simp [blockWriteLoop_eng, hw] at hr

/-- A phase of the engine is its plan. -/
theorem phasePlan_carries {s : State} (hg : s.eng.st = .blockReadLoop → s.eng.got = 0 ∨ s.eng.got < s.eng.cnt) :
    Carries s (phasePlan s) (enginePhase s) := by
  unfold enginePhase
  split
  next hs => simpa only [phasePlan, hs] using Carries.nil s
  next hs => simpa only [phasePlan, hs] using Carries.act rfl (.nil (busyCheck s))
  next hs => exact recoverPlan_carries hs
  next hs =>
    simp only [phasePlan, hs]
    exact .act rfl (.act rfl (.act rfl (.keep (fun _ => rfl) rfl (.nil _))))
  next hs => exact startPlan_carries hs
  next hs => simpa only [phasePlan, hs] using pollPlan_carries s
  next hs => exact blockReadPlan_carries hs (hg hs)
  next hs =>
    simp only [phasePlan, hs]
    exact .act rfl (.keep (fun _ => rfl) (endPass_side _) (.nil _))
  next hs => simpa only [phasePlan, hs] using Carries.nil s
  next hs => simpa only [phasePlan, hs] using Carries.nil s
  next hs => exact blockWritePlan_carries hs

/-- Each phase of a pass begins with a step of the block. -/
theorem phasePlan_act {s : State} (h : s.eng.OnPass) (hg : s.eng.GroupLeft) (hs : s.eng.st.accepting = false) :
    ∃ a l, phasePlan s = .act a :: l := by
  have hsize : ∀ {total got : Nat}, got < total → ∃ k, groupSize total got = k + 1 := fun {total got} hlt =>
    Nat.exists_eq_succ_of_ne_zero (by simp only [groupSize, Config.WINDOW]; omega)
  cases hst : s.eng.st <;> simp only [hst, Phase.accepting, reduceCtorEq] at hs <;> simp only [phasePlan, hst]
  case recover => split <;> exact ⟨_, _, rfl⟩
  case blockReadLoop =>
    split
    · exact ⟨_, _, rfl⟩
    next h0 =>
      obtain ⟨k, hk⟩ := hsize ((hg (h.readLoop hst).2 (.inr hst)).resolve_left h0)
      rw [groupPlan, hk]
      exact ⟨_, _, rfl⟩
  case blockWriteLoop =>
    obtain ⟨k, hk⟩ := hsize (h.writeLoop hst).2.2
    rw [hk]
    exact ⟨_, _, rfl⟩
  all_goals exact ⟨_, _, rfl⟩

/-- A pass, from any phase of it on, is the plans of its phases in a row. -/
theorem runEngine_carries {n : Nat} {s : State} (h : s.eng.OnPass) (hg : s.eng.GroupLeft) (hn : s.eng.left ≤ n) :
    Carries s [.keep .nextPhase] (runEngine n s) := by
  induction n generalizing s with
  | zero =>
    have ha : s.eng.st.accepting = true := runEngine_ends 0 s h hn
    exact .keep (fun _ => if_pos ha) rfl (.nil s)
  | succ n ih =>
    rw [runEngine]
    split
    next ha => exact .keep (fun _ => if_pos ha) rfl (.nil s)
    next ha =>
      obtain ⟨hnext, hlow⟩ := enginePhase_lowers s h (by simpa using ha)
      obtain ⟨a, l, hp⟩ := phasePlan_act h hg (by simpa using ha)
      have hplan : ∀ rest, settle s (.keep .nextPhase :: rest) = settle s (phasePlan s ++ .keep .nextPhase :: rest) :=
        fun rest => (if_neg ha).trans (by rw [hp]; rfl)
      have hrest := ih hnext (enginePhase_groupLeft h hg) (by omega)
      have hphase := phasePlan_carries (s := s) fun hst => hg (h.readLoop hst).2 (.inr hst)
      exact fun rest => (Leads.of_settle rfl (hplan rest)).trans ((hphase _).trans (hrest rest))

/-! ### The scan -/

/-- The next triple of a scan. -/
def nextTriple (s : State) : State := s.setAcc { s.acc with idx := s.acc.idx + 1#17 }

/-- What a scan at its present position still has to do under the calls that are left. -/
def scanPlan (s : State) (calls : List VisitorCall) : List Todo :=
  if s.acc.idx.toNat < Config.N_FUNCTIONS then [.act (.visit calls)] else []

/-- The visitor has returned 0: on to the next triple. -/
theorem answeredFalse_leads (s : State) (later : List VisitorCall) :
    Leads s [.keep (.answered (some false) later)] (nextTriple s) (scanPlan (nextTriple s) later) := by
  refine Leads.of_settle rfl ?_
  by_cases h : (nextTriple s).acc.idx.toNat < Config.N_FUNCTIONS
  · rw [scanPlan, if_pos h]
    exact if_pos h
  · rw [scanPlan, if_neg h]
    exact if_neg h

/-- A visitor's call v, `later` being those after it, and the commands it issues. -/
theorem visit_leads (s : State) {calls later : List VisitorCall} {v : VisitorCall}
    (hv : calls.headD { cmds := [], answer := some false } = v) (hl : calls.tail = later)
    (hw : v.cmds.all CfgAccess.wellFormed = true) :
    Leads s [.act (.visit calls)] (v.cmds.foldl runAccess (callVisitor s)) [.keep (.answered v.answer later)] := by
  subst hv hl
  have hp : perform s (.visit calls) = .ok (callVisitor s, _) := if_pos hw
  refine (Leads.act hp []).trans ?_
  rw [List.append_nil]
  exact cmdsPlan_carries _ _ _

/-- The environment's changes do not depend on the record. -/
theorem envRun_log (x : PortSide) (e : Event) (n : Nat) (t : List Event) :
    { envRun (x.log e) n with trace := t } = { envRun x n with trace := t } := by
  simp only [envRun, PortSide.log]
  rw [foldl_applyAct_with _ x x.configAddress x.draws x.env, foldl_applyAct_configAddress, foldl_applyAct_draws]

theorem scanRest_side (s : State) :
    (scanRest s).side = { envRun s.side (Config.N_FUNCTIONS - s.acc.idx.toNat) with
      trace := s.side.trace ++ idleVisits s.acc.idx (Config.N_FUNCTIONS - s.acc.idx.toNat) } := by
  unfold scanRest
  split
  · rfl
  next h =>
    rw [Nat.sub_eq_zero_of_le (Nat.le_of_not_lt h), envRun_zero, idleVisits, List.append_nil]

theorem scanRest_frame (s : State) : scanRest s = (s.setAcc (scanRest s).acc).setSide (scanRest s).side := by
  unfold scanRest
  split <;> rfl

theorem scanRest_acc {s : State} (h : s.acc.idx.toNat < Config.N_FUNCTIONS) :
    (scanRest s).acc = { s.acc with bus := 255#8, dev := 31#5, fn := 7#3, idx := 65536#17 } := by
  simp only [scanRest, if_pos h, State.setSide_acc, State.setAcc_acc]

theorem nextIdx_toNat {i : BitVec 17} (h : i.toNat < Config.N_FUNCTIONS) : (i + 1#17).toNat = i.toNat + 1 := by
  simp only [Config.N_FUNCTIONS] at h
  simp only [BitVec.toNat_add, BitVec.toNat_ofNat]
  omega

/-- The rest of a scan is one idle call and the rest after it. -/
theorem scanRest_step {s : State} (h : s.acc.idx.toNat < Config.N_FUNCTIONS) :
    scanRest s = scanRest (nextTriple (callVisitor s)) := by
  have hi := nextIdx_toNat h
  have hn : Config.N_FUNCTIONS - s.acc.idx.toNat = Config.N_FUNCTIONS - (s.acc.idx + 1#17).toNat + 1 := by omega
  have hacc : (scanRest s).acc = (scanRest (nextTriple (callVisitor s))).acc := by
    rw [scanRest_acc h]
    by_cases hlast : (s.acc.idx + 1#17).toNat < Config.N_FUNCTIONS
    · exact (scanRest_acc (s := nextTriple (callVisitor s)) hlast).symm
    · have h65535 : s.acc.idx = 65535#17 := BitVec.eq_of_toNat_eq (by
        simp only [Config.N_FUNCTIONS] at h hlast
        simp only [BitVec.toNat_ofNat]
        omega)
      rw [scanRest, if_neg (c := (nextTriple (callVisitor s)).acc.idx.toNat < Config.N_FUNCTIONS) hlast]
      simp only [nextTriple, callVisitor, scanTriple, State.setAcc_acc, State.setSide_acc, h65535]
      rfl
  have hside : (scanRest s).side = (scanRest (nextTriple (callVisitor s))).side := by
    rw [scanRest_side, scanRest_side, hn, envRun_succ, idleVisits]
    simp only [nextTriple, State.setAcc_side, State.setAcc_acc, callVisitor_trace, List.append_assoc]
    exact (envRun_log ..).symm
  rw [scanRest_frame s, scanRest_frame (nextTriple _), hacc, hside]
  rfl

theorem scanRest_leads (s : State) : Leads s (scanPlan s []) (scanRest s) [] := by
  generalize hn : Config.N_FUNCTIONS - s.acc.idx.toNat = n
  induction n generalizing s with
  | zero =>
    have hlt : ¬s.acc.idx.toNat < Config.N_FUNCTIONS := by omega
    rw [scanPlan, if_neg hlt, scanRest, if_neg hlt]
    exact .refl s []
  | succ n ih =>
    have hlt : s.acc.idx.toNat < Config.N_FUNCTIONS := by omega
    have hi := nextIdx_toNat hlt
    have hrest := ih (nextTriple (callVisitor s)) (show Config.N_FUNCTIONS - (s.acc.idx + 1#17).toNat = n by omega)
    rw [scanRest_step hlt, scanPlan, if_pos hlt]
    exact ((visit_leads s (v := ⟨[], some false⟩) rfl rfl rfl).trans (answeredFalse_leads _ _)).trans hrest

/-! ### How an operation ends -/

/-- From the state s with the plan l the block's steps come to the end that r says: with nothing left to do in the
state given, after the steps recorded on the way, or to the fault or the refusal given. -/
def EndsAs (s : State) (l : List Todo) : Res → Prop
  | .next t => Leads s l t []
  | .fault e => ∃ n, goOn n (settle s l) = .fault e
  | .refused e => ∃ n, goOn n (settle s l) = .refused e

theorem Leads.endsAs {s t : State} {l k : List Todo} {r : Res} (h : Leads s l t k) (h' : EndsAs t k r) :
    EndsAs s l r := by
  cases r with
  | next u => exact h.trans h'
  | fault e =>
    obtain ⟨es, -, hes⟩ := h
    obtain ⟨n, hn⟩ := h'
    exact ⟨stepCount es + n, by rw [goOn_add, hes, hn]⟩
  | refused e =>
    obtain ⟨es, -, hes⟩ := h
    obtain ⟨n, hn⟩ := h'
    exact ⟨stepCount es + n, by rw [goOn_add, hes, hn]⟩

/-- A scan ends as its steps do: at a hit, past the last triple, at a call that never returns, or at a command that the
block refuses. -/
theorem scanFrom_endsAs (s : State) (calls : List VisitorCall) : EndsAs s (scanPlan s calls) (scanFrom s calls) := by
  induction calls generalizing s with
  | nil => exact scanRest_leads s
  | cons v vs ih =>
    by_cases hi : s.acc.idx.toNat < Config.N_FUNCTIONS
    · rw [scanPlan, if_pos hi]
      by_cases hw : v.cmds.all CfgAccess.wellFormed = true
      · rw [scanFrom_cons s v vs hi hw]
        refine (visit_leads s (v := v) (later := vs) rfl rfl hw).endsAs ?_
        generalize v.cmds.foldl runAccess (callVisitor s) = t
        rcases v.answer with _ | _ | _
        · exact ⟨0, rfl⟩
        · exact (answeredFalse_leads t vs).endsAs (ih _)
        · exact Leads.of_settle rfl rfl
      · rw [scanFrom, if_pos hi, if_neg hw]
        have hp : perform s (.visit (v :: vs)) = .error .leavesWindow := if_neg hw
        exact ⟨1, by simp [goOn, settle, blockSteps, blockStep, advance, hp]⟩
    · rw [scanFrom_end s _ hi, scanPlan, if_neg hi]
      exact Leads.refl s []

/-! ### Operations taken up -/

/-- What taking an operation up answers, o, agrees with what the operation answers, r: it refuses as r does, or it
gives the machine before the operation's first step, from which the block's steps end as r says. -/
inductive TakenUp (s : State) : Host.Outcome InFlight Fault Refusal → Res → Prop
  | refused (e : Refusal) : TakenUp s (.refused e) (.refused e)
  | begun {u : State} {a : BlockAct} {l : List Todo} {r : Res} (hside : u.side = s.side)
      (hends : EndsAs u (.act a :: l) r) : TakenUp s (.next { state := u, todo := .act a :: l }) r

theorem beginAccess_takenUp (s : State) (a : CfgAccess) : TakenUp s (beginAccess s a) (cfgOperation s a) := by
  unfold beginAccess cfgOperation whenIdle
  split
  · split
    · refine .begun rfl ?_
      have := accessPlan_carries s a []
      rwa [List.append_nil] at this
    · exact .refused _
  · exact .refused _

theorem beginPass_takenUp (s : State) (t : Xfer) (rw : Dir) (sa : BitVec 7) (cmd : Byte) {data : List Byte}
    (h : data.length ≤ 32) : TakenUp s (beginPass s t rw sa cmd data) (smbOperation s t rw sa cmd data) := by
  unfold beginPass smbOperation whenIdle
  split
  · split
    · exact .refused _
    split
    · exact .refused _
    · exact .begun rfl (runEngine_carries (onPass_latch s t rw sa cmd data h) (groupLeft_latch s t rw sa cmd data)
        (Nat.le_refl _) [])
  · exact .refused _

/-- Every instruction is taken up, and its steps end, as `exec` answers. -/
theorem beginOperation_takenUp (i : Instr) (s : State) : TakenUp s (beginOperation i s) (exec i s) := by
  cases i with
  | cfgRd8 b d f r => exact beginAccess_takenUp s _
  | cfgRd16 b d f r => exact beginAccess_takenUp s _
  | cfgRd32 b d f r => exact beginAccess_takenUp s _
  | cfgWr8 b d f r v => exact beginAccess_takenUp s _
  | cfgWr16 b d f r v => exact beginAccess_takenUp s _
  | cfgWr32 b d f r v => exact beginAccess_takenUp s _
  | cfgScan calls =>
    simp only [beginOperation, exec, execCfgScan, whenIdle]
    split
    · exact .begun rfl (scanFrom_endsAs (startScan s) calls)
    · exact .refused _
  | smbWriteQuick sa => exact beginPass_takenUp _ _ _ _ _ (by simp)
  | smbReadQuick sa => exact beginPass_takenUp _ _ _ _ _ (by simp)
  | smbWriteByte sa v => exact beginPass_takenUp _ _ _ _ _ (by simp)
  | smbReadByte sa => exact beginPass_takenUp _ _ _ _ _ (by simp)
  | smbWriteByteData sa c v => exact beginPass_takenUp _ _ _ _ _ (by simp)
  | smbReadByteData sa c => exact beginPass_takenUp _ _ _ _ _ (by simp)
  | smbWriteBlockData sa c data =>
    simp only [beginOperation, exec, execSmbWriteBlockData]
    split
    next h => exact beginPass_takenUp _ _ _ _ _ (of_decide_eq_true h).2
    · exact .refused _
  | smbReadBlockData sa c => exact beginPass_takenUp _ _ _ _ _ (by simp)

theorem newEvents_of_append {s t : State} {es : List Event} (h : t.side.trace = s.side.trace ++ es) :
    newEvents s t = es := by
  rw [newEvents, h, List.drop_left]

/-- An operation that answers next has steps to make, and is at its end after those it has recorded. -/
theorem TakenUp.next {s t : State} {o : Host.Outcome InFlight Fault Refusal} (h : TakenUp s o (.next t)) :
    ∃ r, o = .next r ∧ r.todo ≠ [] ∧
      blockSteps (stepCount (newEvents s t)) r = .next { state := t, todo := [] } := by
  cases h with
  | begun hside hends =>
    obtain ⟨es, htr, hes⟩ := hends
    rw [hside] at htr
    exact ⟨_, rfl, List.cons_ne_nil _ _, by rw [newEvents_of_append htr]; exact hes⟩

theorem TakenUp.fault {s : State} {o : Host.Outcome InFlight Fault Refusal} {e : Fault} (h : TakenUp s o (.fault e)) :
    ∃ r n, o = .next r ∧ blockSteps n r = .fault e := by
  cases h with
  | begun _ hends =>
    obtain ⟨n, hn⟩ := hends
    exact ⟨_, n, rfl, hn⟩

theorem TakenUp.refusal {s : State} {o : Host.Outcome InFlight Fault Refusal} {e : Refusal}
    (h : TakenUp s o (.refused e)) : o = .refused e ∨ ∃ r n, o = .next r ∧ blockSteps n r = .refused e := by
  cases h with
  | refused => exact .inl rfl
  | begun _ hends =>
    obtain ⟨n, hn⟩ := hends
    exact .inr ⟨_, n, rfl, hn⟩

/-! ### A command taken from the client -/

/-- The first step from between operations is the first step of the command that is taken. -/
theorem blockStep_command {s : State} {c : Command} {rest : List ClientInput} {i : Instr} {r : InFlight}
    (hs : CfgReady s) (hi : s.inbox = .command c :: rest) (hd : decode c = .ok i)
    (hr : beginOperation i (s.setInbox rest) = .next r) (ht : r.todo ≠ []) :
    blockStep { state := s, todo := [] } = blockStep r := by
  have hu : takeUp s = .next r := by simp only [takeUp, if_pos hs, hi, hd, hr]
  have hb : blockStep r = advance r := by
    unfold blockStep
    split
    next h => exact absurd h ht
    · rfl
  rw [hb, blockStep, hu]

/-! ### The obligations -/

/-- Settles O56: the item's step adds one event, and the bookkeeping after it adds none. -/
theorem aBlockStepIsOneStep : Obligations.ABlockStepIsOneStep := by
  rintro ⟨s, l⟩ q a rest rfl h
  cases hp : perform s a with
  | error e => simp [blockStep, advance, hp] at h
  | ok p =>
    obtain ⟨t, more⟩ := p
    obtain ⟨e, d, htr, he, hd⟩ := perform_adds hp
    rw [blockStep_act hp] at h
    exact ⟨e, d, by rw [settle_side h, htr], he, hd⟩

/-- Settles O57, by the three answers that `TakenUp` ties to the block's steps. -/
theorem anOperationIsItsBlockSteps : Obligations.AnOperationIsItsBlockSteps := by
  refine ⟨fun i s t h => ?_, fun i s e h => ?_, fun i s e h => ?_⟩
  · exact (h ▸ beginOperation_takenUp i s).next
  · exact (h ▸ beginOperation_takenUp i s).fault
  · exact (h ▸ beginOperation_takenUp i s).refusal

/-- Settles O58: the command's own steps, the first of them made from between operations. -/
theorem aStepIsTheBlockStepsOfItsCommand : Obligations.AStepIsTheBlockStepsOfItsCommand := by
  intro s t c rest hs hi h
  obtain ⟨-, hi', -⟩ | ⟨b, rest', -, hi', -⟩ | ⟨c', rest', i, -, hi', hd, hx⟩ | ⟨hs', -⟩ := step_cases h
  · simp [hi] at hi'
  · simp [hi] at hi'
  · obtain ⟨rfl, rfl⟩ : c = c' ∧ rest = rest' := by simpa [hi] using hi'
    obtain ⟨r, hr, ht, hn⟩ := (hx ▸ beginOperation_takenUp i (s.setInbox rest)).next
    have hnew : newEvents (s.setInbox rest) t = newEvents s t := rfl
    rw [hnew] at hn
    cases hc : stepCount (newEvents s t) with
    | zero =>
      rw [hc, blockSteps_zero, Host.Outcome.next.injEq] at hn
      exact absurd (congrArg InFlight.todo hn) ht
    | succ n =>
      rw [hc, blockSteps_succ_eq] at hn
      exact ⟨Nat.succ_pos n, by rw [blockSteps_succ_eq, blockStep_command hs hi hd hr ht, hn]⟩
  · simp [hs] at hs'

end Sys2Proof.Machine
end

section
/-! What every step keeps (10_state.md): the invariant of Safety.lean, the binding, and, for a pass in an environment
that changes nothing on its own, what the engine never accesses. `enginePhase_inv` is the engine's part of the
invariant, put together from its phases; `exec_inv` and `exec_binding` speak of every instruction. -/

namespace Sys2Proof.Machine

/-! ### The engine's part of the invariant -/

theorem Phase.ne_of_not_accepting {p : Phase} (h : p.accepting = false) : p ≠ .idle ∧ p ≠ .done ∧ p ≠ .failed := by
  cases p <;> simp_all [Phase.accepting]

/-- The ranges of the engine's registers (R27, R28), whatever state it is in. -/
structure Engine.Ranges (e : Engine) : Prop where
  wlen : e.wlen ≤ 32
  retry : e.retry ≤ 10
  poll : e.poll ≤ 40
  cnt : e.cnt ≤ 32
  got : e.got ≤ 32
  rlen : e.rlen ≤ 32

/-- The result registers of a pass that has not come to its end (R28, R103). -/
structure Engine.NoResult (e : Engine) : Prop where
  ok : e.ok = false
  fail : e.fail = .noFailure
  rlen : e.rlen = 0

theorem Engine.Inv.ranges {e : Engine} (h : e.Inv) : e.Ranges :=
  ⟨h.wlen_le, h.retry_le, h.poll_le, h.cnt_le, h.got_le, h.rlen_le⟩

theorem Engine.Inv.not_ok {e : Engine} (h : e.Inv) (hd : e.st ≠ .done) : e.ok = false :=
  Bool.eq_false_iff.2 fun hok => hd (h.ok_iff.1 hok)

theorem Engine.Inv.noResult {e : Engine} (h : e.Inv) (hs : e.st.accepting = false) (hc : e.st ≠ .clearSticky) :
    e.NoResult := by
  obtain ⟨-, hd, hf⟩ := Phase.ne_of_not_accepting hs
  exact ⟨h.not_ok hd, h.fail_none hc hf, h.rlen_zero hc hd⟩

/-- ClearSticky asks for no more than the ranges. -/
theorem Engine.Ranges.inv_clearSticky {e : Engine} (h : e.Ranges) (hs : e.st = .clearSticky) (hok : e.ok = false) :
    e.Inv := by
  obtain ⟨wlen, retry, poll, cnt, got, rlen⟩ := h
  constructor <;> simp [*]

/-- The other states of a pass ask for an empty result and for a budget that is not spent. -/
theorem Engine.Ranges.inv_running {e : Engine} (h : e.Ranges) (hn : e.NoResult) (hs : e.st.accepting = false)
    (start : e.st = .busyCheck → e.retry = 0) (retry : e.st = .recover → e.retry < 10)
    (poll : e.st = .pollComplete → e.poll < 40) : e.Inv := by
  obtain ⟨-, hd, hf⟩ := Phase.ne_of_not_accepting hs
  exact {
    wlen_le := h.wlen, retry_le := h.retry, poll_le := h.poll, cnt_le := h.cnt, got_le := h.got, rlen_le := h.rlen
    start_fresh := start, recover_budget := retry, poll_budget := poll
    ok_iff := iff_of_false (by simp [hn.ok]) hd
    fail_none := fun _ _ => hn.fail
    failed_code := fun hst => absurd hst hf
    rlen_zero := fun _ _ => hn.rlen }

theorem latchSmb_inv (s : State) (t : Xfer) (rw : Dir) (sa : BitVec 7) (cmd : Byte) {data : List Byte}
    (h : data.length ≤ 32) : (latchSmb s t rw sa cmd data).eng.Inv :=
  Engine.Ranges.inv_running ⟨h, Nat.zero_le _, Nat.zero_le _, Nat.zero_le _, Nat.zero_le _, Nat.zero_le _⟩
    ⟨rfl, rfl, rfl⟩ rfl (fun _ => rfl) nofun nofun

/-- R164: what follows a completed poll. -/
theorem afterPoll_inv {s : State} (h : s.eng.Ranges) (hn : s.eng.NoResult) : (afterPoll s).eng.Inv := by
  have sticky : (goTo s .clearSticky).eng.Inv := Engine.Ranges.inv_clearSticky { h with } rfl hn.ok
  have fetched : (fetchByte s).eng.Inv :=
    Engine.Ranges.inv_clearSticky { h with rlen := Nat.le_of_ble_eq_true rfl } rfl hn.ok
  unfold afterPoll
  split
  · exact sticky
  · exact sticky
  · exact sticky
  · exact sticky
  · exact fetched
  · exact fetched
  · exact Engine.Ranges.inv_running { h with } { hn with } rfl nofun nofun nofun
  · split
    · exact Engine.Ranges.inv_running { h with } { hn with } rfl nofun nofun nofun
    · exact sticky

theorem add_groupSize_le {total got n : Nat} (ht : total ≤ n) (hg : got ≤ n) : got + groupSize total got ≤ n := by
  simp only [groupSize]
  omega

theorem fetchGroup_inv {s : State} (h : s.eng.Ranges) (hn : s.eng.NoResult) : (fetchGroup s).eng.Inv := by
  have hgot := add_groupSize_le h.cnt h.got
  rw [fetchGroup_eng]
  dsimp only
  cases moreGroups (s.eng.got + groupSize s.eng.cnt s.eng.got) s.eng.cnt with
  | true =>
    exact Engine.Ranges.inv_running { h with got := hgot, poll := Nat.zero_le _ } { hn with } rfl nofun nofun
      (fun _ => Nat.zero_lt_succ _)
  | false => exact Engine.Ranges.inv_clearSticky { h with got := hgot, rlen := h.cnt } rfl hn.ok

section
variable {s : State} (h : s.eng.Inv)
include h

theorem busyCheck_inv (hs : s.eng.st = .busyCheck) : (busyCheck s).eng.Inv := by
  have hn := h.noResult (by rw [hs]; rfl) (by simp [hs])
  have h0 := h.start_fresh hs
  rw [busyCheck_eng]
  cases isBusy s.binding.params (regVal s .cnt) with
  | true => exact Engine.Ranges.inv_running { h.ranges with } { hn with } rfl nofun (fun _ => by simp [h0]) nofun
  | false => exact Engine.Ranges.inv_running { h.ranges with } { hn with } rfl nofun nofun nofun

/-- A re-check that finds the block busy leaves the engine in Recover only while the budget of ten lasts. -/
theorem recover_inv (hs : s.eng.st = .recover) : (recover s).eng.Inv := by
  have hn := h.noResult (by rw [hs]; rfl) (by simp [hs])
  have hr := h.recover_budget hs
  rw [recover_eng]
  dsimp only
  cases isBusy s.binding.params (regVal (beforeRecheck s) .cnt) with
  | false => exact Engine.Ranges.inv_running { h.ranges with retry := hr } { hn with } rfl nofun nofun nofun
  | true =>
    cases hb : retrySpent (s.eng.retry + 1) with
    | true => exact Engine.Ranges.inv_clearSticky { h.ranges with retry := hr } rfl hn.ok
    | false =>
      have hne : s.eng.retry + 1 ≠ 10 := of_decide_eq_false hb
      rw [hs]
      exact Engine.Ranges.inv_running { h.ranges with retry := hr } { hn with } rfl nofun
        (fun _ => lt_of_le_of_ne hr hne) nofun

theorem clearFlags_inv (hs : s.eng.st = .clearFlags) : (clearFlags s).eng.Inv := by
  have hn := h.noResult (by rw [hs]; rfl) (by simp [hs])
  rw [clearFlags_eng]
  exact Engine.Ranges.inv_running { h.ranges with } { hn with } rfl nofun nofun nofun

theorem startTransfer_inv (hs : s.eng.st = .startTransfer) : (startTransfer s).eng.Inv := by
  have hn := h.noResult (by rw [hs]; rfl) (by simp [hs])
  have hgot : (if s.eng.type = .blockData ∧ s.eng.rw = .write then min s.eng.wlen Config.WINDOW
      else s.eng.got) ≤ 32 := by
    split
    · exact (Nat.min_le_left ..).trans h.wlen_le
    · exact h.got_le
  rw [startTransfer_eng]
  exact Engine.Ranges.inv_running { h.ranges with got := hgot, poll := Nat.zero_le _ } { hn with } rfl nofun nofun
    (fun _ => Nat.zero_lt_succ _)

theorem pollComplete_inv (hs : s.eng.st = .pollComplete) : (pollComplete s).eng.Inv := by
  have hn := h.noResult (by rw [hs]; rfl) (by simp [hs])
  have hp := h.poll_budget hs
  rw [pollComplete_eng]
  dsimp only
  split
  · exact Engine.Ranges.inv_clearSticky { h.ranges with poll := hp } rfl hn.ok
  split
  · exact afterPoll_inv { h.ranges with poll := hp } { hn with }
  split
  · exact Engine.Ranges.inv_clearSticky { h.ranges with poll := hp } rfl hn.ok
  next hb =>
    have hne : s.eng.poll + 1 ≠ 40 := by simpa [pollSpent, Config.N_POLL] using hb
    rw [hs]
    exact Engine.Ranges.inv_running { h.ranges with poll := hp } { hn with } rfl nofun nofun
      (fun _ => lt_of_le_of_ne hp hne)

theorem blockReadLoop_inv (hs : s.eng.st = .blockReadLoop) : (blockReadLoop s).eng.Inv := by
  have hn := h.noResult (by rw [hs]; rfl) (by simp [hs])
  have hcnt : (if s.eng.got = 0 then capCount (regVal s .count) else s.eng.cnt) ≤ 32 := by
    split
    · exact Nat.min_le_right ..
    · exact h.cnt_le
  have hr : (readCount s).eng.Ranges := by
    rw [readCount_eng]
    exact { h.ranges with cnt := hcnt }
  have hn' : (readCount s).eng.NoResult := by
    rw [readCount_eng]
    exact { hn with }
  rw [blockReadLoop_eng]
  split
  · exact Engine.Ranges.inv_clearSticky { hr with rlen := Nat.zero_le _ } rfl hn'.ok
  · exact fetchGroup_inv hr hn'

theorem blockWriteLoop_inv (hs : s.eng.st = .blockWriteLoop) : (blockWriteLoop s).eng.Inv := by
  have hn := h.noResult (by rw [hs]; rfl) (by simp [hs])
  rw [blockWriteLoop_eng]
  exact Engine.Ranges.inv_running
    { h.ranges with got := add_groupSize_le h.wlen_le h.got_le, poll := Nat.zero_le _ } { hn with } rfl nofun nofun
    (fun _ => Nat.zero_lt_succ _)

/-- R170: the failure code decides between Done and Failed. -/
theorem clearSticky_inv : (clearSticky s).eng.Inv := by
  obtain ⟨wlen, retry, poll, cnt, got, rlen⟩ := h.ranges
  rw [clearSticky_eng]
  by_cases hf : s.eng.fail = .noFailure
  · constructor <;> simp [*]
  · constructor <;> simp [*]

end

/-- Every phase of the engine keeps the engine's part of the invariant. -/
theorem enginePhase_inv {s : State} (h : s.eng.Inv) : (enginePhase s).eng.Inv := by
  unfold enginePhase
  split
  next => exact h
  next hs => exact busyCheck_inv h hs
  next hs => exact recover_inv h hs
  next hs => exact clearFlags_inv h hs
  next hs => exact startTransfer_inv h hs
  next hs => exact pollComplete_inv h hs
  next hs => exact blockReadLoop_inv h hs
  next => exact clearSticky_inv h
  next => exact h
  next => exact h
  next hs => exact blockWriteLoop_inv h hs

theorem runEngine_inv (n : Nat) {s : State} (h : s.eng.Inv) : (runEngine n s).eng.Inv := by
  induction n generalizing s with
  | zero => exact h
  | succ n ih =>
    rw [runEngine]
    split
    · exact h
    · exact ih (enginePhase_inv h)

/-! ### Operations -/

/-- An operation of the engine keeps the invariant where its registers do and a base is bound. -/
theorem EngineMove.inv {s t : State} (h : EngineMove s t) (hs : s.Inv) (hb : s.binding.baseValid = true)
    (he : t.eng.Inv) : t.Inv where
  cfg_wf := h.wf hs.cfg_wf
  params_valid := h.binding ▸ hs.params_valid
  base_ok := h.binding ▸ hs.base_ok
  unbound_idle hu := by simp [h.binding, hb] at hu
  idx_le := h.acc ▸ hs.idx_le
  eng := he

/-- An operation that leaves the engine, the binding, and the ranges of the accessor and the memory alone keeps the
invariant. -/
theorem State.Inv.of_frame {s t : State} (hs : s.Inv) (heng : t.eng = s.eng) (hbinding : t.binding = s.binding)
    (hwf : Memory.wf s.side.cfg = true → Memory.wf t.side.cfg = true) (hidx : t.acc.idx.toNat ≤ 65536) : t.Inv where
  cfg_wf := hwf hs.cfg_wf
  params_valid := hbinding ▸ hs.params_valid
  base_ok := hbinding ▸ hs.base_ok
  unbound_idle hu := heng ▸ hs.unbound_idle (hbinding ▸ hu)
  idx_le := hidx
  eng := heng ▸ hs.eng

theorem startScan_idx_le (s : State) : (startScan s).acc.idx.toNat ≤ 65536 := Nat.zero_le _

theorem exec_inv {i : Instr} {s t : State} (hs : s.Inv) (h : exec i s = .next t) : t.Inv := by
  obtain ⟨a, -, -, hw, rfl⟩ | ⟨v, -, -, hscan⟩ | ⟨ty, rw, sa, cmd, data, -, hlen, ⟨-, hb, -⟩, rfl⟩ := exec_next h
  · have hm := CfgMove.runAccess s hw
    exact hs.of_frame hm.eng hm.binding hm.wf (hm.idx ▸ hs.idx_le)
  · obtain ⟨heng, hbinding, -, hwf, hidx, -⟩ := scanFrom_next hscan (startScan_idx_le s)
    exact hs.of_frame heng hbinding hwf hidx
  · exact ((EngineMove.latchSmb ..).trans (EngineMove.runPass _)).inv hs hb
      (runEngine_inv _ (latchSmb_inv s ty rw sa cmd hlen))

theorem exec_binding {i : Instr} {s t : State} (h : exec i s = .next t) : t.binding = s.binding := by
  obtain ⟨a, -, -, hw, rfl⟩ | ⟨v, -, -, hscan⟩ | ⟨ty, rw, sa, cmd, data, -, -, -, rfl⟩ := exec_next h
  · exact (CfgMove.runAccess s hw).binding
  · obtain ⟨-, hbinding, -⟩ := scanFrom_next hscan (startScan_idx_le s)
    exact hbinding
  · exact (EngineMove.runPass _).binding

/-- An SMBus instruction that answers next is accepted, and moves as the engine does. -/
theorem exec_smb_move {i : Instr} {s t : State} (hi : (smbOperands i).isSome = true) (h : exec i s = .next t) :
    EngineMove s t := by
  obtain ⟨a, ha, -⟩ | ⟨v, rfl, -⟩ | ⟨ty, rw, sa, cmd, data, -, -, -, rfl⟩ := exec_next h
  · cases i <;> simp [cfgAccessOf, smbOperands] at ha hi
  · cases hi
  · exact (EngineMove.latchSmb ..).trans (EngineMove.runPass _)

/-! ### The obligations -/

/-- Settles O9. -/
theorem nothingHappensWithoutACommand : Obligations.NothingHappensWithoutACommand := by
  intro s hs hi
  rw [step, if_pos hs, hi]

/-- Settles O13: the ranges are met by zeros, and the parameter record is a valid one. -/
theorem invariantHoldsAtReset : Obligations.InvariantHoldsAtReset where
  cfg_wf := rfl
  params_valid := Config.params_valid
  base_ok := nofun
  unbound_idle _ := rfl
  idx_le := Nat.zero_le _
  eng := by constructor <;> decide

/-- Settles O15: no instruction and no phase touches the binding, and the bind step is taken only while none is. -/
theorem theBoundBaseNeverChanges : Obligations.TheBoundBaseNeverChanges := by
  intro s t h
  have same : t.binding = s.binding → t.binding.params = s.binding.params ∧ t.binding.platform = s.binding.platform ∧
      (s.binding.baseValid = true → t.binding = s.binding) := fun hb => ⟨by rw [hb], by rw [hb], fun _ => hb⟩
  obtain ⟨-, -, rfl⟩ | ⟨b, rest, -, -, hu, -, rfl⟩ | ⟨c, rest, i, -, -, -, hx⟩ | ⟨-, -, rfl⟩ := step_cases h
  · exact same rfl
  · exact ⟨rfl, rfl, fun hb => by simp [hu] at hb⟩
  · exact same (exec_binding hx :)
  · exact same (EngineMove.enginePhase s).binding

/-- Settles O14, by the cases of a step: while no base is bound the engine is idle, so a phase runs with one bound. -/
theorem stepKeepsTheInvariant : Obligations.StepKeepsTheInvariant := by
  intro s t hs h
  obtain ⟨-, -, rfl⟩ | ⟨b, rest, -, -, hu, hb, rfl⟩ | ⟨c, rest, i, -, -, -, hx⟩ | ⟨hactive, -, rfl⟩ := step_cases h
  · exact hs
  · have hidle : { s.eng with st := .idle } = s.eng := by rw [← hs.unbound_idle hu]
    exact {
      cfg_wf := hs.cfg_wf, params_valid := hs.params_valid, base_ok := fun _ => hb, unbound_idle := fun _ => rfl
      idx_le := hs.idx_le, eng := hidle ▸ hs.eng }
  · exact exec_inv (hs.of_frame (t := s.setInbox rest) rfl rfl id hs.idx_le) hx
  · have hb : s.binding.baseValid = true :=
      Bool.eq_true_of_not_eq_false fun hu => (Phase.ne_of_not_accepting hactive).1 (hs.unbound_idle hu)
    exact (EngineMove.enginePhase s).inv hs hb (enginePhase_inv hs.eng)

/-- Settles O38: a pass is an `EngineMove`, and the six registers are those the engine never accesses. -/
theorem aPassLeavesTheRestAlone : Obligations.APassLeavesTheRestAlone := by
  rintro i s t hi ⟨-, hb, hc⟩ hv hp h
  have hm := exec_smb_move hi h
  have same := hm.untouched hp hv hb hc
  exact ⟨hm.cfg hp hc, same .en rfl, same .pcount rfl, same .devaddr rfl, same .db0 rfl, same .db1 rfl,
    same .slvsts rfl⟩

end Sys2Proof.Machine
end

section
/-! No stale working register is read (R46, R103). `SameFar` says that two machines agree outside the working
registers; `Twin` that they agree, besides, in every register of the engine that its operation has written since its
acceptance. Acceptance makes twins (`SameFar.latchSmb`), and every phase keeps them (`Twin.enginePhase`). For the
accessor, `ScanTwin` adds the two registers a scan starts with. -/

namespace Sys2Proof.Machine

/-! ### Buffers -/

/-- The first n entries agree. -/
def SameUpTo (n : Nat) (b b' : Buffer) : Prop := ∀ k < n, bufGet b' k = bufGet b k

theorem bufGet_bufPut (b : Buffer) (i k : Nat) (v : Byte) :
    bufGet (bufPut b i v) k = if i = k then (if i < 32 then v else 0#8) else bufGet b k := by
  simp only [bufGet, bufPut, Vector.getElem?_setIfInBounds]
  split
  · split <;> rfl
  · rfl

namespace SameUpTo

variable {m n : Nat} {b b' : Buffer}

theorem zero : SameUpTo 0 b b' := nofun

theorem mono (h : SameUpTo n b b') (hm : m ≤ n) : SameUpTo m b b' := fun k hk => h k (hk.trans_le hm)

/-- The same byte stored anywhere. -/
theorem put (h : SameUpTo n b b') (i : Nat) (v : Byte) : SameUpTo n (bufPut b i v) (bufPut b' i v) := by
  intro k hk
  rw [bufGet_bufPut, bufGet_bufPut, h k hk]

/-- The same byte stored as the next entry. -/
theorem put_next (h : SameUpTo n b b') (v : Byte) : SameUpTo (n + 1) (bufPut b n v) (bufPut b' n v) := by
  intro k hk
  rw [bufGet_bufPut, bufGet_bufPut]
  split
  · rfl
  next hne => exact h k (by omega)

theorem load (h : SameUpTo n b b') (data : List Byte) :
    SameUpTo (n + data.length) (bufLoad b n data) (bufLoad b' n data) := by
  induction data generalizing n b b' with
  | nil => exact h
  | cons v vs ih =>
    rw [List.length_cons, Nat.add_comm vs.length, ← Nat.add_assoc]
    exact ih (h.put_next v)

theorem load_zero (data : List Byte) : SameUpTo data.length (bufLoad b 0 data) (bufLoad b' 0 data) := by
  simpa using (zero (b := b) (b' := b')).load data

theorem take_eq (h : SameUpTo n b b') : b'.toList.take n = b.toList.take n := by
  apply List.ext_getElem
  · simp
  · intro k hk hk'
    have h32 : k < 32 := by simp at hk; omega
    have := h k (by simp at hk; omega)
    simpa [bufGet, h32] using this

end SameUpTo

/-! ### Machines that agree outside the working registers -/

/-- The far side of the ports, the binding and the client's inputs agree. -/
structure SameFar (s s' : State) : Prop where
  binding : s'.binding = s.binding
  side : s'.side = s.side
  inbox : s'.inbox = s.inbox

namespace SameFar

variable {s s' : State} (h : SameFar s s')
include h

/-- The second machine is the first with other working registers. -/
theorem eq : s' = (s.setAcc s'.acc).setEng s'.eng := State.ext_parts rfl rfl h.binding h.side h.inbox

theorem regVal (r : Reg) : regVal s' r = regVal s r := by rw [h.eq]; rfl

theorem afterReg (r : Reg) : SameFar (afterReg s r) (afterReg s' r) := by rw [h.eq]; exact ⟨rfl, rfl, rfl⟩

theorem wrReg (r : Reg) (v : Byte) : SameFar (wrReg s r v) (wrReg s' r v) := by rw [h.eq]; exact ⟨rfl, rfl, rfl⟩

theorem delay (d : DelayKind) : SameFar (delay s d) (delay s' d) := by rw [h.eq]; exact ⟨rfl, rfl, rfl⟩

theorem raiseFail (k : FailCode) : SameFar (raiseFail s k) (raiseFail s' k) := by
  rw [h.eq]
  cases k <;> exact ⟨rfl, rfl, rfl⟩

theorem setEng (e e' : Engine) : SameFar (s.setEng e) (s'.setEng e') := ⟨h.binding, h.side, h.inbox⟩

theorem setAcc (a a' : Accessor) : SameFar (s.setAcc a) (s'.setAcc a') := ⟨h.binding, h.side, h.inbox⟩

theorem runAccess (a : CfgAccess) : SameFar (runAccess s a) (runAccess s' a) := by
  rw [h.eq]
  cases a <;> exact ⟨rfl, rfl, rfl⟩

end SameFar

/-! ### The engine -/

/-- The engine without the values that stand in `x[c]`, `x[s]` and the buffers. -/
def Engine.masked (e : Engine) : Engine :=
  { e with c := 0, s := 0, wbuf := Vector.replicate 32 0, rbuf := Vector.replicate 32 0 }

/-- What an accepted operation has made of two engines: they agree in every register but `x[c]`, `x[s]` and the
buffers, in the bytes to send, in the bytes fetched, and in the result. -/
structure Engine.Agrees (e f : Engine) : Prop where
  rest : f.masked = e.masked
  operand : e.rw = .write → e.type = .byte ∨ e.type = .byteData → 0 < e.wlen
  toSend : SameUpTo e.wlen e.wbuf f.wbuf
  fetched : e.rw = .read → SameUpTo e.got e.rbuf f.rbuf
  result : SameUpTo e.rlen e.rbuf f.rbuf

namespace Engine.Agrees

variable {e f : Engine} (h : e.Agrees f)
include h

theorem st : f.st = e.st := (congrArg Engine.st h.rest :)
theorem type : f.type = e.type := (congrArg Engine.type h.rest :)
theorem rw : f.rw = e.rw := (congrArg Engine.rw h.rest :)
theorem sa : f.sa = e.sa := (congrArg Engine.sa h.rest :)
theorem cmd : f.cmd = e.cmd := (congrArg Engine.cmd h.rest :)
theorem wlen : f.wlen = e.wlen := (congrArg Engine.wlen h.rest :)
theorem retry : f.retry = e.retry := (congrArg Engine.retry h.rest :)
theorem poll : f.poll = e.poll := (congrArg Engine.poll h.rest :)
theorem cnt : f.cnt = e.cnt := (congrArg Engine.cnt h.rest :)
theorem got : f.got = e.got := (congrArg Engine.got h.rest :)
theorem rlen : f.rlen = e.rlen := (congrArg Engine.rlen h.rest :)
theorem ok : f.ok = e.ok := (congrArg Engine.ok h.rest :)
theorem fail : f.fail = e.fail := (congrArg Engine.fail h.rest :)

end Engine.Agrees

/-- Two machines in the middle of the same operation. -/
structure Twin (s s' : State) : Prop extends SameFar s s' where
  eng : s.eng.Agrees s'.eng

theorem SameFar.latchSmb {s s' : State} (h : SameFar s s') {t : Xfer} {rw : Dir} (sa : BitVec 7) (cmd : Byte)
    {data : List Byte} (hd : rw = .write → t = .byte ∨ t = .byteData → 0 < data.length) :
    Twin (latchSmb s t rw sa cmd data) (latchSmb s' t rw sa cmd data) where
  toSameFar := h.setEng ..
  eng := ⟨rfl, hd, .load_zero data, fun _ => .zero, .zero⟩

/-- R151 is the read of R155, on to one of two states. -/
theorem busyCheck_eq (s : State) :
    busyCheck s = goTo (readControl s) (if isBusy s.binding.params (regVal s .cnt) then .recover else .clearFlags) :=
  rfl

/-- R153: the control register read, and the re-check counted. -/
def countRecheck (s : State) : State :=
  (readControl s).setEng { (readControl s).eng with retry := s.eng.retry + 1 }

theorem recheck_eq (s : State) :
    recheck s =
      if isBusy s.binding.params (regVal s .cnt) then
        if retrySpent (s.eng.retry + 1) then raiseFail (countRecheck s) .busContention else countRecheck s
      else goTo (countRecheck s) .clearFlags := rfl

namespace Twin

variable {s s' : State} (h : Twin s s')
include h

theorem afterReg (r : Reg) : Twin (afterReg s r) (afterReg s' r) := ⟨h.toSameFar.afterReg r, h.eng⟩

theorem wrReg (r : Reg) (v : Byte) : Twin (wrReg s r v) (wrReg s' r v) := ⟨h.toSameFar.wrReg r v, h.eng⟩

theorem delay (d : DelayKind) : Twin (delay s d) (delay s' d) := ⟨h.toSameFar.delay d, h.eng⟩

theorem setEng {e e' : Engine} (he : e.Agrees e') : Twin (s.setEng e) (s'.setEng e') := ⟨h.toSameFar.setEng e e', he⟩

theorem goTo (p : Phase) : Twin (goTo s p) (goTo s' p) :=
  h.setEng { h.eng with rest := (congrArg (fun e : Engine => { e with st := p }) h.eng.rest :) }

theorem raiseFail (k : FailCode) : Twin (raiseFail s k) (raiseFail s' k) where
  toSameFar := h.toSameFar.raiseFail k
  eng := by
    rw [raiseFail_eng, raiseFail_eng]
    exact { h.eng with rest := (congrArg (fun e : Engine => { e with fail := k, st := .clearSticky }) h.eng.rest :) }

theorem awaitPoll : Twin (awaitPoll s) (awaitPoll s') :=
  h.setEng { h.eng with rest := (congrArg (fun e : Engine => { e with poll := 0, st := .pollComplete }) h.eng.rest :) }

theorem setGot {n : Nat} (hf : s.eng.rw = .read → SameUpTo n s.eng.rbuf s'.eng.rbuf) :
    Twin (setGot s n) (setGot s' n) :=
  h.setEng { h.eng with rest := (congrArg (fun e : Engine => { e with got := n }) h.eng.rest :), fetched := hf }

/-! #### Up to the first poll -/

theorem readControl : Twin (readControl s) (readControl s') := (h.afterReg .cnt).setEng { h.eng with }

theorem busyCheck : Twin (busyCheck s) (busyCheck s') := by
  rw [busyCheck_eq, busyCheck_eq, h.regVal, h.binding]
  exact h.readControl.goTo _

theorem beforeRecheck : Twin (beforeRecheck s) (beforeRecheck s') := by
  rw [Machine.beforeRecheck, Machine.beforeRecheck, h.eng.retry, h.binding]
  split
  · exact (h.wrReg ..).delay _
  · exact h.delay _

theorem countRecheck : Twin (countRecheck s) (countRecheck s') := by
  rw [Machine.countRecheck, Machine.countRecheck, h.eng.retry]
  exact h.readControl.setEng
    { h.eng with rest := (congrArg (fun e : Engine => { e with retry := s.eng.retry + 1 }) h.eng.rest :) }

theorem recheck : Twin (recheck s) (recheck s') := by
  have hu := h.countRecheck
  rw [recheck_eq, recheck_eq, h.regVal, h.binding, h.eng.retry]
  split
  · split
    · exact hu.raiseFail _
    · exact hu
  · exact hu.goTo _

theorem recover : Twin (recover s) (recover s') := h.beforeRecheck.recheck

theorem clearFlags : Twin (clearFlags s) (clearFlags s') := by
  have hc : (Machine.readControl s').eng.c = (Machine.readControl s).eng.c := h.regVal .cnt
  simp only [Machine.clearFlags, hc, wrReg_binding, h.readControl.binding]
  exact ((h.readControl.wrReg ..).wrReg ..).goTo _

/-- The window bytes placed are bytes to send. -/
theorem placeWindow {first i n : Nat} (hn : ∀ j, i ≤ j → j < i + n → first + j < s.eng.wlen) :
    Twin (placeWindow s first i n) (placeWindow s' first i n) := by
  induction n generalizing s s' i with
  | zero => exact h
  | succ n ih =>
    rw [Machine.placeWindow, Machine.placeWindow, h.eng.toSend _ (hn i (Nat.le_refl i) (by omega))]
    exact ih (h.wrReg ..) fun j hj hlt => hn j (by omega) (by omega)

theorem programOperands : Twin (programOperands s) (programOperands s') := by
  have hoperand := h.eng.operand
  rw [Machine.programOperands, Machine.programOperands, h.eng.type, h.eng.rw, h.eng.cmd]
  cases ht : s.eng.type with
  | quick => cases hr : s.eng.rw <;> exact h
  | byte =>
    cases hr : s.eng.rw with
    | read => exact h
    | write =>
      dsimp only
      rw [h.eng.toSend 0 (hoperand hr (.inl ht))]
      exact h.wrReg ..
  | byteData =>
    cases hr : s.eng.rw with
    | read => exact h.wrReg ..
    | write =>
      dsimp only
      rw [h.eng.toSend 0 (hoperand hr (.inr ht))]
      exact (h.wrReg ..).wrReg ..
  | blockData =>
    cases hr : s.eng.rw with
    | read => exact h.wrReg ..
    | write =>
      simp only [wrReg_eng, h.eng.wlen]
      refine (((h.wrReg ..).wrReg ..).placeWindow fun j _ hj => ?_).setGot fun hread => ?_
      · simp only [wrReg_eng]; omega
      · simp [hr] at hread

theorem startTransfer : Twin (startTransfer s) (startTransfer s') := by
  have ha := h.wrReg .addr (addrByte s.eng.sa s.eng.rw)
  simp only [Machine.startTransfer, h.eng.sa, h.eng.rw, ha.programOperands.binding, ha.programOperands.eng.type]
  exact (ha.programOperands.wrReg ..).awaitPoll

/-! #### From the first poll on -/

theorem fetchByte : Twin (fetchByte s) (fetchByte s') := by
  simp only [Machine.fetchByte, h.regVal]
  exact (h.afterReg _).setEng
    { h.eng with
      rest := (congrArg (fun e : Engine => { e with rlen := 1, st := .clearSticky }) h.eng.rest :)
      fetched := fun hr => (h.eng.fetched hr).put 0 _
      result := SameUpTo.zero.put_next _ }

theorem afterPoll : Twin (afterPoll s) (afterPoll s') := by
  rw [Machine.afterPoll, Machine.afterPoll, h.eng.type, h.eng.rw, h.eng.got, h.eng.wlen]
  split
  · exact h.goTo _
  · exact h.goTo _
  · exact h.goTo _
  · exact h.goTo _
  · exact h.fetchByte
  · exact h.fetchByte
  · exact h.goTo _
  · exact h.goTo _

theorem readStatus : Twin (readStatus s) (readStatus s') := by
  simp only [Machine.readStatus, h.regVal]
  exact (h.afterReg .sts).setEng
    { h.eng with rest := (congrArg (fun e : Engine => { e with poll := e.poll + 1 }) h.eng.rest :) }

/-- The tests on a status value that is the same in both. -/
theorem judgeStatus (hs : s'.eng.s = s.eng.s) : Twin (judgeStatus s) (judgeStatus s') := by
  rw [Machine.judgeStatus, Machine.judgeStatus, h.binding, hs, h.eng.type, h.eng.poll]
  split
  · exact h.raiseFail _
  split
  · exact h.afterPoll
  split
  · exact h.raiseFail _
  · exact h

theorem pollComplete : Twin (pollComplete s) (pollComplete s') :=
  (h.delay .poll).readStatus.judgeStatus ((h.delay .poll).regVal .sts)

theorem readCount : Twin (readCount s) (readCount s') := by
  simp only [Machine.readCount, h.eng.got, loadCount, h.regVal]
  split
  · exact (h.afterReg .count).setEng
      { h.eng with
        rest := (congrArg (fun e : Engine => { e with cnt := capCount (regVal s .count) }) h.eng.rest :) }
  · exact h

theorem fetchOne (i : Nat) : Twin (fetchOne s i) (fetchOne s' i) := by
  simp only [Machine.fetchOne, h.regVal, afterReg_eng, h.eng.got]
  exact (h.afterReg _).setEng
    { h.eng with
      rest := (congrArg (fun e : Engine => { e with got := s.eng.got }) h.eng.rest :)
      fetched := fun hr => (h.eng.fetched hr).put _ _
      result := h.eng.result.put _ _ }

theorem fetchWindow {i : Nat} (n : Nat) (hb : SameUpTo (s.eng.got + i) s.eng.rbuf s'.eng.rbuf) :
    Twin (fetchWindow s i n) (fetchWindow s' i n) ∧
      SameUpTo (s.eng.got + (i + n)) (fetchWindow s i n).eng.rbuf (fetchWindow s' i n).eng.rbuf := by
  induction n generalizing s s' i with
  | zero => exact ⟨h, hb⟩
  | succ n ih =>
    have hnext : SameUpTo (s.eng.got + (i + 1)) (Machine.fetchOne s i).eng.rbuf (Machine.fetchOne s' i).eng.rbuf := by
      simp only [Machine.fetchOne, h.regVal, afterReg_eng, h.eng.got]
      exact hb.put_next _
    rw [← Nat.add_assoc i, Nat.add_right_comm i]
    exact ih (h.fetchOne i) hnext

/-- R167: with the last group the bytes fetched become the result. -/
theorem endGroup (hr : s.eng.rw = .read) : Twin (endGroup s) (endGroup s') := by
  rw [Machine.endGroup, Machine.endGroup, h.eng.got, h.eng.cnt]
  split
  · exact h.awaitPoll
  next hm =>
    have hle : s.eng.cnt ≤ s.eng.got := by simpa [moreGroups] using hm
    exact h.setEng
      { h.eng with
        rest := (congrArg (fun e : Engine => { e with rlen := s.eng.cnt, st := .clearSticky }) h.eng.rest :)
        result := (h.eng.fetched hr).mono hle }

theorem fetchGroup (hr : s.eng.rw = .read) : Twin (fetchGroup s) (fetchGroup s') := by
  obtain ⟨hw, hb⟩ := h.fetchWindow (i := 0) (groupSize s.eng.cnt s.eng.got) (h.eng.fetched hr)
  rw [Nat.zero_add] at hb
  have hgot : (Machine.fetchWindow s 0 (groupSize s.eng.cnt s.eng.got)).eng.got = s.eng.got := by rw [fetchWindow_eng]
  have hrw : (Machine.fetchWindow s 0 (groupSize s.eng.cnt s.eng.got)).eng.rw = .read := by rw [fetchWindow_eng, hr]
  have hset := hw.setGot fun _ => hb
  simp only [Machine.fetchGroup, h.eng.cnt, h.eng.got, hw.eng.got, hgot, hset.binding]
  exact (hset.wrReg ..).endGroup hrw

theorem blockReadLoop (hr : s.eng.rw = .read) : Twin (blockReadLoop s) (blockReadLoop s') := by
  have hc := h.readCount
  rw [Machine.blockReadLoop, Machine.blockReadLoop, hc.eng.cnt]
  split
  · exact hc.setEng
      { hc.eng with
        rest := (congrArg (fun e : Engine => { e with rlen := 0, st := .clearSticky }) hc.eng.rest :)
        result := .zero }
  · exact hc.fetchGroup (by rw [readCount_eng, hr])

theorem blockWriteLoop (hr : s.eng.rw = .write) : Twin (blockWriteLoop s) (blockWriteLoop s') := by
  have hw := h.placeWindow (first := s.eng.got) (i := 0) (n := groupSize s.eng.wlen s.eng.got) fun j _ hj => by
    simp only [groupSize] at hj
    omega
  have hset := hw.setGot (n := s.eng.got + groupSize s.eng.wlen s.eng.got) (by simp [hr])
  simp only [Machine.blockWriteLoop, h.eng.wlen, h.eng.got, placeWindow_eng, hset.binding]
  exact (hset.wrReg ..).awaitPoll

theorem clearSticky : Twin (clearSticky s) (clearSticky s') := by
  have hw := h.wrReg .sts Config.STS_CLEAR_ALL
  rw [Machine.clearSticky, Machine.clearSticky, endPass, endPass, hw.eng.fail]
  split
  · exact hw.setEng
      { hw.eng with rest := (congrArg (fun e : Engine => { e with ok := true, st := .done }) hw.eng.rest :) }
  · exact hw.setEng
      { hw.eng with
        rest := (congrArg (fun e : Engine => { e with ok := false, rlen := 0, st := .failed }) hw.eng.rest :)
        result := .zero }

/-! #### The pass -/

theorem enginePhase (hp : s.eng.OnPass) : Twin (enginePhase s) (enginePhase s') := by
  rw [Machine.enginePhase, Machine.enginePhase, h.eng.st]
  split
  next => exact h
  next => exact h.busyCheck
  next => exact h.recover
  next => exact h.clearFlags
  next => exact h.startTransfer
  next => exact h.pollComplete
  next hs =>
    obtain ⟨-, hr⟩ := hp.readLoop hs
    exact h.blockReadLoop hr
  next => exact h.clearSticky
  next => exact h
  next => exact h
  next hs =>
    obtain ⟨-, hr, -⟩ := hp.writeLoop hs
    exact h.blockWriteLoop hr

theorem runEngine (n : Nat) (hp : s.eng.OnPass) : Twin (runEngine n s) (runEngine n s') := by
  induction n generalizing s s' with
  | zero => exact h
  | succ n ih =>
    rw [Machine.runEngine, Machine.runEngine, h.eng.st]
    split
    · exact h
    next ha =>
      obtain ⟨hnext, -⟩ := enginePhase_lowers s hp (by simpa using ha)
      exact ih (h.enginePhase hp) hnext

end Twin

/-! ### The scan -/

/-- Two machines in the middle of the same scan, with the two registers that it starts with. -/
structure ScanTwin (s s' : State) : Prop extends SameFar s s' where
  idx : s'.acc.idx = s.acc.idx
  found : s'.acc.found = s.acc.found

theorem runAccess_idx (s : State) (a : CfgAccess) : (runAccess s a).acc.idx = s.acc.idx := by cases a <;> rfl

theorem runAccess_found (s : State) (a : CfgAccess) : (runAccess s a).acc.found = s.acc.found := by cases a <;> rfl

theorem SameFar.startScan {s s' : State} (h : SameFar s s') : ScanTwin (startScan s) (startScan s') :=
  ⟨h.setAcc .., rfl, rfl⟩

/-- Two answers of the same kind: next states that are related, or the same stop. -/
inductive Alike (P : State → State → Prop) : Res → Res → Prop
  | next {t t' : State} (h : P t t') : Alike P (.next t) (.next t')
  | fault (e : Fault) : Alike P (.fault e) (.fault e)
  | refused (e : Refusal) : Alike P (.refused e) (.refused e)

theorem Alike.mono {P Q : State → State → Prop} {r r' : Res} (h : Alike P r r') (hpq : ∀ t t', P t t' → Q t t') :
    Alike Q r r' := by
  cases h with
  | next h => exact .next (hpq _ _ h)
  | fault e => exact .fault e
  | refused e => exact .refused e

namespace ScanTwin

variable {s s' : State} (h : ScanTwin s s')
include h

theorem callVisitor : ScanTwin (callVisitor s) (callVisitor s') := by
  refine ⟨⟨h.binding, ?_, h.inbox⟩, h.idx, h.found⟩
  simp only [Machine.callVisitor, scanTriple, State.setSide_side, State.setAcc_side, State.setAcc_acc, h.side, h.idx]

theorem runAccess (a : CfgAccess) : ScanTwin (runAccess s a) (runAccess s' a) where
  toSameFar := h.toSameFar.runAccess a
  idx := by rw [runAccess_idx, runAccess_idx, h.idx]
  found := by rw [runAccess_found, runAccess_found, h.found]

theorem cmds (l : List CfgAccess) : ScanTwin (l.foldl Machine.runAccess s) (l.foldl Machine.runAccess s') := by
  induction l generalizing s s' with
  | nil => exact h
  | cons a l ih => exact ih (h.runAccess a)

theorem scanRest : ScanTwin (scanRest s) (scanRest s') := by
  simp only [Machine.scanRest, h.idx, h.side]
  split
  · exact ⟨⟨h.binding, rfl, h.inbox⟩, rfl, h.found⟩
  · exact h

theorem scanFrom (calls : List VisitorCall) : Alike ScanTwin (scanFrom s calls) (scanFrom s' calls) := by
  induction calls generalizing s s' with
  | nil => exact .next h.scanRest
  | cons v vs ih =>
    have ht := h.callVisitor.cmds v.cmds
    rw [Machine.scanFrom, Machine.scanFrom, h.idx]
    dsimp only
    split
    · split
      · rcases v.answer with _ | _ | _
        · exact .fault _
        · dsimp only
          rw [ht.idx]
          exact ih ⟨ht.toSameFar.setAcc .., rfl, ht.found⟩
        · exact .next ⟨ht.toSameFar.setAcc .., ht.idx, rfl⟩
      · exact .refused _
    · exact .next h

end ScanTwin

/-! ### Instructions -/

/-- What a client sees of an instruction (R46): the far side, and the result registers of its kind of operation. -/
structure SameResult (i : Instr) (t t' : State) : Prop extends SameFar t t' where
  pass : (smbOperands i).isSome = true → t.eng.Agrees t'.eng
  read : ∀ b d f r, i = .cfgRd8 b d f r ∨ i = .cfgRd16 b d f r ∨ i = .cfgRd32 b d f r → t'.acc.rdata = t.acc.rdata
  scan : ∀ v, i = .cfgScan v → t'.acc.found = t.acc.found ∧ t'.acc.idx = t.acc.idx

theorem whenIdle_alike {s s' : State} (hs : CfgReady s) (hs' : CfgReady s') {P : State → State → Prop} {r r' : Res}
    (hr : Alike P r r') : Alike P (whenIdle s r) (whenIdle s' r') := by
  rwa [whenIdle, whenIdle, if_pos hs, if_pos hs']

/-- The only SMBus term that is ill-formed is a block write of a wrong length, refused in every state (R104 b). -/
theorem exec_smb_illFormed {i : Instr} (hi : (smbOperands i).isSome = true) (hw : ¬i.wellFormed = true) (s : State) :
    exec i s = .refused .blockLength := by
  cases i <;> simp [smbOperands, Instr.wellFormed] at hi hw
  case smbWriteBlockData => exact if_neg (by simp [hw])

/-- A single-byte write has a byte to send. -/
theorem smbOperands_operand {i : Instr} {t : Xfer} {rw : Dir} {sa : BitVec 7} {cmd : Byte} {data : List Byte}
    (h : smbOperands i = some (t, rw, sa, cmd, data)) (hr : rw = .write) (ht : t = .byte ∨ t = .byteData) :
    0 < data.length := by
  cases i <;> simp only [smbOperands, Option.some.injEq, Prod.mk.injEq, reduceCtorEq] at h <;>
    obtain ⟨rfl, rfl, rfl, rfl, rfl⟩ := h <;> simp at hr ht ⊢

section
variable {s s' : State} (h : SameFar s s') (hs : CfgReady s) (hs' : CfgReady s')
include h hs hs'

theorem exec_cfg_alike {i : Instr} {a : CfgAccess} (hi : cfgAccessOf i = some a) :
    Alike (SameResult i) (exec i s) (exec i s') := by
  rw [exec_cfg hi, exec_cfg hi]
  apply whenIdle_alike hs hs'
  split
  · refine .next ⟨h.runAccess a, ?_, ?_, ?_⟩
    · cases i <;> simp [cfgAccessOf, smbOperands] at hi ⊢
    · rintro b d f r (rfl | rfl | rfl) <;> cases hi <;> rw [h.eq] <;> rfl
    · rintro v rfl
      cases hi
  · exact .refused _

theorem exec_scan_alike (v : List VisitorCall) :
    Alike (SameResult (.cfgScan v)) (exec (.cfgScan v) s) (exec (.cfgScan v) s') :=
  whenIdle_alike hs hs' <| (h.startScan.scanFrom v).mono fun _ _ ht =>
    ⟨ht.toSameFar, nofun, by simp, fun _ _ => ⟨ht.found, ht.idx⟩⟩

theorem exec_smb_alike {i : Instr} (hi : (smbOperands i).isSome = true) :
    Alike (SameResult i) (exec i s) (exec i s') := by
  by_cases hw : i.wellFormed = true
  · obtain ⟨⟨ty, rw, sa, cmd, data⟩, ho⟩ := Option.isSome_iff_exists.1 hi
    rw [exec_smb ho hw, exec_smb ho hw, smbOperation, smbOperation, h.binding]
    apply whenIdle_alike hs hs'
    split
    · exact .refused _
    split
    · exact .refused _
    have ht := (h.latchSmb sa cmd (smbOperands_operand ho)).runEngine maxPhases
      (onPass_latch s ty rw sa cmd data (smbOperands_length ho hw))
    refine .next ⟨ht.toSameFar, fun _ => ht.eng, ?_, ?_⟩
    · rintro b d f r (rfl | rfl | rfl) <;> cases hi
    · rintro v rfl
      cases hi
  · rw [exec_smb_illFormed hi hw, exec_smb_illFormed hi hw]
    exact .refused _

/-- Every instruction answers alike on machines that agree outside the working registers. -/
theorem exec_alike (i : Instr) : Alike (SameResult i) (exec i s) (exec i s') := by
  cases ha : cfgAccessOf i with
  | some a => exact exec_cfg_alike h hs hs' ha
  | none =>
    by_cases ho : (smbOperands i).isSome = true
    · exact exec_smb_alike h hs hs' ho
    · cases i <;> simp [cfgAccessOf, smbOperands] at ha ho
      case cfgScan v => exact exec_scan_alike h hs hs' v

end

/-- Settles O17: the pass by `Twin`, the scan by `ScanTwin`, and an access by the operands it latches itself. -/
theorem noStaleWorkingRegisterIsRead : Obligations.NoStaleWorkingRegisterIsRead := by
  intro i s s' hs hs' hb hx hl
  have h := exec_alike ⟨hb.symm, hx.symm, hl.symm⟩ hs hs' i
  revert h
  generalize exec i s = r, exec i s' = r'
  rintro (⟨⟨far, pass, read, scan⟩⟩ | e | e)
  · refine ⟨far.side.symm, far.binding.symm, far.inbox.symm, fun ho => ?_, fun b d f r hi => (read b d f r hi).symm,
      fun v hi => ?_⟩
    · have he := pass ho
      exact ⟨he.ok.symm, he.fail.symm, he.rlen.symm, by rw [he.rlen, he.result.take_eq]⟩
    · obtain ⟨hfound, hidx⟩ := scan v hi
      exact ⟨hfound.symm, hidx.symm⟩
  · rfl
  · rfl

end Sys2Proof.Machine
end

section
/-! Addresses and ports (20_memory.md): the address word and the linear index field by field, and the port accesses a
step can add to the record. -/

namespace Sys2Proof.Machine

/-! ### The address word and the linear index -/

/-- The five terms of R66 occupy disjoint bits. -/
theorem cfgAddr_fields (b : BitVec 8) (d : BitVec 5) (f : BitVec 3) (r : Byte) :
    cfgAddr b d f r = 1#1 ++ 0#7 ++ b ++ d ++ f ++ r.extractLsb' 2 6 ++ 0#2 := by
  apply BitVec.eq_of_getLsbD_eq
  intro i hi
  simp only [cfgAddr, Config.CFG_ENABLE, Config.CFG_REG_MASK, BitVec.getLsbD_or, BitVec.getLsbD_shiftLeft,
    BitVec.getLsbD_setWidth, BitVec.getLsbD_and, BitVec.getLsbD_append, BitVec.getLsbD_extractLsb']
  interval_cases i <;> simp

theorem lin_fields (b : BitVec 8) (d : BitVec 5) (f : BitVec 3) : lin b d f = b ++ d ++ f := by
  apply BitVec.eq_of_getLsbD_eq
  intro i hi
  simp only [lin, BitVec.getLsbD_or, BitVec.getLsbD_shiftLeft, BitVec.getLsbD_setWidth, BitVec.getLsbD_append]
  interval_cases i <;> simp

theorem toNat_append_add {m n : Nat} (x : BitVec m) (y : BitVec n) : (x ++ y).toNat = x.toNat * 2 ^ n + y.toNat := by
  rw [BitVec.toNat_append, ← Nat.shiftLeft_add_eq_or_of_lt y.isLt, Nat.shiftLeft_eq]

theorem lin_toNat (b : BitVec 8) (d : BitVec 5) (f : BitVec 3) :
    (lin b d f).toNat = b.toNat * 256 + d.toNat * 8 + f.toNat := by
  have h := congrArg BitVec.toNat (lin_fields b d f)
  simp only [toNat_append_add] at h
  omega

theorem regMask_toNat (r : Byte) : (r &&& 0xFC#8).toNat = (r.extractLsb' 2 6).toNat * 4 := by
  revert r
  decide

theorem cfgAddr_toNat (b : BitVec 8) (d : BitVec 5) (f : BitVec 3) (r : Byte) :
    (cfgAddr b d f r).toNat =
      0x80000000 + b.toNat * 2 ^ 16 + d.toNat * 2 ^ 11 + f.toNat * 2 ^ 8 + (r &&& 0xFC#8).toNat := by
  have h := congrArg BitVec.toNat (cfgAddr_fields b d f r)
  simp only [toNat_append_add, BitVec.toNat_ofNat] at h
  rw [regMask_toNat]
  omega

theorem cfgAddr_lin (b : BitVec 8) (d : BitVec 5) (f : BitVec 3) (r : Byte) :
    cfgAddr b d f r = 0x80000000#32 ||| ((lin b d f).setWidth 32 <<< 8) ||| (r &&& 0xFC#8).setWidth 32 := by
  rw [cfgAddr_fields, lin_fields]
  apply BitVec.eq_of_getLsbD_eq
  intro i hi
  simp only [BitVec.getLsbD_or, BitVec.getLsbD_shiftLeft, BitVec.getLsbD_setWidth, BitVec.getLsbD_and,
    BitVec.getLsbD_append, BitVec.getLsbD_extractLsb']
  interval_cases i <;> simp

/-- R67: the index gives its triple back. -/
theorem tripleAt_lin (b : BitVec 8) (d : BitVec 5) (f : BitVec 3) : tripleAt (lin b d f).toNat = (b, d, f) := by
  have hb := b.isLt
  have hd := d.isLt
  have hf := f.isLt
  rw [lin_toNat, tripleAt]
  refine Prod.ext ?_ (Prod.ext ?_ ?_) <;> apply BitVec.eq_of_toNat_eq <;> simp only [BitVec.toNat_ofNat] <;> omega

/-- R67: the index orders functions as Bus, then Device, then Function. -/
theorem lin_lt (b b' : BitVec 8) (d d' : BitVec 5) (f f' : BitVec 3) :
    lin b d f < lin b' d' f' ↔ b < b' ∨ (b = b' ∧ (d < d' ∨ (d = d' ∧ f < f'))) := by
  have hd := d.isLt
  have hf := f.isLt
  have hd' := d'.isLt
  have hf' := f'.isLt
  simp only [BitVec.lt_def, BitVec.toNat_eq, lin_toNat]
  omega

theorem dataPort_lane (r : Byte) : dataPort r = 0xCFC#16 + (r.extractLsb' 0 2).setWidth 16 := by
  revert r
  decide

/-! ### The accesses of a step -/

/-- Whatever an instruction is, the accesses it adds to the record are permitted ones (R63). -/
theorem exec_trace {i : Instr} {s t : State} (h : exec i s = .next t) :
    ∃ es, t.side.trace = s.side.trace ++ es ∧ ∀ e ∈ es, allowedEvent s.binding e := by
  obtain ⟨a, -, -, hw, rfl⟩ | ⟨v, -, -, hscan⟩ | ⟨ty, rw, sa, cmd, data, -, -, -, rfl⟩ := exec_next h
  · exact (CfgMove.runAccess s hw).trace
  · obtain ⟨-, -, -, -, -, htrace⟩ := scanFrom_next hscan (startScan_idx_le s)
    exact htrace
  · exact ((EngineMove.latchSmb ..).trans (EngineMove.runPass _)).trace

/-! ### The obligations -/

/-- Settles O16, by the cases of a step: the bind step accesses nothing, and a step that accesses something keeps the
binding. -/
theorem onlyPermittedPortsAreTouched : Obligations.OnlyPermittedPortsAreTouched := by
  intro s t h
  obtain ⟨-, -, rfl⟩ | ⟨b, rest, -, -, -, -, rfl⟩ | ⟨c, rest, i, -, -, -, hx⟩ | ⟨-, -, rfl⟩ := step_cases h
  · exact ⟨[], by simp, by simp⟩
  · exact ⟨[], by simp, by simp⟩
  · rw [exec_binding hx]
    exact (exec_trace hx :)
  · rw [(EngineMove.enginePhase s).binding]
    exact (EngineMove.enginePhase s).trace

/-- Settles O18. -/
theorem configurationAddressWord : Obligations.ConfigurationAddressWord :=
  fun b d f r => ⟨cfgAddr_fields b d f r, cfgAddr_toNat b d f r, dataPort_lane r⟩

/-- Settles O19. -/
theorem linearIndex : Obligations.LinearIndex :=
  ⟨fun b d f => ⟨lin_toNat b d f, lin_fields b d f, tripleAt_lin b d f⟩, lin_lt,
    fun b d f r => ⟨cfgAddr_lin b d f r, rfl⟩⟩

end Sys2Proof.Machine
end

section
/-! Configuration data in the window (20_memory.md R68, R70), on hardware whose environment changes nothing on its own.
`DwordAt` says that memory holds a dword behind an address word; a dword write makes it so, and on a machine with that
address latched (`Addressed`) each byte lane and the whole window read it back. -/

namespace Sys2Proof.Machine

/-! ### The primitives on hardware -/

section
variable {s : State} (hb : s.binding.platform = .hardware) (p : Port)
include hb

theorem readVal8_hardware : readVal8 s p = (readByteAt (envStep s.side) (s.binding.target p)).1 := by
  simp [readVal8, PortSide.read8, hb]

theorem readVal32_hardware : readVal32 s p = (readDwordAt (envStep s.side) (s.binding.target p)).1 := by
  simp [readVal32, PortSide.read32, hb]

theorem write32_side_hardware (w : Dword) :
    (write32 s p w).side = (writeDwordAt (envStep s.side) (s.binding.target p) w).log (.wr32 p w) := by
  simp [write32, PortSide.write32, hb]

end

/-- R131: after the address phase the latch holds the operation's address word. -/
theorem addressPhase_configAddress {s : State} (hb : s.binding.platform = .hardware) :
    (addressPhase s).side.configAddress = cfgAddr s.acc.bus s.acc.dev s.acc.fn s.acc.reg := by
  rw [addressPhase, write32_side_hardware hb, target_configAddress]
  rfl

theorem addressPhase_cfg {s : State} (hb : s.binding.platform = .hardware) (hp : s.side.Passive) :
    (addressPhase s).side.cfg = s.side.cfg := by
  rw [addressPhase, write32_side_hardware hb, target_configAddress, envStep_passive hp]
  rfl

/-! ### The four lanes -/

/-- The address word does not depend on the lane of the register number. -/
theorem cfgAddr_congr (b : BitVec 8) (d : BitVec 5) (f : BitVec 3) {r q : Byte}
    (h : r.extractLsb' 2 6 = q.extractLsb' 2 6) : cfgAddr b d f r = cfgAddr b d f q := by
  rw [cfgAddr_fields, cfgAddr_fields, h]

theorem routedCell_inj {w : Dword} {k l : BitVec 2} (h : routedCell w k = routedCell w l) : k = l := by
  have hreg : w.extractLsb' 2 6 ++ k = w.extractLsb' 2 6 ++ l := (cfgCell_inj h).2
  simpa only [BitVec.extractLsb'_append_eq_right] using congrArg (BitVec.extractLsb' 0 2) hreg

@[simp] theorem storeLane_configAddress (x : PortSide) (k : BitVec 2) (v : Byte) :
    (x.storeLane k v).configAddress = x.configAddress := rfl

theorem read_storeLane {x : PortSide} {w : Dword} (hw : x.configAddress = w) (k l : BitVec 2) (v : Byte) :
    Memory.read (x.storeLane k v).cfg (routedCell w l) =
      if l = k then some v else Memory.read x.cfg (routedCell w l) := by
  subst hw
  rw [PortSide.storeLane]
  split
  next h => rw [h, Memory.read_write_same]
  next h => exact Memory.read_write_other _ _ fun he => h (routedCell_inj he)

theorem lane_cases (k : BitVec 2) : k = 0#2 ∨ k = 1#2 ∨ k = 2#2 ∨ k = 3#2 := by
  revert k
  decide

theorem dwordOf_byteOf (v : Dword) : dwordOf (byteOf v 0) (byteOf v 1) (byteOf v 2) (byteOf v 3) = v := by
  apply BitVec.eq_of_getLsbD_eq
  intro i hi
  simp only [dwordOf, byteOf, BitVec.getLsbD_append, BitVec.getLsbD_extractLsb']
  interval_cases i <;> simp

theorem word16_byteOf (v : Dword) (j : Nat) : word16 (byteOf v j) (byteOf v (j + 1)) = v.extractLsb' (8 * j) 16 :=
  BitVec.extractLsb'_append_extractLsb'_eq_extractLsb' (by omega)

/-- The four bytes behind the address word w are those of v (R68). -/
def DwordAt (m : Memory) (w v : Dword) : Prop := ∀ k : BitVec 2, Memory.read m (routedCell w k) = some (byteOf v k.toNat)

theorem target_dataPort_aligned (b : Binding) {r : Byte} (hr : fitsWindow r 4 = true) :
    b.target (dataPort r) = .configData 0#2 := by
  have hlane : ∀ r : Byte, fitsWindow r 4 = true → r.extractLsb' 0 2 = 0#2 := by decide
  rw [target_dataPort, hlane r hr]

/-- A dword write at the window stores every byte at its lane. -/
theorem write32_dwordAt {s : State} (hb : s.binding.platform = .hardware) {w : Dword}
    (hw : s.side.configAddress = w) (he : w.getLsbD 31 = true) {p : Port}
    (hp : s.binding.target p = .configData 0#2) (v : Dword) : DwordAt (write32 s p v).side.cfg w v := by
  have hlatch : (envStep s.side).configAddress = w := (envStep_configAddress _).trans hw
  have hopen : (envStep s.side).windowOpen = true := by rw [PortSide.windowOpen, hlatch, he]
  intro k
  rw [write32_side_hardware hb, hp, writeDwordAt, if_pos ⟨rfl, hopen⟩, PortSide.log_cfg]
  rcases lane_cases k with rfl | rfl | rfl | rfl <;> simp [read_storeLane, hw]

/-! ### Machines with an address latched -/

/-- Hardware in a passive environment, with the address word w latched and the dword v behind it. -/
structure Addressed (s : State) (w v : Dword) : Prop where
  hardware : s.binding.platform = .hardware
  passive : s.side.Passive
  enabled : w.getLsbD 31 = true
  latch : s.side.configAddress = w
  held : DwordAt s.side.cfg w v

namespace Addressed

variable {s : State} {w v : Dword} (h : Addressed s w v)
include h

theorem windowOpen : (envStep s.side).windowOpen = true := by
  rw [PortSide.windowOpen, envStep_configAddress, h.latch, h.enabled]

theorem windowByte (k : BitVec 2) (n : Nat) : (envStep s.side).windowByte k n = byteOf v k.toNat := by
  rw [PortSide.windowByte, envStep_configAddress, h.latch, envStep_passive h.passive, h.held k, Option.getD_some]

theorem readVal8 {p : Port} {k : BitVec 2} (hp : s.binding.target p = .configData k) :
    readVal8 s p = byteOf v k.toNat := by
  rw [readVal8_hardware h.hardware, hp, readByteAt, if_pos h.windowOpen, h.windowByte]

theorem readVal32 {p : Port} (hp : s.binding.target p = .configData 0#2) : readVal32 s p = v := by
  rw [readVal32_hardware h.hardware, hp, readDwordAt, if_pos ⟨rfl, h.windowOpen⟩]
  simp only [h.windowByte]
  exact dwordOf_byteOf v

theorem afterRead8 (p : Port) : Addressed (afterRead8 s p) w v where
  hardware := h.hardware
  passive := passive_tail h.passive (read8_env ..)
  enabled := h.enabled
  latch := (read8_configAddress ..).trans h.latch
  held := by
    rw [Machine.afterRead8, State.setSide_side, read8_cfg, envStep_passive h.passive]
    exact h.held

end Addressed

/-- Hardware in a passive environment that can accept a configuration command, with the dword v behind the word w. -/
structure Stored (s : State) (w v : Dword) : Prop where
  ready : CfgReady s
  hardware : s.binding.platform = .hardware
  passive : s.side.Passive
  held : DwordAt s.side.cfg w v

/-- An aligned dword write stores its value. -/
theorem stored_wr32 {s : State} (hs : CfgReady s) (hb : s.binding.platform = .hardware) (hp : s.side.Passive)
    (b : BitVec 8) (d : BitVec 5) (f : BitVec 3) {r : Byte} (v : Dword) (hr : fitsWindow r 4 = true) :
    Stored (runAccess s (.wr32 b d f r v)) (cfgAddr b d f r) v := by
  have hm := CfgMove.runAccess s (a := .wr32 b d f r v) hr
  exact ⟨by rwa [CfgReady, hm.eng], hm.binding ▸ hb, hm.passive hp,
    write32_dwordAt (s := addressPhase (acceptAccess s (.wr32 b d f r v))) hb
      (addressPhase_configAddress (s := acceptAccess s (.wr32 b d f r v)) hb) (cfgAddr_enabled ..)
      (target_dataPort_aligned _ hr) v⟩

namespace Stored

theorem addressed {s t : State} {w v : Dword} (h : Stored s w v) (hb : t.binding = s.binding) (hx : t.side = s.side)
    (hw : cfgAddr t.acc.bus t.acc.dev t.acc.fn t.acc.reg = w) : Addressed (addressPhase t) w v := by
  have ht : t.binding.platform = .hardware := hb ▸ h.hardware
  have hpt : t.side.Passive := hx ▸ h.passive
  refine ⟨ht, (CfgMove.addressPhase t).passive hpt, hw ▸ cfgAddr_enabled .., ?_, ?_⟩
  · rw [addressPhase_configAddress ht, hw]
  · rw [addressPhase_cfg ht hpt, hx]
    exact h.held

variable {s : State} {b : BitVec 8} {d : BitVec 5} {f : BitVec 3} {r q : Byte} {v : Dword}
  (h : Stored s (cfgAddr b d f r) v) (hq : q.extractLsb' 2 6 = r.extractLsb' 2 6)
include h

/-- The dword read back. -/
theorem rd32 (hr : fitsWindow r 4 = true) : ∃ u, exec (.cfgRd32 b d f r) s = .next u ∧ u.acc.rdata = v := by
  have ha := h.addressed (t := acceptAccess s (.rd32 b d f r)) rfl rfl rfl
  exact ⟨_, cfgOperation_next.2 ⟨h.ready, hr, rfl⟩, ha.readVal32 (target_dataPort_aligned _ hr)⟩

include hq

/-- A byte of the dword read. -/
theorem rd8 : ∃ u, exec (.cfgRd8 b d f q) s = .next u ∧
    u.acc.rdata = (byteOf v (q.extractLsb' 0 2).toNat).setWidth 32 := by
  have ha := h.addressed (t := acceptAccess s (.rd8 b d f q)) rfl rfl (cfgAddr_congr b d f hq)
  exact ⟨_, cfgOperation_next.2 ⟨h.ready, (fitsWindow_iff q).1, rfl⟩,
    congrArg (BitVec.setWidth 32) (ha.readVal8 (target_dataPort ..))⟩

/-- A word of the dword read. -/
theorem rd16 (hf : fitsWindow q 2 = true) : ∃ u, exec (.cfgRd16 b d f q) s = .next u ∧
    u.acc.rdata = (v.extractLsb' (8 * (q.extractLsb' 0 2).toNat) 16).setWidth 32 := by
  have ha := h.addressed (t := acceptAccess s (.rd16 b d f q)) rfl rfl (cfgAddr_congr b d f hq)
  have hlo := ha.readVal8 (target_dataPort _ q)
  have hhi := (ha.afterRead8 (dataPort q)).readVal8 (target_dataPort_succ _ q hf)
  have hnext : ∀ q : Byte, fitsWindow q 2 = true →
      ((q + 1#8).extractLsb' 0 2).toNat = (q.extractLsb' 0 2).toNat + 1 := by decide
  rw [hnext q hf] at hhi
  rw [← word16_byteOf, ← hlo, ← hhi]
  exact ⟨_, cfgOperation_next.2 ⟨h.ready, hf, rfl⟩, rfl⟩

end Stored

/-- The registers of an aligned dword differ in their lane alone. -/
theorem aligned_add : ∀ r : Byte, fitsWindow r 4 = true → ∀ j < 4,
    (r + BitVec.ofNat 8 j).extractLsb' 2 6 = r.extractLsb' 2 6 ∧ ((r + BitVec.ofNat 8 j).extractLsb' 0 2).toNat = j ∧
      (j < 3 → fitsWindow (r + BitVec.ofNat 8 j) 2 = true) := by
  decide

/-! ### The obligation -/

/-- Settles O27: the dword write stores the value, and each access to the dword reads its part of it back. -/
theorem configurationDataIsLittleEndian : Obligations.ConfigurationDataIsLittleEndian := by
  intro s b d f r v hr hs hb hp
  have hr4 := (fitsWindow_iff r).2.2.2 hr
  have h := stored_wr32 hs hb hp b d f v hr4
  refine ⟨_, cfgOperation_next.2 ⟨hs, hr4, rfl⟩, h.rd32 hr4, fun j hj => ?_, fun j hj => ?_⟩
  · obtain ⟨hdword, hlane, -⟩ := aligned_add r hr4 j hj
    have hu := h.rd8 hdword
    rwa [hlane] at hu
  · obtain ⟨hdword, hlane, hfits⟩ := aligned_add r hr4 j (hj.trans (by decide))
    have hu := h.rd16 hdword (hfits hj)
    rwa [hlane] at hu

end Sys2Proof.Machine
end

section
/-! The stub platform (20_memory.md R64), on which every read returns zero and every write is dropped. `StubMove` says
that the far side of the ports has seen the environment alone; configuration accesses and the phases of a pass are such
moves, and `Engine.TimesOut` follows a pass to its timeout. -/

namespace Sys2Proof.Machine

/-! ### The far side under the environment alone -/

/-- The far side after moves of the environment, with events recorded between them. -/
inductive PortSide.Drifts (x : PortSide) : PortSide → Prop
  | refl : Drifts x x
  | envStep {y : PortSide} (h : Drifts x y) : Drifts x (envStep y)
  | log {y : PortSide} (h : Drifts x y) (e : Event) : Drifts x (y.log e)

namespace PortSide.Drifts

variable {x y z : PortSide}

theorem trans (h : x.Drifts y) (k : y.Drifts z) : x.Drifts z := by
  induction k with
  | refl => exact h
  | envStep _ ih => exact ih.envStep
  | log _ e ih => exact ih.log e

theorem configAddress (h : x.Drifts y) : y.configAddress = x.configAddress := by
  induction h with
  | refl => rfl
  | envStep _ ih => exact (envStep_configAddress _).trans ih
  | log _ _ ih => exact ih

/-- A passive environment has changed nothing. -/
theorem passive (h : x.Drifts y) (hp : x.Passive) : y.Passive ∧ y.cfg = x.cfg ∧ y.regs = x.regs := by
  induction h with
  | refl => exact ⟨hp, rfl, rfl⟩
  | envStep _ ih =>
    obtain ⟨hy, hcfg, hregs⟩ := ih
    rw [envStep_passive hy]
    exact ⟨passive_tail hy rfl, hcfg, hregs⟩
  | log _ _ ih => exact ih

end PortSide.Drifts

/-! ### The primitives on the stub -/

section
variable {s : State} (hb : s.binding.platform = .stub)
include hb

theorem readVal8_stub (p : Port) : readVal8 s p = 0#8 := by
  simp [readVal8, PortSide.read8, hb]

theorem readVal32_stub (p : Port) : readVal32 s p = 0#32 := by
  simp [readVal32, PortSide.read32, hb]

theorem afterRead8_side_stub (p : Port) : (afterRead8 s p).side = (envStep s.side).log (.rd8 p 0#8) := by
  simp only [afterRead8, PortSide.read8, hb]
  rfl

theorem afterRead32_side_stub (p : Port) : (afterRead32 s p).side = (envStep s.side).log (.rd32 p 0#32) := by
  simp only [afterRead32, PortSide.read32, hb]
  rfl

theorem write8_side_stub (p : Port) (v : Byte) : (write8 s p v).side = (envStep s.side).log (.wr8 p v) := by
  simp only [write8, PortSide.write8, hb, State.setSide_side]

theorem write32_side_stub (p : Port) (w : Dword) : (write32 s p w).side = (envStep s.side).log (.wr32 p w) := by
  simp only [write32, PortSide.write32, hb, State.setSide_side]

theorem readByte_stub : (readByte s).acc.rdata = 0#32 := by
  simp [readByte, setRdata, readVal8_stub hb]

theorem readDword_stub : (readDword s).acc.rdata = 0#32 := by
  simp [readDword, setRdata, readVal32_stub hb]

theorem readWord_stub (b : BitVec 8) (d : BitVec 5) (f : BitVec 3) (r : Byte) :
    (dataPhase s (.rd16 b d f r)).acc.rdata = 0#32 := by
  simp [dataPhase, readHigh, setRdata, word16, readVal8_stub hb, readVal8_stub (s := afterRead8 s _) hb]

end

/-- A move of the machine that, on the stub platform, leaves the far side to the environment. -/
structure StubMove (s t : State) : Prop where
  binding : t.binding = s.binding
  side : s.binding.platform = .stub → s.side.Drifts t.side

namespace StubMove

theorem trans {s t u : State} (h : StubMove s t) (k : StubMove t u) : StubMove s u :=
  ⟨k.binding.trans h.binding, fun hb => (h.side hb).trans (k.side (h.binding ▸ hb))⟩

/-- Nothing passes over a port. -/
theorem of_side {s t : State} (hb : t.binding = s.binding) (hx : t.side = s.side) : StubMove s t :=
  ⟨hb, fun _ => hx ▸ .refl⟩

theorem refl (s : State) : StubMove s s := of_side rfl rfl

/-- One step of the block, which has no effect on the far side but its event. -/
theorem of_log {s t : State} {e : Event} (hb : t.binding = s.binding)
    (hx : s.binding.platform = .stub → t.side = (envStep s.side).log e) : StubMove s t :=
  ⟨hb, fun h => hx h ▸ .log (.envStep .refl) e⟩

theorem afterRead8 (s : State) (p : Port) : StubMove s (afterRead8 s p) :=
  of_log rfl fun hb => afterRead8_side_stub hb p

theorem afterRead32 (s : State) (p : Port) : StubMove s (afterRead32 s p) :=
  of_log rfl fun hb => afterRead32_side_stub hb p

theorem write8 (s : State) (p : Port) (v : Byte) : StubMove s (write8 s p v) :=
  of_log rfl fun hb => write8_side_stub hb p v

theorem write32 (s : State) (p : Port) (w : Dword) : StubMove s (write32 s p w) :=
  of_log rfl fun hb => write32_side_stub hb p w

theorem delay (s : State) (d : DelayKind) : StubMove s (delay s d) := of_log rfl fun _ => rfl

theorem raiseFail (s : State) (k : FailCode) : StubMove s (raiseFail s k) := by
  cases k with
  | noFailure => exact of_side rfl rfl
  | _ => exact ⟨rfl, fun _ => .log .refl _⟩

theorem afterReg (s : State) (r : Reg) : StubMove s (afterReg s r) := afterRead8 ..

theorem wrReg (s : State) (r : Reg) (v : Byte) : StubMove s (wrReg s r v) := write8 ..

/-! ### Configuration accesses -/

/-- The address phase of an access whose operands have been accepted. -/
theorem addressPhase (s : State) (a : CfgAccess) : StubMove s (addressPhase (acceptAccess s a)) := by
  have ha : StubMove s (acceptAccess s a) := by cases a <;> exact of_side rfl rfl
  exact ha.trans (write32 ..)

theorem dataPhase (s : State) (a : CfgAccess) : StubMove s (dataPhase s a) := by
  cases a with
  | rd8 b d f r => exact (afterRead8 ..).trans (of_side rfl rfl)
  | rd16 b d f r => exact ((afterRead8 ..).trans (afterRead8 ..)).trans (of_side rfl rfl)
  | rd32 b d f r => exact (afterRead32 ..).trans (of_side rfl rfl)
  | wr8 b d f r v => exact write8 ..
  | wr16 b d f r v => exact (write8 ..).trans (write8 ..)
  | wr32 b d f r v => exact write32 ..

theorem runAccess (s : State) (a : CfgAccess) : StubMove s (runAccess s a) := (addressPhase s a).trans (dataPhase ..)

/-! ### The phases of a pass that times out -/

theorem busyCheck (s : State) : StubMove s (busyCheck s) := (afterReg s _).trans (of_side rfl rfl)

theorem clearFlags (s : State) : StubMove s (clearFlags s) :=
  ((((afterReg s _).trans (of_side rfl rfl)).trans (wrReg ..)).trans (wrReg ..)).trans (of_side rfl rfl)

theorem placeWindow (s : State) (first i n : Nat) : StubMove s (placeWindow s first i n) := by
  induction n generalizing s i with
  | zero => exact refl s
  | succ n ih => exact (wrReg ..).trans (ih ..)

theorem programOperands (s : State) : StubMove s (programOperands s) := by
  unfold Machine.programOperands
  split
  · exact refl s
  · exact refl s
  · exact refl s
  · exact wrReg ..
  · exact wrReg ..
  · exact (wrReg ..).trans (wrReg ..)
  · exact wrReg ..
  · exact (((wrReg ..).trans (wrReg ..)).trans (placeWindow ..)).trans (of_side rfl rfl)

theorem startTransfer (s : State) : StubMove s (startTransfer s) :=
  (((wrReg s _ _).trans (programOperands _)).trans (wrReg ..)).trans (of_side rfl rfl)

theorem clearSticky (s : State) : StubMove s (clearSticky s) :=
  (wrReg s _ _).trans (of_side (EngineMove.endPass _).binding (endPass_side _))

end StubMove

/-- A status value of zero neither ends a poll nor fails it: the poll goes on until its budget is spent (R163). -/
theorem judgeStatus_zero {s : State} (h : s.eng.s = 0#8) :
    judgeStatus s = if pollSpent s.eng.poll then raiseFail s .transferTimeout else s := by
  simp [judgeStatus, h, isError, isComplete, isDone, isBlockFin]

section
variable {s : State} (hb : s.binding.platform = .stub)
include hb

theorem readStatus_stub :
    (readStatus (delay s .poll)).eng = { s.eng with s := 0#8, poll := s.eng.poll + 1 } := by
  simp [readStatus, regVal, readVal8_stub (s := delay s .poll) hb]

theorem pollComplete_stub :
    pollComplete s =
      if pollSpent (s.eng.poll + 1) then raiseFail (readStatus (delay s .poll)) .transferTimeout
      else readStatus (delay s .poll) := by
  rw [pollComplete, judgeStatus_zero] <;> rw [readStatus_stub hb]

theorem StubMove.pollComplete : StubMove s (pollComplete s) := by
  have h : StubMove s (readStatus (Machine.delay s .poll)) :=
    ((delay s .poll).trans (afterReg ..)).trans (of_side rfl rfl)
  rw [pollComplete_stub hb]
  split
  · exact h.trans (raiseFail ..)
  · exact h

end

/-! ### A pass -/

/-- Where a pass on the stub can be (R150): before its first poll, polling, or timed out after forty polls. -/
def Engine.TimesOut (e : Engine) : Prop :=
  match e.st with
  | .busyCheck => True
  | .clearFlags => True
  | .startTransfer => True
  | .pollComplete => e.poll < 40
  | .clearSticky => e.fail = .transferTimeout ∧ e.poll = 40
  | .failed => e.failedWith .transferTimeout ∧ e.poll = 40
  | .idle => False
  | .recover => False
  | .blockReadLoop => False
  | .done => False
  | .blockWriteLoop => False

theorem Engine.TimesOut.ended {e : Engine} (h : e.TimesOut) (ha : e.st.accepting = true) :
    e.failedWith .transferTimeout ∧ e.poll = 40 := by
  cases hs : e.st <;> simp only [Engine.TimesOut, Phase.accepting, hs, Bool.false_eq_true] at h ha
  case failed => exact h

/-- A phase on the stub stays on the way to the timeout. -/
theorem enginePhase_stub {s : State} (hb : s.binding.platform = .stub) (h : s.eng.TimesOut) :
    StubMove s (enginePhase s) ∧ (enginePhase s).eng.TimesOut := by
  unfold enginePhase
  cases hs : s.eng.st <;> simp only [Engine.TimesOut, hs] at h
  case busyCheck =>
    have hc : regVal s .cnt = 0#8 := readVal8_stub hb _
    exact ⟨.busyCheck s, by simp [Engine.TimesOut, busyCheck_eng, hc, isBusy]⟩
  case clearFlags => exact ⟨.clearFlags s, trivial⟩
  case startTransfer => exact ⟨.startTransfer s, by simp [Engine.TimesOut, startTransfer_eng]⟩
  case pollComplete =>
    refine ⟨.pollComplete hb, ?_⟩
    dsimp only
    rw [pollComplete_stub hb]
    split
    next hp =>
      have hforty : s.eng.poll + 1 = 40 := of_decide_eq_true hp
      simp [Engine.TimesOut, readStatus_stub hb, hforty]
    next hp =>
      have hforty : s.eng.poll + 1 ≠ 40 := fun he => hp (decide_eq_true he)
      simp only [Engine.TimesOut, readStatus_stub hb, hs]
      omega
  case clearSticky =>
    obtain ⟨hfail, hpoll⟩ := h
    exact ⟨.clearSticky s, by simp [Engine.TimesOut, Engine.failedWith, clearSticky_eng, hfail, hpoll]⟩
  case failed => exact ⟨.refl s, by simpa only [Engine.TimesOut, hs] using h⟩

theorem runEngine_stub (n : Nat) {s : State} (hb : s.binding.platform = .stub) (h : s.eng.TimesOut) :
    StubMove s (runEngine n s) ∧ (runEngine n s).eng.TimesOut := by
  induction n generalizing s with
  | zero => exact ⟨.refl s, h⟩
  | succ n ih =>
    rw [runEngine]
    split
    · exact ⟨.refl s, h⟩
    · obtain ⟨hm, ht⟩ := enginePhase_stub hb h
      obtain ⟨hm', ht'⟩ := ih (hm.binding ▸ hb) ht
      exact ⟨hm.trans hm', ht'⟩

/-- On the stub every pass ends Failed with code 5 at poll 40. -/
theorem runPass_stub {s : State} (hb : s.binding.platform = .stub) (t : Xfer) (rw : Dir) (sa : BitVec 7) (cmd : Byte)
    {data : List Byte} (hd : data.length ≤ 32) :
    StubMove s (runPass (latchSmb s t rw sa cmd data)) ∧
      (runPass (latchSmb s t rw sa cmd data)).eng.failedWith .transferTimeout ∧
      (runPass (latchSmb s t rw sa cmd data)).eng.poll = 40 := by
  obtain ⟨hm, ht⟩ := runEngine_stub maxPhases (s := latchSmb s t rw sa cmd data) hb trivial
  exact ⟨StubMove.trans (t := latchSmb s t rw sa cmd data) (.of_side rfl rfl) hm,
    ht.ended (runPass_ends s t rw sa cmd data hd)⟩

/-! ### The obligation -/

/-- A configuration read on the stub leaves the latch alone; that the value is zero is for its data phase to show. -/
theorem exec_read_stub {i : Instr} {a : CfgAccess} {s : State} (hi : cfgAccessOf i = some a) (hs : CfgReady s)
    (hb : s.binding.platform = .stub) (hw : a.wellFormed = true)
    (hv : ∀ t : State, t.binding.platform = .stub → (dataPhase t a).acc.rdata = 0#32) :
    ∃ t, exec i s = .next t ∧ t.acc.rdata = 0#32 ∧ t.side.configAddress = s.side.configAddress :=
  ⟨_, (exec_cfg hi s).trans (cfgOperation_next.2 ⟨hs, hw, rfl⟩), hv _ ((StubMove.addressPhase s a).binding ▸ hb),
    ((StubMove.runAccess s a).side hb).configAddress⟩

/-- Settles O32: accesses and passes on the stub are `StubMove`s, and a pass is on the way to its timeout throughout. -/
theorem stubPlatform : Obligations.StubPlatform := by
  refine ⟨fun s b d f r hs hb => ⟨?_, fun hr => ?_, fun hr => ?_⟩, fun s a hb hp => ?_, fun i s hi hw hs hb => ?_⟩
  · exact exec_read_stub rfl hs hb (fitsWindow_iff r).1 fun _ ht => readByte_stub ht
  · exact exec_read_stub rfl hs hb ((fitsWindow_iff r).2.1.2 hr) fun _ ht => readWord_stub ht b d f r
  · exact exec_read_stub rfl hs hb ((fitsWindow_iff r).2.2.2 hr) fun _ ht => readDword_stub ht
  · have hx := (StubMove.runAccess s a).side hb
    obtain ⟨-, hcfg, -⟩ := hx.passive hp
    exact ⟨hcfg, hx.configAddress⟩
  · obtain ⟨⟨ty, rw, sa, cmd, data⟩, ho⟩ := Option.isSome_iff_exists.1 hi
    obtain ⟨hm, hfail, hpoll⟩ := runPass_stub hb ty rw sa cmd (smbOperands_length ho hw)
    exact ⟨_, (exec_smb ho hw s).trans (smbOperation_next.2 ⟨hs, rfl⟩), hfail, hpoll,
      fun hp => ((hm.side hb).passive hp).2.2⟩

end Sys2Proof.Machine
end

section
/-! The command word and its instruction (30_encoding.md R101 to R104). `decode_encode` and `encode_decode` say that
decoding and encoding undo each other; what a command that decodes looks like, its row of the opcode table and its
fields, is then read off the encoding of the instruction it decodes to. -/

namespace Sys2Proof

/-! ### Decoding an encoding -/

/-- A write's value is no wider as `wdata` than it was (R102). -/
theorem toNat_wdata_lt {n : Nat} (hn : n ≤ 32) (v : BitVec n) : (v.setWidth 32).toNat < 2 ^ n := by
  rw [BitVec.toNat_setWidth_of_le hn]
  exact v.isLt

/-- R102: `wlen` holds the length of a block. -/
theorem toNat_wlen {data : List Byte} (h : blockLengthOk data = true) :
    1 ≤ data.length ∧ data.length ≤ 32 ∧ (BitVec.ofNat 6 data.length).toNat = data.length := by
  obtain ⟨h1, h32⟩ : 1 ≤ data.length ∧ data.length ≤ 32 := of_decide_eq_true h
  exact ⟨h1, h32, Nat.mod_eq_of_lt (by omega)⟩

theorem decode_encode {i : Instr} (hw : i.wellFormed = true) : decode (encode i) = .ok i := by
  cases i with
  | cfgRd8 b d f r => simpa [decode, encode, decodeCfgRead_ok, Instr.wellFormed] using hw
  | cfgRd16 b d f r => simpa [decode, encode, decodeCfgRead_ok, Instr.wellFormed] using hw
  | cfgRd32 b d f r => simpa [decode, encode, decodeCfgRead_ok, Instr.wellFormed] using hw
  | cfgWr8 b d f r v =>
    have hv := toNat_wdata_lt (by decide) v
    simpa [decode, encode, decodeCfgWrite_ok, Instr.wellFormed] using And.intro hv hw
  | cfgWr16 b d f r v =>
    have hv := toNat_wdata_lt (by decide) v
    simpa [decode, encode, decodeCfgWrite_ok, Instr.wellFormed] using And.intro hv hw
  | cfgWr32 b d f r v =>
    have hv := v.isLt
    simpa [decode, encode, decodeCfgWrite_ok, Instr.wellFormed] using And.intro hv hw
  | cfgScan v => simp [decode, encode, decodeScan_ok, opcodeOf]
  | smbWriteQuick sa => simp [decode, encode, decodeSmb_ok]
  | smbReadQuick sa => simp [decode, encode, decodeSmb_ok]
  | smbWriteByte sa data => simp [decode, encode, decodeSmb_ok]
  | smbReadByte sa => simp [decode, encode, decodeSmb_ok]
  | smbWriteByteData sa cmd data => simp [decode, encode, decodeSmb_ok]
  | smbReadByteData sa cmd => simp [decode, encode, decodeSmb_ok]
  | smbWriteBlockData sa cmd data =>
    obtain ⟨h1, h32, hn⟩ := toNat_wlen hw
    simp only [encode, decode, opcodeOf_wordS]
    refine decodeSmb_ok.2 ?_
    rw [zeroBitOf_wordS, zeroPairOf_wordS, wlenOf_wordS, saOf_wordS, cmdOf_wordS, hn]
    exact ⟨⟨rfl, rfl⟩, ⟨rfl, rfl, nofun⟩, ⟨h1, h32⟩, rfl, rfl⟩
  | smbReadBlockData sa cmd => simp [decode, encode, decodeSmb_ok]

/-! ### Encoding what was decoded -/

/-- A value that the operation is wide enough for is kept whole by it (R104 b). -/
theorem wdata_of_toNat_lt {n : Nat} {v : Dword} (h : v.toNat < 2 ^ n) : (v.setWidth n).setWidth 32 = v := by
  apply BitVec.eq_of_toNat_eq
  rw [BitVec.toNat_setWidth, BitVec.toNat_setWidth, Nat.mod_eq_of_lt h, Nat.mod_eq_of_lt v.isLt]

/-- The commands a configuration read is decoded from. -/
theorem decodeCfgRead_command {c : Command} {n : Nat} {i j : Instr} (h : decodeCfgRead c n i = .ok j) {op : Byte}
    (ho : (opcodeOf c.word).toNat = op.toNat) :
    i = j ∧ fitsWindow (regOf c.word) n = true ∧
      { word := wordC op (busOf c.word) (devOf c.word) (fnOf c.word) (regOf c.word) } = c := by
  obtain ⟨⟨hd, hb, hv⟩, hf, hi⟩ := decodeCfgRead_ok.1 h
  refine ⟨hi, hf, ?_⟩
  rw [← BitVec.eq_of_toNat_eq ho, wordC_fields, ← hd, ← hb, ← hv]

/-- The commands a configuration write is decoded from. -/
theorem decodeCfgWrite_command {c : Command} {n : Nat} {i : Dword → Instr} {j : Instr}
    (h : decodeCfgWrite c n i = .ok j) {op : Byte} (ho : (opcodeOf c.word).toNat = op.toNat) :
    ∃ v, i v = j ∧ v.toNat < 2 ^ (8 * n) ∧ fitsWindow (regOf c.word) n = true ∧
      { word := wordC op (busOf c.word) (devOf c.word) (fnOf c.word) (regOf c.word), wdata := some v } = c := by
  obtain ⟨v, hd, ⟨hb, hv⟩, hlt, hf, hi⟩ := decodeCfgWrite_ok.1 h
  refine ⟨v, hi, hlt, hf, ?_⟩
  rw [← BitVec.eq_of_toNat_eq ho, wordC_fields, ← hd, ← hb, ← hv]

/-- The commands an SMBus operation is decoded from. -/
theorem decodeSmb_command {c : Command} {z : Bool} {lo hi : Nat} {i j : Instr} (h : decodeSmb c z lo hi i = .ok j)
    {op : Byte} (ho : (opcodeOf c.word).toNat = op.toNat) :
    i = j ∧ lo ≤ c.wbuf.length ∧ c.wbuf.length ≤ hi ∧
      { word := wordS op (saOf c.word) (bif z then 0#8 else cmdOf c.word) (BitVec.ofNat 6 c.wbuf.length)
        wbuf := c.wbuf } = c := by
  obtain ⟨⟨hd, hv⟩, ⟨hbit, hpair, hcmd⟩, ⟨hlo, hhi⟩, hn, hi⟩ := decodeSmb_ok.1 h
  have hc : (bif z then 0#8 else cmdOf c.word) = cmdOf c.word := by cases z <;> simp_all
  refine ⟨hi, hn ▸ hlo, hn ▸ hhi, ?_⟩
  rw [hc, hn, BitVec.ofNat_toNat, BitVec.setWidth_eq, ← BitVec.eq_of_toNat_eq ho, wordS_fields _ hbit hpair, ← hd, ← hv]

/-- An SMBus operation without data. -/
theorem decodeSmb_noData {c : Command} {z : Bool} {i j : Instr} (h : decodeSmb c z 0 0 i = .ok j) {op : Byte}
    (ho : (opcodeOf c.word).toNat = op.toNat) :
    i = j ∧ { word := wordS op (saOf c.word) (bif z then 0#8 else cmdOf c.word) 0#6 } = c := by
  obtain ⟨hi, -, hlen, hc⟩ := decodeSmb_command h ho
  have hb : c.wbuf = [] := List.length_eq_zero_iff.1 (Nat.le_zero.1 hlen)
  exact ⟨hi, by simpa [hb] using hc⟩

/-- An SMBus write of a single byte. -/
theorem decodeSmb_oneByte {c : Command} {z : Bool} {i j : Instr} (h : decodeSmb c z 1 1 i = .ok j) {op : Byte}
    (ho : (opcodeOf c.word).toNat = op.toNat) :
    i = j ∧ { word := wordS op (saOf c.word) (bif z then 0#8 else cmdOf c.word) 1#6
              wbuf := [c.wbuf.headD 0#8] } = c := by
  obtain ⟨hi, h1, hlen, hc⟩ := decodeSmb_command h ho
  obtain ⟨v, hb⟩ := List.length_eq_one_iff.1 (Nat.le_antisymm hlen h1)
  exact ⟨hi, by simpa [hb] using hc⟩

/-- The one word of `CFG_SCAN`: its opcode, and bits 26:0 zero (R102). -/
theorem scanWord_eq {w : Dword} (ho : (opcodeOf w).toNat = 8) (hz : w.extractLsb' 0 27 = 0#27) : w = 0x08000000#32 := by
  have ho := congrArg (BitVec.toNat) (BitVec.eq_of_toNat_eq (y := 8#8) ho)
  have hz := congrArg BitVec.toNat hz
  have hw := w.isLt
  apply BitVec.eq_of_toNat_eq
  simp only [opcodeOf, BitVec.extractLsb'_toNat, Nat.shiftRight_eq_div_pow, BitVec.toNat_ofNat] at ho hz ⊢
  omega

theorem encode_decode {c : Command} {i : Instr} (h : decode c = .ok i) : i.wellFormed = true ∧ encode i = c := by
  unfold decode at h
  dsimp only at h
  split at h
  next ho => obtain ⟨rfl, hf, hc⟩ := decodeCfgRead_command h (op := 0x00#8) ho; exact ⟨hf, hc⟩
  next ho => obtain ⟨rfl, hf, hc⟩ := decodeCfgRead_command h (op := 0x01#8) ho; exact ⟨hf, hc⟩
  next ho => obtain ⟨rfl, hf, hc⟩ := decodeCfgRead_command h (op := 0x02#8) ho; exact ⟨hf, hc⟩
  next ho =>
    obtain ⟨v, rfl, hlt, hf, hc⟩ := decodeCfgWrite_command h (op := 0x04#8) ho
    exact ⟨hf, by rw [encode, wdata_of_toNat_lt hlt, hc]⟩
  next ho =>
    obtain ⟨v, rfl, hlt, hf, hc⟩ := decodeCfgWrite_command h (op := 0x05#8) ho
    exact ⟨hf, by rw [encode, wdata_of_toNat_lt hlt, hc]⟩
  next ho => obtain ⟨v, rfl, -, hf, hc⟩ := decodeCfgWrite_command h (op := 0x06#8) ho; exact ⟨hf, hc⟩
  next ho =>
    obtain ⟨v, hv, ⟨hd, hb⟩, hz, rfl⟩ := decodeScan_ok.1 h
    exact ⟨rfl, by rw [encode, ← scanWord_eq ho hz, ← hd, ← hb, ← hv]⟩
  next ho => obtain ⟨rfl, hc⟩ := decodeSmb_noData h (op := 0x10#8) ho; exact ⟨rfl, hc⟩
  next ho => obtain ⟨rfl, hc⟩ := decodeSmb_noData h (op := 0x11#8) ho; exact ⟨rfl, hc⟩
  next ho => obtain ⟨rfl, hc⟩ := decodeSmb_oneByte h (op := 0x12#8) ho; exact ⟨rfl, hc⟩
  next ho => obtain ⟨rfl, hc⟩ := decodeSmb_noData h (op := 0x13#8) ho; exact ⟨rfl, hc⟩
  next ho => obtain ⟨rfl, hc⟩ := decodeSmb_oneByte h (op := 0x14#8) ho; exact ⟨rfl, hc⟩
  next ho => obtain ⟨rfl, hc⟩ := decodeSmb_noData h (op := 0x15#8) ho; exact ⟨rfl, hc⟩
  next ho =>
    obtain ⟨rfl, h1, h32, hc⟩ := decodeSmb_command h (op := 0x16#8) ho
    exact ⟨decide_eq_true ⟨h1, h32⟩, hc⟩
  next ho => obtain ⟨rfl, hc⟩ := decodeSmb_noData h (op := 0x17#8) ho; exact ⟨rfl, hc⟩
  next => cases h

/-! ### The opcode table -/

/-- Every instruction's command word is in the row of its mnemonic. -/
theorem encode_tableRow (i : Instr) : Laws.TableRow.Statement i := by
  open Laws.TableRow in
  cases i with
  | cfgRd8 b d f r => exact cfgRd8 b d f r
  | cfgRd16 b d f r => exact cfgRd16 b d f r
  | cfgRd32 b d f r => exact cfgRd32 b d f r
  | cfgWr8 b d f r v => exact cfgWr8 b d f r v
  | cfgWr16 b d f r v => exact cfgWr16 b d f r v
  | cfgWr32 b d f r v => exact cfgWr32 b d f r v
  | cfgScan v => exact cfgScan v
  | smbWriteQuick sa => exact smbWriteQuick sa
  | smbReadQuick sa => exact smbReadQuick sa
  | smbWriteByte sa data => exact smbWriteByte sa data
  | smbReadByte sa => exact smbReadByte sa
  | smbWriteByteData sa cmd data => exact smbWriteByteData sa cmd data
  | smbReadByteData sa cmd => exact smbReadByteData sa cmd
  | smbWriteBlockData sa cmd data => exact smbWriteBlockData sa cmd data
  | smbReadBlockData sa cmd => exact smbReadBlockData sa cmd

/-- Every row's mask covers the whole opcode. -/
theorem opcodeOf_mask : ∀ row ∈ opcodeTable, opcodeOf row.mask = 0xFF#8 := by decide

/-- No two rows have the same opcode. -/
theorem opcodeOf_pattern_inj :
    ∀ row ∈ opcodeTable, ∀ other ∈ opcodeTable, opcodeOf other.pattern = opcodeOf row.pattern → other = row := by
  decide

/-- A word in a row has the row's opcode. -/
theorem opcodeOf_of_match {w : Dword} {row : OpcodeRow} (hr : row ∈ opcodeTable) (h : w &&& row.mask = row.pattern) :
    opcodeOf row.pattern = opcodeOf w := by
  rw [← h, opcodeOf, BitVec.extractLsb'_and]
  have hm := opcodeOf_mask row hr
  rw [opcodeOf] at hm
  rw [hm]
  exact BitVec.and_allOnes

/-! ### The obligations -/

/-- Settles O1. -/
theorem decodeOfEncodeIsTheInstruction : Obligations.DecodeOfEncodeIsTheInstruction := fun _ => decode_encode

/-- Settles O2. -/
theorem encodeOfDecodeIsTheCommand : Obligations.EncodeOfDecodeIsTheCommand := fun _ _ => encode_decode

/-- Settles O3: the command is the encoding of its instruction, and a word has the opcode of every row it is in. -/
theorem opcodeTableDecides : Obligations.OpcodeTableDecides := by
  have row_of_decode {c : Command} {i : Instr} (h : decode c = .ok i) :
      ∃ row ∈ opcodeTable, row.mnemonic = i.mnemonic ∧ c.word &&& row.mask = row.pattern := by
    obtain ⟨-, rfl⟩ := encode_decode h
    exact encode_tableRow i
  refine ⟨fun c i h => ?_, fun c h => ?_⟩
  · obtain ⟨row, hr, hn, hm⟩ := row_of_decode h
    refine ⟨row, hr, hn, hm, fun other ho hm' => opcodeOf_pattern_inj row hr other ho ?_⟩
    rw [opcodeOf_of_match ho hm', opcodeOf_of_match hr hm]
  · cases hd : decode c with
    | error why => exact ⟨why, rfl⟩
    | ok i =>
      obtain ⟨row, hr, -, hm⟩ := row_of_decode hd
      exact absurd hm (h row hr)

end Sys2Proof
end

section
/-! What is refused (30_encoding.md R104), and what a step makes of a command. `exec_eq_whenIdle` says that every
well-formed instruction waits for the end of a pass; the fields of a command are those of its instruction's encoding. -/

namespace Sys2Proof.Machine

/-! ### Acceptance -/

/-- R105: with no pass active, the operation goes ahead. -/
theorem whenIdle_ready {s : State} (h : CfgReady s) (r : Res) : whenIdle s r = r := if_pos h

/-- R104 (f): during a pass, it is refused. -/
theorem whenIdle_active {s : State} (h : s.eng.st.accepting = false) (r : Res) :
    whenIdle s r = .refused .operationActive := by
  rw [whenIdle, h]
  rfl

/-- The three kinds of instruction: a configuration access, a scan, an SMBus operation. -/
theorem instr_kinds (i : Instr) :
    (∃ a, cfgAccessOf i = some a) ∨ (∃ v, i = .cfgScan v) ∨ (smbOperands i).isSome = true := by
  cases i with
  | cfgScan v => exact .inr (.inl ⟨v, rfl⟩)
  | cfgRd8 b d f r => exact .inl ⟨_, rfl⟩
  | cfgRd16 b d f r => exact .inl ⟨_, rfl⟩
  | cfgRd32 b d f r => exact .inl ⟨_, rfl⟩
  | cfgWr8 b d f r v => exact .inl ⟨_, rfl⟩
  | cfgWr16 b d f r v => exact .inl ⟨_, rfl⟩
  | cfgWr32 b d f r v => exact .inl ⟨_, rfl⟩
  | _ => exact .inr (.inr rfl)

/-- An access is well-formed as its instruction is. -/
theorem cfgAccessOf_wellFormed {i : Instr} {a : CfgAccess} (h : cfgAccessOf i = some a) :
    a.wellFormed = i.wellFormed := by
  cases i <;> cases h <;> rfl

/-- Every well-formed instruction is refused during a pass, and otherwise goes ahead. -/
theorem exec_eq_whenIdle {i : Instr} (hw : i.wellFormed = true) (s : State) : ∃ r, exec i s = whenIdle s r := by
  obtain ⟨a, ha⟩ | ⟨v, rfl⟩ | hi := instr_kinds i
  · exact ⟨_, exec_cfg ha s⟩
  · exact ⟨_, rfl⟩
  · obtain ⟨⟨ty, rw, sa, cmd, data⟩, ho⟩ := Option.isSome_iff_exists.1 hi
    exact ⟨_, exec_smb ho hw s⟩

/-- R104 (e): with no base bound, an SMBus operation is refused. -/
theorem exec_noBase {i : Instr} (hi : (smbOperands i).isSome = true) (hw : i.wellFormed = true) {s : State}
    (hs : CfgReady s) (hb : s.binding.baseValid = false) : exec i s = .refused .noBase := by
  obtain ⟨⟨ty, rw, sa, cmd, data⟩, ho⟩ := Option.isSome_iff_exists.1 hi
  rw [exec_smb ho hw, smbOperation, whenIdle_ready hs, hb]
  rfl

/-! ### Commands -/

/-- R104 (a): opcodes outside the table. -/
theorem decode_unknownOpcode {c : Command}
    (h : (opcodeOf c.word).toNat ∉ [0, 1, 2, 4, 5, 6, 8, 16, 17, 18, 19, 20, 21, 22, 23]) :
    decode c = .error .unknownOpcode := by
  unfold decode
  dsimp only
  split
  case h_16 => rfl
  all_goals exact absurd (by simp [*]) h

/-- The must-be-zero bits of format S (R102). -/
theorem wordS_zeroBits (op : Byte) (sa : BitVec 7) (cmd : Byte) (n : BitVec 6) :
    (wordS op sa cmd n)[23] = false ∧ (wordS op sa cmd n)[7] = false ∧ (wordS op sa cmd n)[6] = false := by
  simp only [← BitVec.getLsbD_eq_getElem, wordS_getLsbD]
  simp

/-! ### Steps -/

/-- A command taken from the client is decoded, and the instruction run (R102, R103). -/
theorem step_command {s : State} {c : Command} {rest : List ClientInput} (hs : CfgReady s)
    (hi : s.inbox = .command c :: rest) : step s = takeInput (s.setInbox rest) (.command c) := by
  rw [step, if_pos hs, hi]

theorem takeInput_ok {c : Command} {i : Instr} (h : decode c = .ok i) (s : State) :
    takeInput s (.command c) = exec i s := by
  simp only [takeInput, h]

theorem takeInput_error {c : Command} {why : Reject} (h : decode c = .error why) (s : State) :
    takeInput s (.command c) = .refused (.illegalCommand why) := by
  simp only [takeInput, h]

theorem decodeTableWord_eq_some {nbits w : Nat} {i : Instr} :
    decodeTableWord nbits w = some i ↔ decode (commandOfBits nbits w) = .ok i := by
  unfold decodeTableWord
  cases decode (commandOfBits nbits w) <;> simp

/-! ### The obligations -/

/-- Settles O5: (b) and (d) by the encoding of the instruction that the command decodes to. -/
theorem refusedCommands : Obligations.RefusedCommands := by
  refine ⟨fun c h => decode_unknownOpcode h, fun c i h => ?_, fun i s hi hw hs hb => exec_noBase hi hw hs hb,
    fun i s hw hs => ?_⟩
  · obtain ⟨hw, rfl⟩ := encode_decode h
    cases i with
    | cfgRd8 b d f r => simp [encode]
    | cfgRd16 b d f r => simpa [encode] using (fitsWindow_iff r).2.1.1 hw
    | cfgRd32 b d f r => simpa [encode] using (fitsWindow_iff r).2.2.1 hw
    | cfgWr8 b d f r v => simpa [encode] using toNat_wdata_lt (by decide) v
    | cfgWr16 b d f r v =>
      simpa [encode] using And.intro (toNat_wdata_lt (by decide) v) ((fitsWindow_iff r).2.1.1 hw)
    | cfgWr32 b d f r v => simpa [encode] using (fitsWindow_iff r).2.2.1 hw
    | cfgScan v => simp [encode, opcodeOf]
    | smbWriteBlockData sa cmd data =>
      obtain ⟨h1, h32, hn⟩ := toNat_wlen hw
      rw [encode, wlenOf_wordS, hn]
      simp [wordS_zeroBits, h1, h32]
    | _ => simp [encode, wordS_zeroBits]
  · obtain ⟨r, hr⟩ := exec_eq_whenIdle hw s
    rw [hr, whenIdle_active hs]

/-- Settles O6: an ill-formed configuration access leaves the window, and an ill-formed block write has a wrong length. -/
theorem illFormedTermsAreRefused : Obligations.IllFormedTermsAreRefused := by
  intro i s hw hs
  obtain ⟨a, ha⟩ | ⟨v, rfl⟩ | hi := instr_kinds i
  · left
    rw [exec_cfg ha, cfgOperation, whenIdle_ready hs, cfgAccessOf_wellFormed ha, hw]
    rfl
  · cases hw
  · exact .inr (exec_smb_illFormed hi (by simp [hw]) s)

/-- Settles O7: the command of a table word is taken first, and with it gone the inbox is the old one. -/
theorem stepRunsTheDecodedCommand : Obligations.StepRunsTheDecodedCommand := by
  refine ⟨fun s c rest i hs hi hd => ?_, fun s nbits w i hs hd => ?_⟩
  · rw [step_command hs hi, takeInput_ok hd]
  · exact (step_command (s := s.withFetchWord nbits w) hs rfl).trans (takeInput_ok (decodeTableWord_eq_some.1 hd) s)

/-- Settles O8. -/
theorem stepRefusesWhatDoesNotDecode : Obligations.StepRefusesWhatDoesNotDecode := by
  intro s c rest why hs hi hd
  rw [step_command hs hi, takeInput_error hd]

end Sys2Proof.Machine
end

section
/-! The bytes the engine forms (30_encoding.md R111, R114, R116), and how a scan ends by its visitor (R104 (d), U29):
`scanFrom_served` takes the scan past the calls that return 0. -/

namespace Sys2Proof.Machine

/-! ### Bytes -/

theorem addrByte_fields (sa : BitVec 7) : addrByte sa .write = sa ++ 0#1 ∧ addrByte sa .read = sa ++ 1#1 := by
  revert sa
  decide

/-- R116: the count stands in the low six bits. -/
theorem countByte_fields {n : Nat} (h : n < 64) : (countByte n).toNat = n ∧ (countByte n).extractLsb' 6 2 = 0#2 := by
  have hn : (countByte n).toNat = n := Nat.mod_eq_of_lt (by omega)
  refine ⟨hn, BitVec.eq_of_toNat_eq ?_⟩
  rw [BitVec.extractLsb'_toNat, hn, Nat.shiftRight_eq_div_pow]
  simp only [BitVec.toNat_ofNat]
  omega

/-- R114: the one bit is clear. -/
theorem controlWriteback_clear (p : Params) (c : Byte) : controlWriteback p c &&& p.cntMstoEn = 0#8 := by
  rw [controlWriteback, BitVec.and_assoc, BitVec.and_comm (~~~_), BitVec.and_not_self]
  exact BitVec.and_zero

/-- R114: the other bits are as read. -/
theorem controlWriteback_rest (p : Params) (c : Byte) :
    controlWriteback p c &&& ~~~p.cntMstoEn = c &&& ~~~p.cntMstoEn := by
  rw [controlWriteback, BitVec.and_assoc, BitVec.and_self]

/-! ### The scan -/

/-- Calls that return 0 and whose commands are accepted take the scan on, one triple each (R138). -/
theorem scanFrom_served {before : List VisitorCall} (rest : List VisitorCall)
    (hb : ∀ v ∈ before, served v = true ∧ v.answer = some false) (s : State)
    (hn : s.acc.idx.toNat + before.length ≤ Config.N_FUNCTIONS) :
    ∃ t, t.acc.idx.toNat = s.acc.idx.toNat + before.length ∧ scanFrom s (before ++ rest) = scanFrom t rest := by
  induction before generalizing s with
  | nil => exact ⟨s, rfl, rfl⟩
  | cons v vs ih =>
    obtain ⟨⟨hserved, hanswer⟩, hvs⟩ := List.forall_mem_cons.1 hb
    rw [List.length_cons] at hn
    have hlt : s.acc.idx.toNat < Config.N_FUNCTIONS := by omega
    have hw : v.cmds.all CfgAccess.wellFormed = true := (Bool.and_eq_true_iff.1 hserved).2
    let u := v.cmds.foldl runAccess (callVisitor s)
    have hu : (nextTriple u).acc.idx.toNat = s.acc.idx.toNat + 1 := by
      have hidx : u.acc.idx = s.acc.idx := ((CfgMove.callVisitor s).trans (CfgMove.cmds _ hw)).idx
      rw [nextTriple, State.setAcc_acc, hidx, nextIdx_toNat hlt]
    obtain ⟨t, ht, hscan⟩ := ih hvs (nextTriple u) (by omega)
    refine ⟨t, by rw [ht, hu, List.length_cons]; omega, ?_⟩
    rw [List.cons_append, scanFrom_cons s v _ hlt hw, hanswer]
    exact hscan

/-- R104 (d): a visitor's command outside the data window is refused where it is issued. -/
theorem scanFrom_leavesWindow {s : State} {v : VisitorCall} (rest : List VisitorCall)
    (hi : s.acc.idx.toNat < Config.N_FUNCTIONS) (hw : v.cmds.all CfgAccess.wellFormed = false) :
    scanFrom s (v :: rest) = .refused .leavesWindow :=
  (if_pos hi).trans (if_neg (by simp [hw]))

/-! ### The obligations -/

/-- Settles O20. -/
theorem bytesTheEngineForms : Obligations.BytesTheEngineForms :=
  ⟨addrByte_fields, fun p c => ⟨controlWriteback_clear p c, controlWriteback_rest p c⟩,
    fun _ _ h32 => countByte_fields (by omega)⟩

/-- Settles O31: the scan comes to the call that stops it. -/
theorem scanStopsWithItsVisitor : Obligations.ScanStopsWithItsVisitor := by
  intro s before bad after hs hb hlen
  obtain ⟨t, ht, hscan⟩ := scanFrom_served (bad :: after) hb (startScan s)
    (show 0 + before.length ≤ 65536 by omega)
  have hi : t.acc.idx.toNat < Config.N_FUNCTIONS := ht ▸ show 0 + before.length < 65536 by omega
  have hexec : exec (.cfgScan (before ++ bad :: after)) s = scanFrom t (bad :: after) :=
    (whenIdle_ready hs _).trans hscan
  refine ⟨fun hw ha => ?_, fun hw => ?_⟩
  · rw [hexec, scanFrom_cons t bad after hi hw, ha]
  · rw [hexec, scanFrom_leavesWindow after hi hw]

end Sys2Proof.Machine
end

section
/-! The bytes a pass writes (30_encoding.md R112 to R114, R155). `QuietMove` says that a stretch of a pass writes no byte
but those of `Writable`, none of them to the control register. Every phase but ClearFlags is one; ClearFlags adds the
read of the control register, its write and the write of `STS_PRECLEAR`, in a row; and no phase leads back to it. -/

namespace Sys2Proof.Machine

/-! ### Events -/

/-- The bytes a pass of type ty writes to each register away from ClearFlags (R112, R113, R231). -/
def Writable (p : Params) (ty : Xfer) (r : Reg) (v : Byte) : Prop :=
  match r with
  | .cnt => False
  | .sts => v = p.stsPreclear ∨ v = p.stsBlockFin ∨ v = Config.STS_CLEAR_ALL
  | .hostcnt => v = killByte p ∨ v = startByte p ty
  | _ => True

/-- An event of a pass of type ty away from ClearFlags. -/
def QuietEvent (b : Binding) (ty : Xfer) : Event → Prop
  | .wr8 q v => ∃ r, q = b.portOf r ∧ Writable b.params ty r v
  | _ => True

/-- With distinct ports, a write names its register. -/
theorem quietEvent_wr8 {b : Binding} (hv : b.params.Valid) {ty : Xfer} {r : Reg} {v : Byte} :
    QuietEvent b ty (.wr8 (b.portOf r) v) ↔ Writable b.params ty r v := by
  refine ⟨fun ⟨q, hq, hw⟩ => ?_, fun hw => ⟨r, rfl, hw⟩⟩
  rwa [portOf_inj hv hq]

/-- A stretch of a pass that writes no byte but the writable ones. -/
structure QuietMove (s t : State) : Prop where
  binding : t.binding = s.binding
  type : t.eng.type = s.eng.type
  trace : ∃ es, t.side.trace = s.side.trace ++ es ∧ ∀ e ∈ es, QuietEvent s.binding s.eng.type e

namespace QuietMove

theorem trans {s t u : State} (h : QuietMove s t) (k : QuietMove t u) : QuietMove s u where
  binding := k.binding.trans h.binding
  type := k.type.trans h.type
  trace := by
    obtain ⟨es, hes, hq⟩ := h.trace
    obtain ⟨fs, hfs, hq'⟩ := k.trace
    rw [h.binding, h.type] at hq'
    exact ⟨es ++ fs, by rw [hfs, hes, List.append_assoc], List.forall_mem_append.2 ⟨hq, hq'⟩⟩

/-- Nothing passes over a port. -/
theorem of_side {s t : State} (hb : t.binding = s.binding) (ht : t.eng.type = s.eng.type) (hx : t.side = s.side) :
    QuietMove s t :=
  ⟨hb, ht, [], by rw [hx, List.append_nil], nofun⟩

theorem refl (s : State) : QuietMove s s := of_side rfl rfl rfl

/-- One event. -/
theorem of_event {s t : State} {e : Event} (hb : t.binding = s.binding) (ht : t.eng.type = s.eng.type)
    (hx : t.side.trace = s.side.trace ++ [e]) (he : QuietEvent s.binding s.eng.type e) : QuietMove s t :=
  ⟨hb, ht, [e], hx, by simpa using he⟩

theorem setEng {s : State} {e : Engine} (h : e.type = s.eng.type) : QuietMove s (s.setEng e) := of_side rfl h rfl

theorem goTo (s : State) (p : Phase) : QuietMove s (goTo s p) := setEng rfl

/-- A register read, and registers of the engine changed after it. -/
theorem read (s : State) (r : Reg) {e : Engine} (h : e.type = s.eng.type) : QuietMove s ((afterReg s r).setEng e) :=
  of_event rfl h (afterReg_side_trace s r) trivial

theorem wrReg {s : State} (r : Reg) {v : Byte} (h : Writable s.binding.params s.eng.type r v) :
    QuietMove s (wrReg s r v) :=
  of_event rfl rfl (wrReg_side_trace s r v) ⟨r, rfl, h⟩

theorem delay (s : State) (d : DelayKind) : QuietMove s (delay s d) :=
  of_event rfl rfl (delay_side_trace s d) trivial

theorem raiseFail (s : State) (k : FailCode) : QuietMove s (raiseFail s k) := by
  refine ⟨raiseFail_binding s k, by rw [raiseFail_eng], ?_⟩
  obtain ⟨d, hd, rfl | ⟨k, rfl⟩⟩ := raiseFail_adds s k
  · exact ⟨[], hd, nofun⟩
  · exact ⟨_, hd, by simp [QuietEvent]⟩

/-! ### The phases -/

theorem busyCheck (s : State) : QuietMove s (busyCheck s) := read s _ rfl

theorem beforeRecheck (s : State) : QuietMove s (beforeRecheck s) := by
  unfold Machine.beforeRecheck
  split
  · exact (wrReg .hostcnt (Or.inl rfl)).trans (delay ..)
  · exact delay ..

theorem recheck (s : State) : QuietMove s (recheck s) := by
  have h : QuietMove s (countRecheck s) := read s _ rfl
  rw [recheck_eq]
  split
  · split
    · exact h.trans (raiseFail ..)
    · exact h
  · exact h.trans (goTo ..)

theorem recover (s : State) : QuietMove s (recover s) := (beforeRecheck s).trans (recheck _)

theorem placeWindow (s : State) (first i n : Nat) : QuietMove s (placeWindow s first i n) := by
  induction n generalizing s i with
  | zero => exact refl s
  | succ n ih => exact (wrReg (winReg i) trivial).trans (ih ..)

theorem programOperands (s : State) : QuietMove s (programOperands s) := by
  unfold Machine.programOperands
  split
  · exact refl s
  · exact refl s
  · exact refl s
  · exact wrReg .cmd trivial
  · exact wrReg .cmd trivial
  · exact (wrReg .cmd trivial).trans (wrReg (winReg 0) trivial)
  · exact wrReg .cmd trivial
  · exact (((wrReg .cmd trivial).trans (wrReg .count trivial)).trans (placeWindow ..)).trans (setEng rfl)

theorem startTransfer (s : State) : QuietMove s (startTransfer s) :=
  (((wrReg .addr trivial).trans (programOperands _)).trans (wrReg .hostcnt (Or.inr rfl))).trans (setEng rfl)

theorem fetchByte (s : State) : QuietMove s (fetchByte s) := read s _ rfl

theorem afterPoll (s : State) : QuietMove s (afterPoll s) := by
  unfold Machine.afterPoll
  split
  case h_5 => exact fetchByte s
  case h_6 => exact fetchByte s
  all_goals exact goTo ..

theorem readStatus (s : State) : QuietMove s (readStatus s) := read s _ rfl

theorem judgeStatus (s : State) : QuietMove s (judgeStatus s) := by
  unfold Machine.judgeStatus
  split
  · exact raiseFail ..
  split
  · exact afterPoll s
  split
  · exact raiseFail ..
  · exact refl s

theorem pollComplete (s : State) : QuietMove s (pollComplete s) :=
  ((delay s .poll).trans (readStatus _)).trans (judgeStatus _)

theorem fetchOne (s : State) (i : Nat) : QuietMove s (fetchOne s i) := read s _ rfl

theorem fetchWindow (s : State) (i n : Nat) : QuietMove s (fetchWindow s i n) := by
  induction n generalizing s i with
  | zero => exact refl s
  | succ n ih => exact (fetchOne s i).trans (ih ..)

theorem readCount (s : State) : QuietMove s (readCount s) := by
  unfold Machine.readCount
  split
  · exact read s _ rfl
  · exact refl s

theorem setGot (s : State) (n : Nat) : QuietMove s (setGot s n) := setEng rfl

theorem endGroup (s : State) : QuietMove s (endGroup s) := by
  unfold Machine.endGroup
  split <;> exact setEng rfl

/-- R167, R168: the status re-armed between two groups. -/
theorem rearm {s t : State} (h : QuietMove s t) : QuietMove s (Machine.wrReg t .sts t.binding.params.stsBlockFin) :=
  h.trans (wrReg .sts (Or.inr (Or.inl rfl)))

theorem fetchGroup (s : State) : QuietMove s (fetchGroup s) :=
  ((fetchWindow s _ _).trans (setGot ..)).rearm.trans (endGroup _)

theorem blockReadLoop (s : State) : QuietMove s (blockReadLoop s) := by
  unfold Machine.blockReadLoop
  dsimp only
  split
  · exact (readCount s).trans (setEng rfl)
  · exact (readCount s).trans (fetchGroup _)

theorem blockWriteLoop (s : State) : QuietMove s (blockWriteLoop s) :=
  ((placeWindow s _ _ _).trans (setGot ..)).rearm.trans (setEng rfl)

theorem endPass (s : State) : QuietMove s (endPass s) := by
  unfold Machine.endPass
  split <;> exact setEng rfl

theorem clearSticky (s : State) : QuietMove s (clearSticky s) :=
  (wrReg .sts (Or.inr (Or.inr rfl))).trans (endPass _)

/-- Every phase but ClearFlags. -/
theorem enginePhase {s : State} (h : s.eng.st ≠ .clearFlags) : QuietMove s (enginePhase s) := by
  unfold Machine.enginePhase
  split
  · exact refl s
  · exact busyCheck s
  · exact recover s
  next hs => exact absurd hs h
  · exact startTransfer s
  · exact pollComplete s
  · exact blockReadLoop s
  · exact clearSticky s
  · exact refl s
  · exact refl s
  · exact blockWriteLoop s

end QuietMove

/-! ### ClearFlags, and what comes after it -/

/-- R155: the control register read, written back, and the status bits cleared. -/
def clearFlagsEvents (b : Binding) (c : Byte) : List Event :=
  [.rd8 (b.portOf .cnt) c, .wr8 (b.portOf .cnt) (controlWriteback b.params c), .wr8 (b.portOf .sts) b.params.stsPreclear]

theorem clearFlags_trace (s : State) :
    (clearFlags s).side.trace = s.side.trace ++ clearFlagsEvents s.binding (regVal s .cnt) := by
  simp [clearFlags, readControl, clearFlagsEvents]

/-- The pass has ClearFlags behind it, or ends without it (R150). -/
def Phase.pastFlags : Phase → Bool
  | .busyCheck => false
  | .recover => false
  | .clearFlags => false
  | _ => true

/-- R150: no phase leads back to ClearFlags. -/
theorem enginePhase_pastFlags {s : State} (h : s.eng.st.pastFlags = true) :
    (enginePhase s).eng.st.pastFlags = true := by
  unfold enginePhase
  split
  next => exact h
  next hs => rw [hs] at h; cases h
  next hs => rw [hs] at h; cases h
  next hs => rw [hs] at h; cases h
  next => rw [startTransfer_eng]; rfl
  next hs =>
    rw [pollComplete_eng]
    dsimp only
    split
    · rfl
    split
    · rw [afterPoll_eng]
      dsimp only
      split
      · rfl
      · split <;> rfl
      all_goals rfl
    split
    · rfl
    · exact h
  next =>
    rw [blockReadLoop_eng]
    split
    · rfl
    · rw [fetchGroup_eng]
      dsimp only
      split <;> rfl
  next =>
    rw [clearSticky_eng]
    dsimp only
    split <;> rfl
  next => exact h
  next => exact h
  next => rw [blockWriteLoop_eng]; rfl

/-- A pass that has ClearFlags behind it writes the writable bytes only. -/
theorem runEngine_pastFlags (n : Nat) {s : State} (h : s.eng.st.pastFlags = true) : QuietMove s (runEngine n s) := by
  induction n generalizing s with
  | zero => exact .refl s
  | succ n ih =>
    rw [runEngine]
    split
    · exact .refl s
    · have hne : s.eng.st ≠ .clearFlags := fun hs => by simp [hs, Phase.pastFlags] at h
      exact (QuietMove.enginePhase hne).trans (ih (enginePhase_pastFlags h))

/-- What a pass of type ty adds to the record: quiet events, with the events of ClearFlags once among them or not at
all. -/
inductive PassEvents (b : Binding) (ty : Xfer) : List Event → Prop
  | quiet {es : List Event} (h : ∀ e ∈ es, QuietEvent b ty e) : PassEvents b ty es
  | flags {es fs : List Event} (c : Byte) (hes : ∀ e ∈ es, QuietEvent b ty e) (hfs : ∀ e ∈ fs, QuietEvent b ty e) :
      PassEvents b ty (es ++ clearFlagsEvents b c ++ fs)

/-- Quiet events before those of the pass. -/
theorem PassEvents.append {b : Binding} {ty : Xfer} {gs es : List Event} (hg : ∀ e ∈ gs, QuietEvent b ty e)
    (h : PassEvents b ty es) : PassEvents b ty (gs ++ es) := by
  cases h with
  | quiet h => exact .quiet (List.forall_mem_append.2 ⟨hg, h⟩)
  | flags c hes hfs =>
    rw [← List.append_assoc, ← List.append_assoc]
    exact .flags c (List.forall_mem_append.2 ⟨hg, hes⟩) hfs

theorem runEngine_events (n : Nat) (s : State) :
    ∃ es, (runEngine n s).side.trace = s.side.trace ++ es ∧ PassEvents s.binding s.eng.type es := by
  induction n generalizing s with
  | zero => exact ⟨[], (List.append_nil _).symm, .quiet nofun⟩
  | succ n ih =>
    rw [runEngine]
    split
    · exact ⟨[], (List.append_nil _).symm, .quiet nofun⟩
    by_cases hs : s.eng.st = .clearFlags
    · have hp : enginePhase s = clearFlags s := by rw [enginePhase, hs]
      obtain ⟨fs, hfs, hq⟩ := (runEngine_pastFlags n (s := clearFlags s) rfl).trace
      exact ⟨[] ++ clearFlagsEvents s.binding (regVal s .cnt) ++ fs,
        by rw [hp, hfs, clearFlags_trace, List.append_assoc]; rfl, .flags _ nofun hq⟩
    · have hm := QuietMove.enginePhase hs
      obtain ⟨gs, hgs, hg⟩ := hm.trace
      obtain ⟨es, hes, he⟩ := ih (enginePhase s)
      rw [hm.binding, hm.type] at he
      exact ⟨gs ++ es, by rw [hes, hgs, List.append_assoc], he.append hg⟩

/-- The record of an SMBus instruction. -/
theorem exec_smb_events {i : Instr} {s t : State} {ty : Xfer} {rw : Dir} {sa : BitVec 7} {cmd : Byte}
    {data : List Byte} (ho : smbOperands i = some (ty, rw, sa, cmd, data)) (h : exec i s = .next t) :
    PassEvents s.binding ty (newEvents s t) := by
  obtain ⟨a, ha, -⟩ | ⟨v, rfl, -⟩ | ⟨ty', rw', sa', cmd', data', ho', -, -, rfl⟩ := exec_next h
  · cases i <;> cases ha <;> cases ho
  · cases ho
  · cases ho.symm.trans ho'
    obtain ⟨es, hes, he⟩ := runEngine_events maxPhases (latchSmb s ty rw sa cmd data)
    exact newEvents_of_append hes ▸ he

/-! ### What is read off the record -/

section
variable {b : Binding} (hv : b.params.Valid) {ty : Xfer}
include hv

/-- Away from ClearFlags nothing is written to the control register. -/
theorem cntWrite_notMem {es : List Event} (h : ∀ e ∈ es, QuietEvent b ty e) (v : Byte) :
    .wr8 (b.portOf .cnt) v ∉ es :=
  fun hm => (quietEvent_wr8 hv).1 (h _ hm)

/-- A register write of a pass is a writable byte, or one of the two writes of ClearFlags. -/
theorem PassEvents.wr8 {es : List Event} (h : PassEvents b ty es) {r : Reg} {v : Byte}
    (hm : .wr8 (b.portOf r) v ∈ es) :
    Writable b.params ty r v ∨ (∃ c, r = .cnt ∧ v = controlWriteback b.params c) ∨
      (r = .sts ∧ v = b.params.stsPreclear) := by
  cases h with
  | quiet h => exact .inl ((quietEvent_wr8 hv).1 (h _ hm))
  | flags c hes hfs =>
    simp only [List.mem_append, clearFlagsEvents, List.mem_cons, Event.wr8.injEq, reduceCtorEq, List.not_mem_nil,
      false_or, or_false] at hm
    obtain (hm | ⟨hr, hv'⟩ | ⟨hr, hv'⟩) | hm := hm
    · exact .inl ((quietEvent_wr8 hv).1 (hes _ hm))
    · exact .inr (.inl ⟨c, portOf_inj hv hr, hv'⟩)
    · exact .inr (.inr ⟨portOf_inj hv hr, hv'⟩)
    · exact .inl ((quietEvent_wr8 hv).1 (hfs _ hm))

/-- The write of the control register is the one of ClearFlags, between its read and the write of `STS_PRECLEAR`. -/
theorem PassEvents.cntWrite {before after : List Event} {v : Byte}
    (h : PassEvents b ty (before ++ .wr8 (b.portOf .cnt) v :: after)) :
    (∃ es c, before = es ++ [.rd8 (b.portOf .cnt) c] ∧ v = controlWriteback b.params c) ∧
      ∃ fs, after = .wr8 (b.portOf .sts) b.params.stsPreclear :: fs ∧ ∀ e ∈ fs, QuietEvent b ty e := by
  generalize hl : before ++ .wr8 (b.portOf .cnt) v :: after = l at h
  cases h with
  | quiet h => exact absurd (hl ▸ List.mem_append_right _ List.mem_cons_self) (cntWrite_notMem hv h v)
  | @flags es fs c hes hfs =>
    have hread : Event.wr8 (b.portOf .cnt) v ∉ es ++ [.rd8 (b.portOf .cnt) c] := by
      simpa using cntWrite_notMem hv hes v
    have hpre : Event.wr8 (b.portOf .cnt) v ∉ .wr8 (b.portOf .sts) b.params.stsPreclear :: fs := by
      have hport : b.portOf .cnt ≠ b.portOf .sts := fun hp => nomatch portOf_inj hv hp
      simpa [hport] using cntWrite_notMem hv hfs v
    have hsplit : (es ++ [.rd8 (b.portOf .cnt) c]) ++ .wr8 (b.portOf .cnt) (controlWriteback b.params c) ::
        .wr8 (b.portOf .sts) b.params.stsPreclear :: fs = before ++ .wr8 (b.portOf .cnt) v :: after := by
      rw [hl]
      simp [clearFlagsEvents]
    obtain ⟨rfl, hw, rfl⟩ := (List.append_cons_inj_of_notMem hread hpre).1 hsplit
    exact ⟨⟨es, c, rfl, (Event.wr8.inj hw).2.symm⟩, fs, rfl, hfs⟩

end

/-! ### The obligation -/

/-- Settles O39, by the record of a pass: its quiet events, and those of ClearFlags. -/
theorem valuesThePassWrites : Obligations.ValuesThePassWrites := by
  intro i s t ty rw sa cmd data ho _ hv h P
  have he := exec_smb_events ho h
  refine ⟨fun v => ⟨fun hm => ?_, fun hm => ?_, fun hm => ?_⟩, fun before after v hl => ?_⟩
  · obtain hw | ⟨c, hr, -⟩ | ⟨-, hw⟩ := he.wr8 hv hm
    · exact hw
    · cases hr
    · exact .inl hw
  · obtain hw | ⟨c, hr, -⟩ | ⟨hr, -⟩ := he.wr8 hv hm
    · cases ty <;> exact hw
    · cases hr
    · cases hr
  · obtain hw | ⟨c, -, rfl⟩ | ⟨hr, -⟩ := he.wr8 hv hm
    · cases hw
    · exact controlWriteback_clear _ c
    · cases hr
  · obtain ⟨hread, fs, rfl, hfs⟩ := (hl ▸ he).cntWrite hv
    refine ⟨hread, ⟨fs, rfl⟩, fun w hm => ?_⟩
    obtain hp | hm := List.mem_cons.1 hm
    · exact nomatch portOf_inj hv (Event.wr8.inj hp).1
    · exact cntWrite_notMem hv hfs w hm

end Sys2Proof.Machine
end

section
/-! The six configuration accesses on hardware (40_pci_config.md R131 to R137). `PortSide.latched` is the far side with
the three parts of it that the block alone changes; a data access to the window keeps that form, and each access is the
address phase, then one or two of those. -/

namespace Sys2Proof.Machine

/-! ### The far side with an address latched -/

/-- The far side x with the address word w latched, n draws used and the record t. -/
def PortSide.latched (x : PortSide) (w : Dword) (n : Nat) (t : List Event) : PortSide :=
  { x with configAddress := w, draws := n, trace := t }

theorem envStep_latched (x : PortSide) (w : Dword) (n : Nat) (t : List Event) :
    envStep (x.latched w n t) = (envStep x).latched w n t := envStep_with x w n t

/-- The configuration byte at address a, or the n-th draw where it is not known (log entry 5). -/
def PortSide.byteAt (x : PortSide) (a n : Nat) : Byte := (Memory.read x.cfg a).getD (Config.portDraw n)

/-- The far side x with the configuration byte at address a stored. -/
def PortSide.storeAt (x : PortSide) (a : Nat) (v : Byte) : PortSide := { x with cfg := Memory.write x.cfg a v }

@[simp] theorem storeAt_draws (x : PortSide) (a : Nat) (v : Byte) : (x.storeAt a v).draws = x.draws := rfl

/-! ### Accesses to the window -/

section
variable {x : PortSide} {b : Binding} {p : Port} {k : BitVec 2} {w : Dword} {n : Nat} {t : List Event}
  (hb : b.platform = .hardware) (hw : w.getLsbD 31 = true)
include hb hw

/-- A byte read at lane k. -/
theorem read8_latched (hp : b.target p = .configData k) :
    (x.latched w n t).read8 b p =
      let v := (envStep x).byteAt (routedCell w k) n
      (v, (envStep x).latched w (n + 1) (t ++ [.rd8 p v])) := by
  have hopen : ((envStep x).latched w n t).windowOpen = true := hw
  simp only [PortSide.read8, envStep_latched, hb, hp, readByteAt, if_pos hopen]
  rfl

/-- A dword read at the first lane. -/
theorem read32_latched (hp : b.target p = .configData 0#2) :
    (x.latched w n t).read32 b p =
      let byte := fun k : BitVec 2 => (envStep x).byteAt (routedCell w k) (n + k.toNat)
      let v := dwordOf (byte 0#2) (byte 1#2) (byte 2#2) (byte 3#2)
      (v, (envStep x).latched w (n + 4) (t ++ [.rd32 p v])) := by
  have hopen : ((envStep x).latched w n t).windowOpen = true := hw
  simp only [PortSide.read32, envStep_latched, hb, hp, readDwordAt, hopen, and_self, if_true]
  rfl

/-- A byte write at lane k. -/
theorem write8_latched (hp : b.target p = .configData k) (v : Byte) :
    (x.latched w n t).write8 b p v = ((envStep x).storeAt (routedCell w k) v).latched w n (t ++ [.wr8 p v]) := by
  have hopen : ((envStep x).latched w n t).windowOpen = true := hw
  simp only [PortSide.write8, envStep_latched, hb, hp, writeByteAt, if_pos hopen]
  rfl

/-- A dword write at the first lane. -/
theorem write32_latched (hp : b.target p = .configData 0#2) (v : Dword) :
    (x.latched w n t).write32 b p v =
      (((((envStep x).storeAt (routedCell w 0#2) (byteOf v 0)).storeAt (routedCell w 1#2) (byteOf v 1)).storeAt
        (routedCell w 2#2) (byteOf v 2)).storeAt (routedCell w 3#2) (byteOf v 3)).latched w n (t ++ [.wr32 p v]) := by
  have hopen : ((envStep x).latched w n t).windowOpen = true := hw
  simp only [PortSide.write32, envStep_latched, hb, hp, writeDwordAt, hopen, and_self, if_true]
  rfl

end

/-! ### Routes -/

/-- The address word of the operands latched in the accessor (R131). -/
def State.addressWord (s : State) : Dword := cfgAddr s.acc.bus s.acc.dev s.acc.fn s.acc.reg

/-- The configuration byte that the operands latched in the accessor name (R67). -/
def State.cell (s : State) : Nat := cfgCell (lin s.acc.bus s.acc.dev s.acc.fn) s.acc.reg

theorem addressWord_enabled (s : State) : s.addressWord.getLsbD 31 = true := cfgAddr_enabled ..

theorem routedCell_addressWord (s : State) : routedCell s.addressWord (s.acc.reg.extractLsb' 0 2) = s.cell :=
  routedCell_lane ..

/-- The byte j registers further on is in reach of the same address word. -/
theorem routedCell_addressWord_add {s : State} {j : Nat} (hj : j < 4) (h : fitsWindow s.acc.reg (j + 1) = true) :
    routedCell s.addressWord ((s.acc.reg + BitVec.ofNat 8 j).extractLsb' 0 2) = s.cell + j := by
  have hadd : ∀ r : Byte, ∀ j < 4, fitsWindow r (j + 1) = true →
      r.extractLsb' 2 6 = (r + BitVec.ofNat 8 j).extractLsb' 2 6 ∧ (r + BitVec.ofNat 8 j).toNat = r.toNat + j := by
    decide
  obtain ⟨hdword, hnat⟩ := hadd _ j hj h
  rw [State.addressWord, cfgAddr_congr _ _ _ hdword, routedCell_lane, State.cell, cfgCell, hnat, cfgCell, Nat.add_assoc]

/-- At an aligned register, lane k is the byte k registers further on. -/
theorem routedCell_addressWord_aligned {s : State} (h : fitsWindow s.acc.reg 4 = true) (k : BitVec 2) :
    routedCell s.addressWord k = s.cell + k.toNat := by
  have hlane : ∀ r : Byte, fitsWindow r 4 = true → ∀ k : BitVec 2,
      fitsWindow r (k.toNat + 1) = true ∧ (r + BitVec.ofNat 8 k.toNat).extractLsb' 0 2 = k := by decide
  obtain ⟨hfits, hk⟩ := hlane _ h k
  rw [← routedCell_addressWord_add k.isLt hfits, hk]

/-! ### The phases -/

section
variable {s : State} (hb : s.binding.platform = .hardware)
include hb

/-- R131: the address phase. -/
theorem addressPhase_eq : addressPhase s =
    s.setSide ((envStep s.side).latched s.addressWord s.side.draws (s.side.trace ++ [.wr32 0xCF8#16 s.addressWord])) := by
  refine State.ext_parts rfl rfl rfl ?_ rfl
  rw [addressPhase, write32_side_hardware hb, target_configAddress, ← envStep_draws s.side, ← envStep_trace s.side]
  rfl

/-- The data phase of an access begins with its address word latched. -/
theorem runAccess_eq (a : CfgAccess) :
    runAccess s a =
      let u := acceptAccess s a
      dataPhase (u.setSide ((envStep s.side).latched u.addressWord s.side.draws
        (s.side.trace ++ [.wr32 0xCF8#16 u.addressWord]))) a := by
  have hu : (acceptAccess s a).side = s.side ∧ (acceptAccess s a).binding = s.binding := by cases a <;> exact ⟨rfl, rfl⟩
  rw [runAccess, addressPhase_eq (hu.2 ▸ hb), hu.1]

variable (x : PortSide) (n : Nat) (t : List Event)

/-- The data phase of R132. -/
theorem readByte_latched :
    let v := (envStep x).byteAt s.cell n
    readByte (s.setSide (x.latched s.addressWord n t)) = (s.setAcc { s.acc with rdata := v.setWidth 32 }).setSide
      ((envStep x).latched s.addressWord (n + 1) (t ++ [.rd8 (dataPort s.acc.reg) v])) := by
  have h := read8_latched (x := x) (n := n) (t := t) hb (addressWord_enabled s) (target_dataPort _ s.acc.reg)
  rw [routedCell_addressWord] at h
  simp only [readByte, readVal8, afterRead8, State.setSide_side, State.setSide_binding, State.setSide_acc, h]
  rfl

/-- The data phase of R133: the environment moves between the two reads. -/
theorem readWord_latched (hf : fitsWindow s.acc.reg 2 = true) :
    let u := s.setSide (x.latched s.addressWord n t)
    let p := dataPort s.acc.reg
    let lo := (envStep x).byteAt s.cell n
    let hi := (envStep (envStep x)).byteAt (s.cell + 1) (n + 1)
    readHigh (afterRead8 u p) (readVal8 u p) = (s.setAcc { s.acc with rdata := (word16 lo hi).setWidth 32 }).setSide
      ((envStep (envStep x)).latched s.addressWord (n + 2) (t ++ [.rd8 p lo, .rd8 (p + 1#16) hi])) := by
  have hlo := read8_latched (x := x) (n := n) (t := t) hb (addressWord_enabled s) (target_dataPort _ s.acc.reg)
  have hhi := fun t => read8_latched (x := envStep x) (n := n + 1) (t := t) hb (addressWord_enabled s)
    (target_dataPort_succ _ s.acc.reg hf)
  have hnext := routedCell_addressWord_add (j := 1) (by decide) hf
  simp only [routedCell_addressWord, hnext] at hlo hhi
  simp only [readHigh, readVal8, afterRead8, State.setSide_side, State.setSide_binding, State.setSide_acc, hlo, hhi,
    List.append_assoc]
  rfl

/-- The data phase of R134. -/
theorem readDword_latched (hf : fitsWindow s.acc.reg 4 = true) :
    let byte := fun j => (envStep x).byteAt (s.cell + j) (n + j)
    let v := dwordOf (byte 0) (byte 1) (byte 2) (byte 3)
    readDword (s.setSide (x.latched s.addressWord n t)) = (s.setAcc { s.acc with rdata := v }).setSide
      ((envStep x).latched s.addressWord (n + 4) (t ++ [.rd32 0xCFC#16 v])) := by
  have h := read32_latched (x := x) (n := n) (t := t) hb (addressWord_enabled s) (target_dataPort_aligned _ hf)
  simp only [routedCell_addressWord_aligned hf, dataPort_aligned hf] at h
  simp only [readDword, readVal32, afterRead32, State.setSide_side, State.setSide_binding, State.setSide_acc,
    dataPort_aligned hf, h]
  rfl

/-- The data phase of R135, and the first write of R136. -/
theorem writeLow_latched {v : Byte} (hv : byteOf s.acc.wdata 0 = v) :
    writeLow (s.setSide (x.latched s.addressWord n t)) =
      s.setSide (((envStep x).storeAt s.cell v).latched s.addressWord n (t ++ [.wr8 (dataPort s.acc.reg) v])) := by
  have h := write8_latched (x := x) (n := n) (t := t) hb (addressWord_enabled s) (target_dataPort _ s.acc.reg) v
  rw [routedCell_addressWord] at h
  rw [writeLow, State.setSide_acc, hv]
  exact congrArg s.setSide h

/-- The second write of R136. -/
theorem writeHigh_latched (hf : fitsWindow s.acc.reg 2 = true) {v : Byte} (hv : byteOf s.acc.wdata 1 = v) :
    writeHigh (s.setSide (x.latched s.addressWord n t)) =
      s.setSide (((envStep x).storeAt (s.cell + 1) v).latched s.addressWord n
        (t ++ [.wr8 (dataPort s.acc.reg + 1#16) v])) := by
  have h := write8_latched (x := x) (n := n) (t := t) hb (addressWord_enabled s) (target_dataPort_succ _ s.acc.reg hf) v
  have hnext := routedCell_addressWord_add (j := 1) (by decide) hf
  rw [hnext] at h
  rw [writeHigh, State.setSide_acc, hv]
  exact congrArg s.setSide h

/-- The data phase of R137. -/
theorem writeDword_latched (hf : fitsWindow s.acc.reg 4 = true) :
    let v := s.acc.wdata
    writeDword (s.setSide (x.latched s.addressWord n t)) =
      s.setSide (((((envStep x).storeAt s.cell (byteOf v 0)).storeAt (s.cell + 1) (byteOf v 1)).storeAt (s.cell + 2)
        (byteOf v 2)).storeAt (s.cell + 3) (byteOf v 3) |>.latched s.addressWord n (t ++ [.wr32 0xCFC#16 v])) := by
  have h := write32_latched (x := x) (n := n) (t := t) hb (addressWord_enabled s) (target_dataPort_aligned _ hf)
    s.acc.wdata
  simp only [routedCell_addressWord_aligned hf, dataPort_aligned hf, BitVec.reduceToNat, Nat.add_zero] at h
  rw [writeDword, State.setSide_acc, dataPort_aligned hf]
  exact congrArg s.setSide h

end

/-- A byte of a value that was widened to be latched. -/
theorem byteOf_setWidth {m j : Nat} (v : BitVec m) (hj : 8 * j + 8 ≤ 32) :
    byteOf (v.setWidth 32) j = v.extractLsb' (8 * j) 8 := by
  apply BitVec.eq_of_getLsbD_eq
  intro i hi
  simp only [byteOf, BitVec.getLsbD_extractLsb', BitVec.getLsbD_setWidth, decide_eq_true (show 8 * j + i < 32 by omega),
    Bool.true_and]

/-- With the draws as they are, only the latch and the record are replaced. -/
theorem latched_eq {x : PortSide} {n : Nat} (h : x.draws = n) (w : Dword) (t : List Event) :
    x.latched w n t = { x with configAddress := w, trace := t } := by
  subst h
  rfl

/-! ### The obligations -/

/-- Settles O21: the address phase, and the data phase of R132. -/
theorem cfgRd8Result : Obligations.CfgRd8Result := by
  intro b d f r
  have hfits := (fitsWindow_iff r).1
  refine ⟨decode_encode (i := .cfgRd8 b d f r) hfits, fun s hs hb => cfgOperation_next.2 ⟨hs, hfits, ?_⟩⟩
  rw [runAccess_eq hb]
  refine ((readByte_latched (s := acceptAccess s (.rd8 b d f r)) hb _ _ _).trans ?_).symm
  rw [List.append_assoc]
  rfl

/-- Settles O22: the address phase, and the two reads of R133. -/
theorem cfgRd16Result : Obligations.CfgRd16Result := by
  intro b d f r hr
  have hfits := (fitsWindow_iff r).2.1.2 hr
  refine ⟨decode_encode (i := .cfgRd16 b d f r) hfits, fun s hs hb => cfgOperation_next.2 ⟨hs, hfits, ?_⟩⟩
  rw [runAccess_eq hb]
  refine ((readWord_latched (s := acceptAccess s (.rd16 b d f r)) hb _ _ _ hfits).trans ?_).symm
  rw [List.append_assoc]
  rfl

/-- Settles O23: the address phase, and the data phase of R134. -/
theorem cfgRd32Result : Obligations.CfgRd32Result := by
  intro b d f r hr
  have hfits := (fitsWindow_iff r).2.2.2 hr
  refine ⟨decode_encode (i := .cfgRd32 b d f r) hfits, fun s hs hb => cfgOperation_next.2 ⟨hs, hfits, ?_⟩⟩
  rw [runAccess_eq hb]
  refine ((readDword_latched (s := acceptAccess s (.rd32 b d f r)) hb _ _ _ hfits).trans ?_).symm
  rw [List.append_assoc]
  rfl

/-- Settles O24: the address phase, and the data phase of R135. -/
theorem cfgWr8Result : Obligations.CfgWr8Result := by
  intro b d f r v
  have hfits := (fitsWindow_iff r).1
  have hv : byteOf (v.setWidth 32) 0 = v := (byteOf_setWidth v (by decide)).trans BitVec.extractLsb'_eq_self
  refine ⟨decode_encode (i := .cfgWr8 b d f r v) hfits, fun s hs hb => cfgOperation_next.2 ⟨hs, hfits, ?_⟩⟩
  rw [runAccess_eq hb]
  refine ((writeLow_latched (s := acceptAccess s (.wr8 b d f r v)) hb _ _ _ hv).trans ?_).symm
  rw [List.append_assoc, latched_eq (by simp)]
  rfl

/-- Settles O25: the address phase, and the two writes of R136. -/
theorem cfgWr16Result : Obligations.CfgWr16Result := by
  intro b d f r v hr
  have hfits := (fitsWindow_iff r).2.1.2 hr
  have hlo : byteOf (v.setWidth 32) 0 = v.extractLsb' 0 8 := byteOf_setWidth v (by decide)
  have hhi : byteOf (v.setWidth 32) 1 = v.extractLsb' 8 8 := byteOf_setWidth v (by decide)
  refine ⟨decode_encode (i := .cfgWr16 b d f r v) hfits, fun s hs hb => cfgOperation_next.2 ⟨hs, hfits, ?_⟩⟩
  rw [runAccess_eq hb]
  refine ((congrArg writeHigh (writeLow_latched (s := acceptAccess s (.wr16 b d f r v)) hb _ _ _ hlo)).trans ?_).symm
  refine (writeHigh_latched (s := acceptAccess s (.wr16 b d f r v)) hb _ _ _ hfits hhi).trans ?_
  rw [List.append_assoc, List.append_assoc, latched_eq (by simp)]
  rfl

/-- Settles O26: the address phase, and the data phase of R137. -/
theorem cfgWr32Result : Obligations.CfgWr32Result := by
  intro b d f r v hr
  have hfits := (fitsWindow_iff r).2.2.2 hr
  refine ⟨decode_encode (i := .cfgWr32 b d f r v) hfits, fun s hs hb => cfgOperation_next.2 ⟨hs, hfits, ?_⟩⟩
  rw [runAccess_eq hb]
  refine ((writeDword_latched (s := acceptAccess s (.wr32 b d f r v)) hb _ _ _ hfits).trans ?_).symm
  rw [List.append_assoc, latched_eq (by simp)]
  rfl

end Sys2Proof.Machine
end

section
/-! The port accesses of the configuration operations (40_pci_config.md R139). `Accesses n s t` says that what has been
recorded from s to t is n port accesses and nothing else. -/

namespace Sys2Proof.Machine

/-! ### Port accesses recorded -/

/-- From s to t, n port accesses have been recorded and nothing else. -/
def Accesses (n : Nat) (s t : State) : Prop :=
  ∃ es, t.side.trace = s.side.trace ++ es ∧ (∀ e ∈ es, e.isPort = true) ∧ es.length = n

namespace Accesses

theorem refl (s : State) : Accesses 0 s s := ⟨[], by simp, by simp, rfl⟩

theorem one {s t : State} {e : Event} (h : t.side.trace = s.side.trace ++ [e]) (he : e.isPort = true) :
    Accesses 1 s t := ⟨[e], h, by simpa using he, rfl⟩

theorem trans {m n : Nat} {s t u : State} (h : Accesses m s t) (k : Accesses n t u) : Accesses (m + n) s u := by
  obtain ⟨es, hes, hports, hm⟩ := h
  obtain ⟨fs, hfs, kports, hn⟩ := k
  refine ⟨es ++ fs, by rw [hfs, hes, List.append_assoc], fun e he => ?_, by rw [List.length_append, hm, hn]⟩
  exact (List.mem_append.1 he).elim (hports e) (kports e)

theorem portCount_newEvents {n : Nat} {s t : State} (h : Accesses n s t) : portCount (newEvents s t) = n := by
  obtain ⟨es, hes, hports, hn⟩ := h
  rw [newEvents_of_append hes, portCount, List.filter_eq_self.2 hports, hn]

end Accesses

/-- R139: the number of port accesses of a configuration access. -/
def accessCount : CfgAccess → Nat
  | .rd8 _ _ _ _ => 2
  | .rd16 _ _ _ _ => 3
  | .rd32 _ _ _ _ => 2
  | .wr8 _ _ _ _ _ => 2
  | .wr16 _ _ _ _ _ => 3
  | .wr32 _ _ _ _ _ => 2

/-- One access for the address, and one or two for the data. -/
theorem runAccess_accesses (s : State) (a : CfgAccess) : Accesses (accessCount a) s (runAccess s a) := by
  have haddress : Accesses 1 s (addressPhase (acceptAccess s a)) := by
    cases a <;> exact .one (write32_side_trace ..) rfl
  cases a with
  | rd8 b d f r => exact haddress.trans (.one (afterRead8_side_trace ..) rfl)
  | rd16 b d f r =>
    exact (haddress.trans (.one (afterRead8_side_trace ..) rfl)).trans (.one (afterRead8_side_trace ..) rfl)
  | rd32 b d f r => exact haddress.trans (.one (afterRead32_side_trace ..) rfl)
  | wr8 b d f r v => exact haddress.trans (.one (write8_side_trace ..) rfl)
  | wr16 b d f r v => exact (haddress.trans (.one (write8_side_trace ..) rfl)).trans (.one (write8_side_trace ..) rfl)
  | wr32 b d f r v => exact haddress.trans (.one (write32_side_trace ..) rfl)

/-! ### The latch -/

/-- A dword write at the window leaves the latch as it is. -/
theorem write32_data_configAddress (s : State) (r : Byte) (v : Dword) :
    (write32 s (dataPort r) v).side.configAddress = s.side.configAddress := by
  unfold write32 PortSide.write32
  rw [target_dataPort]
  cases s.binding.platform with
  | hardware =>
    simp only [writeDwordAt, State.setSide_side, PortSide.log_configAddress]
    split <;> simp
  | stub => simp

/-- No data phase touches the latch. -/
theorem dataPhase_configAddress (s : State) (a : CfgAccess) :
    (dataPhase s a).side.configAddress = s.side.configAddress := by
  cases a with
  | rd8 b d f r => exact read8_configAddress ..
  | rd16 b d f r => exact (read8_configAddress ..).trans (read8_configAddress ..)
  | rd32 b d f r => exact read32_configAddress ..
  | wr8 b d f r v => exact write8_configAddress ..
  | wr16 b d f r v => exact (write8_configAddress ..).trans (write8_configAddress ..)
  | wr32 b d f r v => exact write32_data_configAddress ..

/-- R131: after an access on hardware the latch holds the address word of the operands. -/
theorem runAccess_configAddress {s : State} (hb : s.binding.platform = .hardware) (a : CfgAccess) :
    (runAccess s a).side.configAddress = (runAccess s a).addressWord := by
  have hword : (runAccess s a).addressWord = (acceptAccess s a).addressWord := by cases a <;> rfl
  rw [hword, runAccess_eq hb, dataPhase_configAddress]
  rfl

/-! ### A scan whose visitor issues nothing -/

theorem idleVisits_portCount (i : BitVec 17) (n : Nat) : portCount (idleVisits i n) = 0 := by
  induction n generalizing i with
  | zero => rfl
  | succ n ih => exact ih _

/-- Whatever the calls answer, nothing is accessed. -/
theorem scanFrom_noCommands {calls : List VisitorCall} (hc : ∀ v ∈ calls, v.cmds = [] ∧ v.answer.isSome = true)
    (s : State) : ∃ t es, scanFrom s calls = .next t ∧ t.side.trace = s.side.trace ++ es ∧ portCount es = 0 := by
  induction calls generalizing s with
  | nil => exact ⟨_, _, rfl, congrArg PortSide.trace (scanRest_side s), idleVisits_portCount ..⟩
  | cons v vs ih =>
    by_cases hi : s.acc.idx.toNat < 65536
    · obtain ⟨⟨hcmds, hsome⟩, hvs⟩ := List.forall_mem_cons.1 hc
      obtain ⟨answer, hanswer⟩ := Option.isSome_iff_exists.1 hsome
      rw [scanFrom_cons s v vs hi (by simp [hcmds]), hcmds, hanswer]
      cases answer with
      | true => exact ⟨_, _, rfl, callVisitor_trace s, rfl⟩
      | false =>
        obtain ⟨t, es, hscan, htrace, hcount⟩ := ih hvs (nextTriple (callVisitor s))
        rw [nextTriple, State.setAcc_side, callVisitor_trace, List.append_assoc] at htrace
        exact ⟨t, _, hscan, htrace, hcount⟩
    · exact ⟨s, [], scanFrom_end s _ hi, by simp, rfl⟩

/-! ### The obligation -/

/-- Settles O28: the record of an access, the latch through its data phase, and a scan that records calls only. -/
theorem configurationPortAccessCounts : Obligations.ConfigurationPortAccessCounts := by
  refine ⟨fun s a _ => ⟨?_, fun hb => ?_⟩, fun s visitor hs hv => ?_⟩
  · rw [(runAccess_accesses s a).portCount_newEvents]
    cases a <;> rfl
  · have hlatch := runAccess_configAddress hb a
    exact ⟨hlatch, hlatch ▸ addressWord_enabled _⟩
  · obtain ⟨t, es, hscan, htrace, hcount⟩ := scanFrom_noCommands hv (startScan s)
    refine ⟨t, (whenIdle_ready hs _).trans hscan, ?_⟩
    rw [newEvents_of_append (s := s) htrace, hcount]

end Sys2Proof.Machine
end

section
/-! The scan from its start to its end (40_pci_config.md R138). `ScanPast` says what a stretch of a scan has done in
which every call returned 0: one call is such a stretch, and so is the rest of a scan whose visitor has no more calls. -/

namespace Sys2Proof.Machine

/-! ### The triples called -/

/-- R67: the triple at a scan position. -/
theorem idx_triple (i : BitVec 17) : (idxBus i, idxDev i, idxFn i) = tripleAt i.toNat := by
  refine Prod.ext ?_ (Prod.ext ?_ ?_) <;> apply BitVec.eq_of_toNat_eq <;>
    simp only [idxBus, idxDev, idxFn, tripleAt, BitVec.extractLsb'_toNat, BitVec.toNat_ofNat, Nat.shiftRight_eq_div_pow,
      Nat.reducePow, Nat.div_one]

theorem visits_append (es fs : List Event) : visits (es ++ fs) = visits es ++ visits fs := by
  induction es with
  | nil => rfl
  | cons e es ih => cases e <;> simp [visits, ih]

/-- A port access calls no visitor. -/
theorem visits_ports {es : List Event} (h : ∀ e ∈ es, e.isPort = true) : visits es = [] := by
  induction es with
  | nil => rfl
  | cons e es ih =>
    obtain ⟨he, hes⟩ := List.forall_mem_cons.1 h
    cases e with
    | delay d => cases he
    | visit b d f => cases he
    | diag d => cases he
    | _ => exact ih hes

/-! ### One call -/

/-- A visitor's commands leave the scan's own registers alone and record port accesses only. -/
theorem cmds_scan (s : State) (l : List CfgAccess) :
    (l.foldl runAccess s).acc.idx = s.acc.idx ∧ (l.foldl runAccess s).acc.found = s.acc.found ∧
      ∃ n, Accesses n s (l.foldl runAccess s) := by
  induction l generalizing s with
  | nil => exact ⟨rfl, rfl, 0, .refl s⟩
  | cons a l ih =>
    obtain ⟨hidx, hfound, n, hn⟩ := ih (runAccess s a)
    exact ⟨hidx.trans (runAccess_idx s a), hfound.trans (runAccess_found s a), _, (runAccess_accesses s a).trans hn⟩

/-- A call of the visitor with the triple at the scan position, and the commands it issues. -/
theorem call_scan (s : State) (l : List CfgAccess) :
    let t := l.foldl runAccess (callVisitor s)
    t.acc.idx = s.acc.idx ∧ t.acc.found = s.acc.found ∧
      ∃ es, t.side.trace = s.side.trace ++ es ∧ visits es = [tripleAt s.acc.idx.toNat] := by
  obtain ⟨hidx, hfound, n, es, hes, hports, -⟩ := cmds_scan (callVisitor s) l
  refine ⟨hidx, hfound, _, by rw [hes, callVisitor_trace, List.append_assoc], ?_⟩
  rw [visits_append, visits_ports hports, List.append_nil, visits, visits, idx_triple]

/-! ### Stretches of a scan -/

/-- From s to t a scan has made n calls, each with the triple at its position, and none has returned 1. -/
structure ScanPast (s t : State) (n : Nat) : Prop where
  idx : t.acc.idx.toNat = s.acc.idx.toNat + n
  found : t.acc.found = s.acc.found
  trace : ∃ es, t.side.trace = s.side.trace ++ es ∧ visits es = (List.range' s.acc.idx.toNat n).map tripleAt

namespace ScanPast

theorem refl (s : State) : ScanPast s s 0 := ⟨rfl, rfl, [], by simp, rfl⟩

theorem trans {s t u : State} {m n : Nat} (h : ScanPast s t m) (k : ScanPast t u n) : ScanPast s u (m + n) where
  idx := by rw [k.idx, h.idx, Nat.add_assoc]
  found := k.found.trans h.found
  trace := by
    obtain ⟨es, hes, hvisits⟩ := h.trace
    obtain ⟨fs, hfs, kvisits⟩ := k.trace
    refine ⟨es ++ fs, by rw [hfs, hes, List.append_assoc], ?_⟩
    rw [visits_append, hvisits, kvisits, h.idx, ← List.map_append, List.range'_append_1]

/-- One call that returns 0. -/
theorem call {s : State} (hi : s.acc.idx.toNat < Config.N_FUNCTIONS) (l : List CfgAccess) :
    ScanPast s (nextTriple (l.foldl runAccess (callVisitor s))) 1 := by
  obtain ⟨hidx, hfound, htrace⟩ := call_scan s l
  refine ⟨?_, hfound, htrace⟩
  rw [nextTriple, State.setAcc_acc, hidx, nextIdx_toNat hi]

/-- The calls that a visitor with nothing more to say still gets. -/
theorem rest {n : Nat} {s : State} (hn : s.acc.idx.toNat + n = Config.N_FUNCTIONS) : ScanPast s (scanRest s) n := by
  induction n generalizing s with
  | zero =>
    rw [scanRest, if_neg (by omega)]
    exact .refl s
  | succ n ih =>
    have hi : s.acc.idx.toNat < Config.N_FUNCTIONS := by omega
    have hcall := call hi []
    rw [scanRest_step hi, Nat.add_comm n 1]
    exact hcall.trans (ih (by rw [hcall.idx]; omega))

end ScanPast

/-- A call that returns 0 takes the scan on. -/
theorem scanFrom_call {s : State} (hi : s.acc.idx.toNat < Config.N_FUNCTIONS) {v : VisitorCall}
    (hv : served v = true ∧ v.answer = some false) (vs : List VisitorCall) :
    scanFrom s (v :: vs) = scanFrom (nextTriple (v.cmds.foldl runAccess (callVisitor s))) vs := by
  rw [scanFrom_cons s v vs hi (Bool.and_eq_true_iff.1 hv.1).2, hv.2]
  rfl

/-- Calls that return 0 take the scan past their triples. -/
theorem scanFrom_past {before : List VisitorCall} (rest : List VisitorCall)
    (hb : ∀ v ∈ before, served v = true ∧ v.answer = some false) (s : State)
    (hn : s.acc.idx.toNat + before.length ≤ Config.N_FUNCTIONS) :
    ∃ t, ScanPast s t before.length ∧ scanFrom s (before ++ rest) = scanFrom t rest := by
  induction before generalizing s with
  | nil => exact ⟨s, .refl s, rfl⟩
  | cons v vs ih =>
    obtain ⟨hv, hvs⟩ := List.forall_mem_cons.1 hb
    rw [List.length_cons] at hn
    have hi : s.acc.idx.toNat < Config.N_FUNCTIONS := by omega
    have hcall := ScanPast.call hi v.cmds
    obtain ⟨t, hpast, hscan⟩ := ih hvs _ (by rw [hcall.idx]; omega)
    rw [List.cons_append, scanFrom_call hi hv, List.length_cons, Nat.add_comm]
    exact ⟨t, hcall.trans hpast, hscan⟩

/-- A scan in which no call returns 1 goes past every triple that is left. -/
theorem scanFrom_toEnd {calls : List VisitorCall} (hc : ∀ v ∈ calls, served v = true ∧ v.answer = some false)
    {n : Nat} {s : State} (hn : s.acc.idx.toNat + n = Config.N_FUNCTIONS) :
    ∃ t, ScanPast s t n ∧ scanFrom s calls = .next t := by
  induction calls generalizing s n with
  | nil => exact ⟨_, .rest hn, rfl⟩
  | cons v vs ih =>
    obtain ⟨hv, hvs⟩ := List.forall_mem_cons.1 hc
    cases n with
    | zero => exact ⟨s, .refl s, scanFrom_end s _ (by rw [Config.N_FUNCTIONS] at hn; omega)⟩
    | succ n =>
      have hi : s.acc.idx.toNat < Config.N_FUNCTIONS := by omega
      have hcall := ScanPast.call hi v.cmds
      obtain ⟨t, hpast, hscan⟩ := ih hvs (n := n) (by rw [hcall.idx]; omega)
      rw [scanFrom_call hi hv, Nat.add_comm]
      exact ⟨t, hcall.trans hpast, hscan⟩

/-- A visitor that issues nothing and returns 0 at every call does what one without calls does. -/
theorem scanFrom_silent {calls : List VisitorCall} (hc : ∀ v ∈ calls, served v = true ∧ v.answer = some false)
    (hcmds : ∀ v ∈ calls, v.cmds = []) (s : State) : scanFrom s calls = .next (scanRest s) := by
  induction calls generalizing s with
  | nil => rfl
  | cons v vs ih =>
    obtain ⟨hv, hvs⟩ := List.forall_mem_cons.1 hc
    obtain ⟨hv0, hvs0⟩ := List.forall_mem_cons.1 hcmds
    by_cases hi : s.acc.idx.toNat < Config.N_FUNCTIONS
    · rw [scanFrom_call hi hv, ih hvs hvs0, hv0, scanRest_step hi]
      rfl
    · rw [scanFrom_end s _ hi, scanRest, if_neg hi]

/-- The whole scan of a visitor that issues nothing and returns 0 at every call. -/
theorem scanRest_startScan (s : State) :
    scanRest (startScan s) = { s with
      acc := { s.acc with bus := 255#8, dev := 31#5, fn := 7#3, reg := 0#8, idx := 65536#17, found := false }
      side := { envStep^[Config.N_FUNCTIONS] s.side with trace := (scanRest (startScan s)).side.trace } } := by
  refine State.ext_parts ?_ ?_ ?_ ?_ ?_
  · exact scanRest_acc (s := startScan s) (show 0 < Config.N_FUNCTIONS by decide)
  · rw [scanRest_frame]; rfl
  · rw [scanRest_frame]; rfl
  · rw [scanRest_side, envRun_eq_iterate]; rfl
  · rw [scanRest_frame]; rfl

/-! ### The obligations -/

/-- Settles O29: the calls before the hit take the scan past their triples, and the hit ends it. -/
theorem scanStopsAtTheFirstHit : Obligations.ScanStopsAtTheFirstHit := by
  intro s before hit after hs hb hserved hhit hlen
  obtain ⟨t, hpast, hscan⟩ := scanFrom_past (hit :: after) hb (startScan s) (show 0 + before.length ≤ 65536 by omega)
  have hidx : t.acc.idx.toNat = before.length := hpast.idx.trans (Nat.zero_add _)
  have hw : hit.cmds.all CfgAccess.wellFormed = true := (Bool.and_eq_true_iff.1 hserved).2
  rw [scanFrom_cons t hit after (hidx ▸ hlen) hw, hhit] at hscan
  obtain ⟨heng, hbinding, hinbox, -⟩ := scanFrom_next hscan (startScan_idx_le s)
  obtain ⟨hidxHit, -, fs, hfs, hvisitsHit⟩ := call_scan t hit.cmds
  obtain ⟨es, hes, hvisits⟩ := hpast.trace
  refine ⟨_, (whenIdle_ready hs _).trans hscan, rfl, hidxHit ▸ hidx, ?_, fun h0 => ?_, heng, hbinding, hinbox⟩
  · refine (congrArg visits (newEvents_of_append (s := s) (hfs.trans ?_))).trans (?_ : visits (es ++ fs) = _)
    · rw [hes, List.append_assoc]
      rfl
    · rw [visits_append, hvisits, hvisitsHit, hidx, List.range_succ, List.map_append, List.range_eq_range']
      rfl
  · rw [h0, ← hidx, ← idx_triple]
    rfl

/-- Settles O30: the scan goes past every triple, and a visitor that issues nothing does what one without calls does. -/
theorem scanVisitsEveryFunctionOnce : Obligations.ScanVisitsEveryFunctionOnce := by
  intro s visitor hs hv
  obtain ⟨t, hpast, hscan⟩ := scanFrom_toEnd hv (s := startScan s) (n := Config.N_FUNCTIONS) (Nat.zero_add _)
  obtain ⟨heng, hbinding, hinbox, -⟩ := scanFrom_next hscan (startScan_idx_le s)
  obtain ⟨es, hes, hvisits⟩ := hpast.trace
  refine ⟨t, (whenIdle_ready hs _).trans hscan, hpast.found, hpast.idx.trans (Nat.zero_add _), ?_, heng, hbinding, hinbox,
    fun h0 => ?_⟩
  · rw [newEvents_of_append (s := s) hes, hvisits, List.range_eq_range']
    rfl
  · have ht : scanRest (startScan s) = t := Host.Outcome.next.inj ((scanFrom_silent hv h0 _).symm.trans hscan)
    exact ht ▸ scanRest_startScan s

end Sys2Proof.Machine
end

section
/-! The SMBus engine as a relation between its registers and the record of steps (41_smbus_fsm.md sections 1 to 7).
`Transcript` says which steps a stretch of a pass records, and that they are all that the far side of the ports sees of
it; `PhaseEnd` lists, for each phase, the ways it can end, with the engine's registers after it and the steps it makes
(`enginePhase_cases`). Later proofs on a pass split `PhaseEnd` and unfold no phase. -/

namespace Sys2Proof.Machine

/-! ### Transcripts -/

/-- The far side x, put through the events of a record one after another, comes to y, each read getting the value
recorded. The engine makes no 32-bit access and calls no visitor. -/
def Plays (b : Binding) : PortSide → List Event → PortSide → Prop
  | x, [], y => y = x
  | x, .rd8 p v :: es, y => v = (x.read8 b p).1 ∧ Plays b (x.read8 b p).2 es y
  | x, .wr8 p v :: es, y => Plays b (x.write8 b p v) es y
  | x, .delay d :: es, y => Plays b ((envStep x).log (.delay d)) es y
  | x, .diag d :: es, y => Plays b (x.log (.diag d)) es y
  | _, .rd32 _ _ :: _, _ => False
  | _, .wr32 _ _ :: _, _ => False
  | _, .visit _ _ _ :: _, _ => False

theorem Plays.append {b : Binding} {x y z : PortSide} {es fs : List Event} (h : Plays b x es y) (k : Plays b y fs z) :
    Plays b x (es ++ fs) z := by
  induction es generalizing x with
  | nil => exact h ▸ k
  | cons e es ih =>
    cases e with
    | rd8 p v => exact ⟨h.1, ih h.2⟩
    | wr8 p v => exact ih h
    | delay d => exact ih h
    | diag d => exact ih h
    | rd32 p v => exact h
    | wr32 p v => exact h
    | visit _ _ _ => exact h

theorem Plays.trace {b : Binding} {x y : PortSide} {es : List Event} (h : Plays b x es y) :
    y.trace = x.trace ++ es := by
  induction es generalizing x with
  | nil => rw [h, List.append_nil]
  | cons e es ih =>
    cases e with
    | rd8 p v =>
      obtain ⟨hv, hes⟩ := h
      rw [ih hes, read8_trace, ← hv, List.append_assoc, List.singleton_append]
    | wr8 p v => rw [ih h, write8_trace, List.append_assoc, List.singleton_append]
    | delay d => rw [ih h, PortSide.log_trace, envStep_trace, List.append_assoc, List.singleton_append]
    | diag d => rw [ih h, PortSide.log_trace, List.append_assoc, List.singleton_append]
    | rd32 p v => exact h.elim
    | wr32 p v => exact h.elim
    | visit _ _ _ => exact h.elim

/-- The machine comes from s to t by the events es. -/
structure Transcript (s : State) (es : List Event) (t : State) : Prop where
  binding : t.binding = s.binding
  plays : Plays s.binding s.side es t.side

namespace Transcript

theorem newEvents {s t : State} {es : List Event} (h : Transcript s es t) : newEvents s t = es :=
  newEvents_of_append h.plays.trace

theorem trans {s t u : State} {es fs : List Event} (h : Transcript s es t) (k : Transcript t fs u) :
    Transcript s (es ++ fs) u :=
  ⟨k.binding.trans h.binding, h.plays.append (h.binding ▸ k.plays)⟩

theorem of_side {s t : State} (hb : t.binding = s.binding) (hx : t.side = s.side) : Transcript s [] t := ⟨hb, hx⟩

theorem refl (s : State) : Transcript s [] s := of_side rfl rfl

/-- A change of the engine's own registers. -/
theorem setEng {s t : State} {es : List Event} (h : Transcript s es t) (e : Engine) : Transcript s es (t.setEng e) :=
  ⟨h.binding, h.plays⟩

theorem goTo {s t : State} {es : List Event} (h : Transcript s es t) (p : Phase) : Transcript s es (goTo t p) :=
  h.setEng _

theorem endGroup {s t : State} {es : List Event} (h : Transcript s es t) : Transcript s es (endGroup t) := by
  unfold Machine.endGroup
  split <;> exact h.setEng _

theorem endPass {s t : State} {es : List Event} (h : Transcript s es t) : Transcript s es (endPass t) := by
  unfold Machine.endPass
  split <;> exact h.setEng _

theorem afterReg (s : State) (r : Reg) : Transcript s [.rd8 (s.binding.portOf r) (regVal s r)] (afterReg s r) :=
  ⟨rfl, rfl, rfl⟩

theorem wrReg (s : State) (r : Reg) (v : Byte) : Transcript s [.wr8 (s.binding.portOf r) v] (wrReg s r v) := ⟨rfl, rfl⟩

theorem delay (s : State) (d : DelayKind) : Transcript s [.delay d] (delay s d) := ⟨rfl, rfl⟩

/-- One more read, the port being that of the binding the stretch began with. -/
theorem thenRead {s t : State} {es : List Event} (h : Transcript s es t) (r : Reg) :
    Transcript s (es ++ [.rd8 (s.binding.portOf r) (regVal t r)]) (Machine.afterReg t r) := by
  rw [← h.binding]
  exact h.trans (.afterReg t r)

/-- One more write. -/
theorem thenWrite {s t : State} {es : List Event} (h : Transcript s es t) (r : Reg) (v : Byte) :
    Transcript s (es ++ [.wr8 (s.binding.portOf r) v]) (Machine.wrReg t r v) := by
  rw [← h.binding]
  exact h.trans (.wrReg t r v)

theorem raiseFail (s : State) (k : FailCode) : Transcript s (k.diag.map Event.diag).toList (raiseFail s k) := by
  cases k <;> exact ⟨rfl, rfl⟩

end Transcript

/-! ### The data window -/

/-- The record of reads of window bytes 0 to n - 1 that found the entries of a buffer from `first` on. -/
def windowReadEvents (b : Binding) (buf : Buffer) (first n : Nat) : List Event :=
  (List.range n).map fun k => .rd8 (b.portOf (winReg k)) (bufGet buf (first + k))

/-- The record of writes of window bytes 0 to n - 1 with the entries of a buffer from `first` on. -/
def windowWriteEvents (b : Binding) (buf : Buffer) (first n : Nat) : List Event :=
  (List.range n).map fun k => .wr8 (b.portOf (winReg k)) (bufGet buf (first + k))

theorem placeWindow_transcript (s : State) (first i n : Nat) :
    Transcript s ((List.range' i n).map fun k => .wr8 (s.binding.portOf (winReg k)) (bufGet s.eng.wbuf (first + k)))
      (placeWindow s first i n) := by
  induction n generalizing s i with
  | zero => exact .refl s
  | succ n ih => exact (Transcript.wrReg s (winReg i) _).trans (ih _ _)

theorem placeWindow_windowWrites (s : State) (first n : Nat) :
    Transcript s (windowWriteEvents s.binding s.eng.wbuf first n) (placeWindow s first 0 n) := by
  rw [windowWriteEvents, List.range_eq_range']
  exact placeWindow_transcript s first 0 n

theorem fetchOne_eng (s : State) (i : Nat) :
    (fetchOne s i).eng = { s.eng with rbuf := bufPut s.eng.rbuf (s.eng.got + i) (regVal s (winReg i)) } := rfl

/-- Fetching window bytes from i on leaves the entries below them alone. -/
theorem fetchWindow_below (s : State) (i n k : Nat) (hk : k < s.eng.got + i) :
    bufGet (fetchWindow s i n).eng.rbuf k = bufGet s.eng.rbuf k := by
  induction n generalizing s i with
  | zero => rfl
  | succ n ih =>
    rw [fetchWindow, ih _ _ (by rw [fetchOne_eng]; dsimp only; omega), fetchOne_eng, bufGet_bufPut, if_neg (by omega)]

/-- R166: the reads of a group are those whose values stand in `x[rbuf]` after it. -/
theorem fetchWindow_transcript (s : State) (i n : Nat) (h : s.eng.got + i + n ≤ 32) :
    Transcript s ((List.range' i n).map fun k =>
        .rd8 (s.binding.portOf (winReg k)) (bufGet (fetchWindow s i n).eng.rbuf (s.eng.got + k)))
      (fetchWindow s i n) := by
  induction n generalizing s i with
  | zero => exact .refl s
  | succ n ih =>
    have hfirst : bufGet (fetchWindow (fetchOne s i) (i + 1) n).eng.rbuf (s.eng.got + i) = regVal s (winReg i) := by
      rw [fetchWindow_below _ _ _ _ (by rw [fetchOne_eng]; dsimp only; omega), fetchOne_eng, bufGet_bufPut, if_pos rfl,
        if_pos (by omega)]
    rw [fetchWindow, List.range'_succ, List.map_cons, hfirst]
    exact ((Transcript.afterReg s (winReg i)).setEng _).trans
      (ih (fetchOne s i) (i + 1) (by rw [fetchOne_eng]; dsimp only; omega))

theorem fetchWindow_windowReads (s : State) (n : Nat) (h : s.eng.got + n ≤ 32) :
    Transcript s (windowReadEvents s.binding (fetchWindow s 0 n).eng.rbuf s.eng.got n) (fetchWindow s 0 n) := by
  rw [windowReadEvents, List.range_eq_range']
  exact fetchWindow_transcript s 0 n h

/-! ### BusyCheck, Recover, ClearFlags, ClearSticky -/

theorem busyCheck_transcript (s : State) :
    Transcript s [.rd8 (s.binding.portOf .cnt) (regVal s .cnt)] (busyCheck s) := (Transcript.afterReg s .cnt).setEng _

/-- R152, R153: what the record shows before a re-check, `retry` of which have been made. -/
def beforeRecheckEvents (b : Binding) (retry : Nat) : List Event :=
  if retry = 0 then [.wr8 (b.portOf .hostcnt) (killByte b.params), .delay .kill] else [.delay .recheck]

theorem beforeRecheck_transcript (s : State) :
    Transcript s (beforeRecheckEvents s.binding s.eng.retry) (beforeRecheck s) := by
  unfold beforeRecheck beforeRecheckEvents
  split
  · exact (Transcript.wrReg ..).trans (.delay ..)
  · exact .delay ..

/-- How a re-check ends that reads c, in the engine e (R153, R154): the host is free, or there is another try, or the
tries are spent. The engine's registers after it, and what it records after the read. -/
inductive RecheckEnd (b : Binding) (e : Engine) (c : Byte) : Engine → List Event → Prop
  | free (hb : isBusy b.params c = false) :
      RecheckEnd b e c { e with c := c, retry := e.retry + 1, st := .clearFlags } []
  | again (hb : isBusy b.params c = true) (hr : e.retry + 1 ≠ 10) :
      RecheckEnd b e c { e with c := c, retry := e.retry + 1 } []
  | spent (hb : isBusy b.params c = true) (hr : e.retry + 1 = 10) :
      RecheckEnd b e c { e with c := c, retry := e.retry + 1, fail := .busContention, st := .clearSticky }
        [.diag .hostOrSlaveBusy]

theorem recover_cases (s : State) :
    ∃ fs, Transcript s (beforeRecheckEvents s.binding s.eng.retry ++
        .rd8 (s.binding.portOf .cnt) (regVal (beforeRecheck s) .cnt) :: fs) (recover s) ∧
      RecheckEnd s.binding s.eng (regVal (beforeRecheck s) .cnt) (recover s).eng fs := by
  have hread : Transcript s (beforeRecheckEvents s.binding s.eng.retry ++
      [.rd8 (s.binding.portOf .cnt) (regVal (beforeRecheck s) .cnt)]) (countRecheck (beforeRecheck s)) :=
    ((beforeRecheck_transcript s).thenRead .cnt).setEng _
  have heng : (countRecheck (beforeRecheck s)).eng =
      { s.eng with c := regVal (beforeRecheck s) .cnt, retry := s.eng.retry + 1 } := by
    simp [countRecheck, readControl]
  rw [recover, recheck_eq, beforeRecheck_eng, beforeRecheck_binding]
  generalize countRecheck (beforeRecheck s) = u at hread heng ⊢
  generalize regVal (beforeRecheck s) .cnt = c at hread heng ⊢
  cases hb : isBusy s.binding.params c with
  | false => exact ⟨[], hread.goTo _, by simpa [heng] using RecheckEnd.free (e := s.eng) hb⟩
  | true =>
    by_cases hr : s.eng.retry + 1 = 10
    · simp only [retrySpent, Config.N_BUSY_RETRY, hr, decide_true, if_true]
      refine ⟨[.diag .hostOrSlaveBusy], ?_, by simpa [heng, hr] using RecheckEnd.spent (e := s.eng) hb hr⟩
      simpa [FailCode.diag] using hread.trans (.raiseFail u .busContention)
    · simp only [retrySpent, Config.N_BUSY_RETRY, hr, decide_false, if_true, Bool.false_eq_true, if_false]
      exact ⟨[], hread, by simpa [heng] using RecheckEnd.again (e := s.eng) hb hr⟩

theorem clearFlags_transcript (s : State) :
    Transcript s (clearFlagsEvents s.binding (regVal s .cnt)) (clearFlags s) :=
  ((((Transcript.afterReg s .cnt).setEng _).trans (.wrReg ..)).trans (.wrReg ..)).goTo _

theorem clearSticky_transcript (s : State) :
    Transcript s [.wr8 (s.binding.portOf .sts) Config.STS_CLEAR_ALL] (clearSticky s) :=
  (Transcript.wrReg ..).endPass

/-! ### StartTransfer -/

/-- R158: the writes of the operation's row of the table. -/
def operandEvents (b : Binding) (e : Engine) : List Event :=
  match e.type, e.rw with
  | .quick, _ => []
  | .byte, .read => []
  | .byte, .write => [.wr8 (b.portOf .cmd) (bufGet e.wbuf 0)]
  | .byteData, .read => [.wr8 (b.portOf .cmd) e.cmd]
  | .byteData, .write => [.wr8 (b.portOf .cmd) e.cmd, .wr8 (b.portOf (winReg 0)) (bufGet e.wbuf 0)]
  | .blockData, .read => [.wr8 (b.portOf .cmd) e.cmd]
  | .blockData, .write =>
    [.wr8 (b.portOf .cmd) e.cmd, .wr8 (b.portOf .count) (countByte e.wlen)] ++
      windowWriteEvents b e.wbuf 0 (min e.wlen Config.WINDOW)

/-- R157 to R159: the writes of StartTransfer. -/
def startEvents (b : Binding) (e : Engine) : List Event :=
  .wr8 (b.portOf .addr) (addrByte e.sa e.rw) ::
    (operandEvents b e ++ [.wr8 (b.portOf .hostcnt) (startByte b.params e.type)])

theorem programOperands_transcript (s : State) :
    Transcript s (operandEvents s.binding s.eng) (programOperands s) := by
  unfold programOperands operandEvents
  cases ht : s.eng.type <;> cases hr : s.eng.rw
  case byte.write => exact .wrReg ..
  case byteData.read => exact .wrReg ..
  case byteData.write => exact (Transcript.wrReg ..).trans (.wrReg ..)
  case blockData.read => exact .wrReg ..
  case blockData.write => exact (((Transcript.wrReg ..).trans (.wrReg ..)).trans (placeWindow_windowWrites ..)).setEng _
  all_goals exact .refl s

theorem startTransfer_transcript (s : State) :
    Transcript s (startEvents s.binding s.eng) (startTransfer s) := by
  have ht : ∀ t : State, (programOperands t).eng.type = t.eng.type := fun t => by rw [programOperands_eng]
  rw [startTransfer, programOperands_binding, ht]
  exact (((Transcript.wrReg ..).trans (programOperands_transcript _)).thenWrite .hostcnt _).setEng _

/-! ### PollComplete -/

/-- R164: where a completed poll leads. -/
def Engine.afterCompletion (e : Engine) : Phase :=
  match e.type, e.rw with
  | .blockData, .read => .blockReadLoop
  | .blockData, .write => if e.got < e.wlen then .blockWriteLoop else .clearSticky
  | .quick, _ => .clearSticky
  | .byte, _ => .clearSticky
  | .byteData, _ => .clearSticky

/-- R164: a transfer with one byte to fetch on completion. -/
def Engine.fetchesByte (e : Engine) : Prop := (e.type = .byte ∨ e.type = .byteData) ∧ e.rw = .read

/-- How a poll ends that reads v, in the engine e (R161 to R164, R229). The engine's registers after it, and what it
records after the read. -/
inductive PollEnd (b : Binding) (e : Engine) (v : Byte) : Engine → List Event → Prop
  | error (he : isError b.params v = true) :
      PollEnd b e v { e with s := v, poll := e.poll + 1, fail := .transferFailure, st := .clearSticky }
        [.diag .transferFailed]
  | fetched (he : isError b.params v = false) (hc : isComplete b.params e.type v = true) (hf : e.fetchesByte)
      (w : Byte) :
      PollEnd b e v
        { e with s := v, poll := e.poll + 1, rbuf := bufPut e.rbuf 0 w, rlen := 1, st := .clearSticky }
        [.rd8 (b.portOf (winReg 0)) w]
  | complete (he : isError b.params v = false) (hc : isComplete b.params e.type v = true) (hf : ¬e.fetchesByte) :
      PollEnd b e v { e with s := v, poll := e.poll + 1, st := e.afterCompletion } []
  | timeout (he : isError b.params v = false) (hc : isComplete b.params e.type v = false) (hp : e.poll + 1 = 40) :
      PollEnd b e v { e with s := v, poll := e.poll + 1, fail := .transferTimeout, st := .clearSticky }
        [.diag .transferTimeout]
  | pending (he : isError b.params v = false) (hc : isComplete b.params e.type v = false) (hp : e.poll + 1 ≠ 40) :
      PollEnd b e v { e with s := v, poll := e.poll + 1 } []

theorem afterPoll_fetches {s : State} (h : s.eng.fetchesByte) : afterPoll s = fetchByte s := by
  obtain ⟨ht | ht, hr⟩ := h <;> rw [afterPoll, ht, hr]

theorem afterPoll_goTo {s : State} (h : ¬s.eng.fetchesByte) : afterPoll s = goTo s s.eng.afterCompletion := by
  unfold afterPoll Engine.afterCompletion
  cases ht : s.eng.type <;> cases hr : s.eng.rw
  case byte.read => exact absurd ⟨.inl ht, hr⟩ h
  case byteData.read => exact absurd ⟨.inr ht, hr⟩ h
  case blockData.write => simp [moreGroups]
  all_goals rfl

theorem pollComplete_cases (s : State) :
    ∃ fs, Transcript s (.delay .poll :: .rd8 (s.binding.portOf .sts) (regVal (delay s .poll) .sts) :: fs)
        (pollComplete s) ∧
      PollEnd s.binding s.eng (regVal (delay s .poll) .sts) (pollComplete s).eng fs := by
  have hread : Transcript s [.delay .poll, .rd8 (s.binding.portOf .sts) (regVal (delay s .poll) .sts)]
      (readStatus (delay s .poll)) := ((Transcript.delay s .poll).trans (.afterReg _ .sts)).setEng _
  have heng : (readStatus (delay s .poll)).eng =
      { s.eng with s := regVal (delay s .poll) .sts, poll := s.eng.poll + 1 } := rfl
  rw [pollComplete, judgeStatus]
  generalize readStatus (delay s .poll) = u at hread heng ⊢
  generalize regVal (delay s .poll) .sts = v at hread heng ⊢
  have hfetch : u.eng.fetchesByte ↔ s.eng.fetchesByte := heng ▸ Iff.rfl
  rw [hread.binding, heng]
  dsimp only
  cases he : isError s.binding.params v with
  | true =>
    exact ⟨_, hread.trans (.raiseFail u .transferFailure), by simpa [heng, FailCode.diag] using PollEnd.error he⟩
  | false =>
  cases hc : isComplete s.binding.params s.eng.type v with
  | true =>
    by_cases hf : u.eng.fetchesByte
    · rw [if_neg Bool.false_ne_true, if_pos rfl, afterPoll_fetches hf]
      exact ⟨_, (hread.thenRead (winReg 0)).setEng _,
        by simpa [fetchByte, heng] using PollEnd.fetched he hc (hfetch.1 hf) _⟩
    · rw [if_neg Bool.false_ne_true, if_pos rfl, afterPoll_goTo hf, goTo_eng, heng]
      exact ⟨[], hread.goTo _, .complete he hc (mt hfetch.2 hf)⟩
  | false =>
    by_cases hp : s.eng.poll + 1 = 40
    · simp only [pollSpent, Config.N_POLL, hp, decide_true, if_true, Bool.false_eq_true, if_false]
      exact ⟨_, hread.trans (.raiseFail u .transferTimeout),
        by simpa [heng, hp, FailCode.diag] using PollEnd.timeout he hc hp⟩
    · simp only [pollSpent, Config.N_POLL, hp, decide_false, Bool.false_eq_true, if_false]
      exact ⟨[], hread, by simpa [heng] using PollEnd.pending he hc hp⟩

/-! ### The block loops -/

/-- How a stay in BlockReadLoop ends in the engine e, its count read (R165 to R167): an empty block, a group with more
to come, or the last group. The engine's registers after it, and what it records after the count. -/
inductive GroupEnd (b : Binding) (e : Engine) : Engine → List Event → Prop
  | empty (hc : e.cnt = 0) : GroupEnd b e { e with rlen := 0, st := .clearSticky } []
  | more (buf : Buffer) (n : Nat) (hc : e.cnt ≠ 0) (hn : n = groupSize e.cnt e.got)
      (hbuf : ∀ k < e.got, bufGet buf k = bufGet e.rbuf k) (hm : e.got + n < e.cnt) :
      GroupEnd b e { e with rbuf := buf, got := e.got + n, poll := 0, st := .pollComplete }
        (windowReadEvents b buf e.got n ++ [.wr8 (b.portOf .sts) b.params.stsBlockFin])
  | last (buf : Buffer) (n : Nat) (hc : e.cnt ≠ 0) (hn : n = groupSize e.cnt e.got)
      (hbuf : ∀ k < e.got, bufGet buf k = bufGet e.rbuf k) (hm : e.cnt ≤ e.got + n) :
      GroupEnd b e { e with rbuf := buf, got := e.got + n, rlen := e.cnt, st := .clearSticky }
        (windowReadEvents b buf e.got n ++ [.wr8 (b.portOf .sts) b.params.stsBlockFin])

/-- R165: the read of the byte count, on the first entry of a pass. -/
def countEvents (b : Binding) (e : Engine) (n : Byte) : List Event :=
  if e.got = 0 then [.rd8 (b.portOf .count) n] else []

theorem readCount_transcript (s : State) :
    Transcript s (countEvents s.binding s.eng (regVal s .count)) (readCount s) := by
  unfold readCount countEvents
  split
  · exact (Transcript.afterReg ..).setEng _
  · exact .refl s

theorem fetchGroup_cases {s : State} (hc : s.eng.cnt ≠ 0) (hcnt : s.eng.cnt ≤ 32) (hgot : s.eng.got ≤ 32) :
    ∃ fs, Transcript s fs (fetchGroup s) ∧ GroupEnd s.binding s.eng (fetchGroup s).eng fs := by
  generalize hn : groupSize s.eng.cnt s.eng.got = n
  have hwindow := fetchWindow_windowReads s n (hn ▸ add_groupSize_le hcnt hgot)
  have hbuf := fun k hk => fetchWindow_below s 0 n k hk
  have hmove : Transcript s (windowReadEvents s.binding (fetchWindow s 0 n).eng.rbuf s.eng.got n ++
      [.wr8 (s.binding.portOf .sts) s.binding.params.stsBlockFin]) (fetchGroup s) := by
    rw [fetchGroup, hn, setGot_binding, fetchWindow_binding]
    exact ((hwindow.setEng _).thenWrite .sts _).endGroup
  refine ⟨_, hmove, ?_⟩
  rw [fetchGroup_eng, hn]
  dsimp only
  cases hm : moreGroups (s.eng.got + n) s.eng.cnt with
  | true => exact .more _ n hc hn.symm hbuf (of_decide_eq_true hm)
  | false => exact .last _ n hc hn.symm hbuf (Nat.le_of_not_lt (of_decide_eq_false hm))

theorem blockReadLoop_cases {s : State} (hcnt : s.eng.cnt ≤ 32) (hgot : s.eng.got ≤ 32) :
    ∃ fs, Transcript s (countEvents s.binding s.eng (regVal s .count) ++ fs) (blockReadLoop s) ∧
      GroupEnd s.binding { s.eng with cnt := if s.eng.got = 0 then capCount (regVal s .count) else s.eng.cnt }
        (blockReadLoop s).eng fs := by
  have hcount := readCount_transcript s
  have heng := readCount_eng s
  have hle : (readCount s).eng.cnt ≤ 32 := by
    rw [heng]
    dsimp only
    split
    · exact Nat.min_le_right ..
    · exact hcnt
  rw [← heng, blockReadLoop]
  by_cases hc : (readCount s).eng.cnt = 0
  · rw [if_pos hc]
    exact ⟨[], hcount.trans (.of_side rfl rfl), .empty hc⟩
  · obtain ⟨fs, hgroup, hend⟩ := fetchGroup_cases hc hle (by rw [heng]; exact hgot)
    rw [if_neg hc]
    exact ⟨fs, hcount.trans hgroup, readCount_binding s ▸ hend⟩

theorem blockWriteLoop_transcript (s : State) :
    Transcript s (windowWriteEvents s.binding s.eng.wbuf s.eng.got (groupSize s.eng.wlen s.eng.got) ++
      [.wr8 (s.binding.portOf .sts) s.binding.params.stsBlockFin]) (blockWriteLoop s) := by
  rw [blockWriteLoop, setGot_binding, placeWindow_binding]
  exact (((placeWindow_windowWrites s _ _).setEng _).thenWrite .sts _).setEng _

/-! ### The phase that runs -/

section
variable {s : State}

theorem enginePhase_busyCheck (h : s.eng.st = .busyCheck) : enginePhase s = busyCheck s := by rw [enginePhase, h]

theorem enginePhase_recover (h : s.eng.st = .recover) : enginePhase s = recover s := by rw [enginePhase, h]

theorem enginePhase_clearFlags (h : s.eng.st = .clearFlags) : enginePhase s = clearFlags s := by rw [enginePhase, h]

theorem enginePhase_startTransfer (h : s.eng.st = .startTransfer) : enginePhase s = startTransfer s := by
  rw [enginePhase, h]

theorem enginePhase_pollComplete (h : s.eng.st = .pollComplete) : enginePhase s = pollComplete s := by
  rw [enginePhase, h]

theorem enginePhase_blockReadLoop (h : s.eng.st = .blockReadLoop) : enginePhase s = blockReadLoop s := by
  rw [enginePhase, h]

theorem enginePhase_clearSticky (h : s.eng.st = .clearSticky) : enginePhase s = clearSticky s := by rw [enginePhase, h]

theorem enginePhase_blockWriteLoop (h : s.eng.st = .blockWriteLoop) : enginePhase s = blockWriteLoop s := by
  rw [enginePhase, h]

theorem enginePhase_accepting (h : s.eng.st.accepting = true) : enginePhase s = s := by
  unfold enginePhase
  cases hs : s.eng.st <;> simp [hs, Phase.accepting] at h ⊢

end

/-- The ways a phase of a pass can end, from the engine e: its registers after the phase, and the steps it makes. The
bytes read are the environment's. -/
inductive PhaseEnd (b : Binding) (e : Engine) : Engine → List Event → Prop
  | busyCheck (hs : e.st = .busyCheck) (c : Byte) :
      PhaseEnd b e { e with c := c, st := if isBusy b.params c then .recover else .clearFlags }
        [.rd8 (b.portOf .cnt) c]
  | recover (hs : e.st = .recover) (c : Byte) {f : Engine} {fs : List Event} (h : RecheckEnd b e c f fs) :
      PhaseEnd b e f (beforeRecheckEvents b e.retry ++ .rd8 (b.portOf .cnt) c :: fs)
  | clearFlags (hs : e.st = .clearFlags) (c : Byte) :
      PhaseEnd b e { e with c := c, st := .startTransfer } (clearFlagsEvents b c)
  | startTransfer (hs : e.st = .startTransfer) :
      PhaseEnd b e { e with
        got := if e.type = .blockData ∧ e.rw = .write then min e.wlen Config.WINDOW else e.got
        poll := 0
        st := .pollComplete } (startEvents b e)
  | pollComplete (hs : e.st = .pollComplete) (v : Byte) {f : Engine} {fs : List Event} (h : PollEnd b e v f fs) :
      PhaseEnd b e f (.delay .poll :: .rd8 (b.portOf .sts) v :: fs)
  | blockReadLoop (hs : e.st = .blockReadLoop) (n : Byte) {f : Engine} {fs : List Event}
      (h : GroupEnd b { e with cnt := if e.got = 0 then capCount n else e.cnt } f fs) :
      PhaseEnd b e f (countEvents b e n ++ fs)
  | blockWriteLoop (hs : e.st = .blockWriteLoop) :
      PhaseEnd b e { e with got := e.got + groupSize e.wlen e.got, poll := 0, st := .pollComplete }
        (windowWriteEvents b e.wbuf e.got (groupSize e.wlen e.got) ++ [.wr8 (b.portOf .sts) b.params.stsBlockFin])
  | clearSticky (hs : e.st = .clearSticky) :
      PhaseEnd b e { e with
        ok := decide (e.fail = .noFailure)
        rlen := if e.fail = .noFailure then e.rlen else 0
        st := if e.fail = .noFailure then .done else .failed } [.wr8 (b.portOf .sts) Config.STS_CLEAR_ALL]

/-- What a phase of a pass can do. -/
theorem enginePhase_cases {s : State} (hcnt : s.eng.cnt ≤ 32) (hgot : s.eng.got ≤ 32)
    (hs : s.eng.st.accepting = false) :
    ∃ fs, Transcript s fs (enginePhase s) ∧ PhaseEnd s.binding s.eng (enginePhase s).eng fs := by
  cases hst : s.eng.st <;> simp only [hst, Phase.accepting, reduceCtorEq] at hs
  case busyCheck =>
    rw [enginePhase_busyCheck hst, busyCheck_eng]
    exact ⟨_, busyCheck_transcript s, .busyCheck hst _⟩
  case recover =>
    obtain ⟨fs, htrans, hend⟩ := recover_cases s
    rw [enginePhase_recover hst]
    exact ⟨_, htrans, .recover hst _ hend⟩
  case clearFlags =>
    rw [enginePhase_clearFlags hst, clearFlags_eng]
    exact ⟨_, clearFlags_transcript s, .clearFlags hst _⟩
  case startTransfer =>
    rw [enginePhase_startTransfer hst, startTransfer_eng]
    exact ⟨_, startTransfer_transcript s, .startTransfer hst⟩
  case pollComplete =>
    obtain ⟨fs, htrans, hend⟩ := pollComplete_cases s
    rw [enginePhase_pollComplete hst]
    exact ⟨_, htrans, .pollComplete hst _ hend⟩
  case blockReadLoop =>
    obtain ⟨fs, htrans, hend⟩ := blockReadLoop_cases hcnt hgot
    rw [enginePhase_blockReadLoop hst]
    exact ⟨_, htrans, .blockReadLoop hst _ hend⟩
  case clearSticky =>
    rw [enginePhase_clearSticky hst, clearSticky_eng]
    exact ⟨_, clearSticky_transcript s, .clearSticky hst⟩
  case blockWriteLoop =>
    rw [enginePhase_blockWriteLoop hst, blockWriteLoop_eng]
    exact ⟨_, blockWriteLoop_transcript s, .blockWriteLoop hst⟩

end Sys2Proof.Machine
end

section
/-! The transitions of the SMBus state machine (41_smbus_fsm.md R150 to R159, R171). -/

namespace Sys2Proof.Machine

/-- No instruction but the eight SMBus ones changes the engine. -/
theorem exec_eng {i : Instr} {s t : State} (hi : smbOperands i = none) (h : exec i s = .next t) : t.eng = s.eng := by
  obtain ⟨a, -, -, hw, rfl⟩ | ⟨v, -, -, hscan⟩ | ⟨ty, rw, sa, cmd, data, ho, -⟩ := exec_next h
  · exact (CfgMove.runAccess s hw).eng
  · exact (scanFrom_next hscan (startScan_idx_le s)).1
  · cases hi.symm.trans ho

/-- An accepted SMBus instruction runs its pass. -/
theorem exec_smb_ready {i : Instr} {s : State} {ty : Xfer} {rw : Dir} {sa : BitVec 7} {cmd : Byte} {data : List Byte}
    (ho : smbOperands i = some (ty, rw, sa, cmd, data)) (hw : i.wellFormed = true) (hs : SmbReady s) :
    exec i s = .next (runPass (latchSmb s ty rw sa cmd data)) :=
  (exec_smb ho hw s).trans (smbOperation_next.2 ⟨hs, rfl⟩)

theorem isComplete_iff {p : Params} {t : Xfer} {v : Byte} :
    isComplete p t v = true ↔ isDone p v = true ∨ (t = .blockData ∧ isBlockFin p v = true) := by
  simp [isComplete]

/-- R158: the window bytes of a block write, in the statement's words. -/
theorem windowWriteEvents_window (b : Binding) (buf : Buffer) (n : Nat) :
    windowWriteEvents b buf 0 (min n Config.WINDOW) = (List.finRange 8).filterMap fun i =>
      if i.val < n then some (.wr8 (b.portOf (.byte i)) buf[i.val]) else none := by
  obtain h | h := Nat.lt_or_ge n 8
  · interval_cases n <;> rfl
  · have hall : ∀ i : Fin 8, i.val < n := fun i => i.isLt.trans_le h
    rw [Config.WINDOW, Nat.min_eq_right h]
    simp only [hall, if_true, List.filterMap_eq_map']
    rfl

/-! ### The obligations -/

/-- Settles O34, by the transcript of BusyCheck, one read. -/
theorem busyCheckReadsTheControlRegister : Obligations.BusyCheckReadsTheControlRegister := by
  intro s t
  refine ⟨(busyCheck_transcript s).newEvents, ?_, rfl, rfl, rfl⟩
  simp only [t, busyCheck_eng, isBusy, ne_eq, decide_not, Bool.not_eq_true', decide_eq_false_iff_not, ite_not]

/-- Settles O35: the transcript of StartTransfer is `startEvents`, row by row. -/
theorem startTransferWrites : Obligations.StartTransferWrites := by
  intro s port e
  refine ⟨?_, by rw [startTransfer_eng], by rw [startTransfer_eng]⟩
  rw [(startTransfer_transcript s).newEvents, startEvents, operandEvents, windowWriteEvents_window]
  show _ :: (_ ++ [Event.wr8 _ (s.binding.params.hcStart ||| typeCode s.binding.params e.type)]) = _
  cases e.type <;> cases e.rw <;> rfl

/-- Settles O10: only an SMBus command changes the engine, and the bind step is refused once a base is bound. -/
theorem aResultIsHeldUntilTheNextSmbusCommand : Obligations.AResultIsHeldUntilTheNextSmbusCommand := by
  intro s hst hb
  have hs : CfgReady s := by
    unfold CfgReady
    obtain h | h := hst <;> rw [h] <;> rfl
  refine ⟨nothingHappensWithoutACommand s hs, fun t h => ?_⟩
  obtain ⟨-, -, rfl⟩ | ⟨b, rest, -, -, hu, -⟩ | ⟨c, rest, i, -, hi, hd, hx⟩ | ⟨hactive, -⟩ := step_cases h
  · exact .inl rfl
  · cases hu.symm.trans hb
  · cases ho : smbOperands i with
    | none => exact .inl (exec_eng ho hx :)
    | some o => exact .inr ⟨c, rest, i, hi, hd, by rw [ho]; rfl⟩
  · cases hactive.symm.trans hs

/-- Settles O33: a phase by the ways it can end, and an instruction by its kind. -/
theorem engineTransitions : Obligations.EngineTransitions := by
  refine ⟨fun s => ?_, fun s hs hc => ?_, fun i s ty rw sa cmd data ho hw hs => ⟨exec_smb_ready ho hw hs, rfl⟩,
    fun i s t hi h => exec_eng hi h⟩
  · dsimp only
    split
    next hst => exact enginePhase_accepting (by rw [hst]; rfl)
    next hst => exact enginePhase_accepting (by rw [hst]; rfl)
    next hst => exact enginePhase_accepting (by rw [hst]; rfl)
    next hst => rw [enginePhase_busyCheck hst, busyCheck_eng]
    next hst =>
      obtain ⟨fs, -, h⟩ := recover_cases s
      rw [enginePhase_recover hst]
      generalize (recover s).eng = e at h ⊢
      cases h with
      | free hb => simp [hb]
      | again hb hr => simp [hb, hr, hst]
      | spent hb hr => simp [hb, hr]
    next hst => rw [enginePhase_clearFlags hst, clearFlags_eng]
    next hst =>
      rw [enginePhase_startTransfer hst, startTransfer_eng]
      exact ⟨rfl, rfl⟩
    next hst =>
      obtain ⟨fs, -, h⟩ := pollComplete_cases s
      rw [enginePhase_pollComplete hst]
      simp only [← isComplete_iff]
      generalize (pollComplete s).eng = e at h ⊢
      cases h with
      | error he => simp [he]
      | fetched he hc hf w =>
        simp only [he, hc, Bool.false_eq_true, if_false, if_true, true_and]
        obtain ⟨ht | ht, hr⟩ := hf <;> rw [ht]
      | complete he hc hf =>
        simp only [he, hc, Bool.false_eq_true, if_false, if_true, true_and, Engine.afterCompletion]
        cases s.eng.type <;> cases s.eng.rw <;> rfl
      | timeout he hc hp => simp [he, hc, hp]
      | pending he hc hp => simp [he, hc, hp, hst]
    next hst =>
      rw [enginePhase_blockReadLoop hst, blockReadLoop_eng]
      split
      next hc => simp [hc]
      next hc =>
        rw [fetchGroup_eng]
        simp [moreGroups]
    next hst => rw [enginePhase_blockWriteLoop hst, blockWriteLoop_eng]
    next hst => rw [enginePhase_clearSticky hst, clearSticky_eng]
  · rw [step, if_neg (by simp [hs]), if_pos hc]

end Sys2Proof.Machine
end

section
/-! Induction over a pass (41_smbus_fsm.md R150, R172, R173). `pass_invariant` packages it once: a relation between the
record so far, the far side of the ports and the engine's registers that holds as the command is accepted, and that
every `PhaseEnd` keeps, holds at the end. Here it gives the end of a pass, its result and its diagnostics. -/

namespace Sys2Proof.Machine

/-! ### The induction -/

/-- The operand latches of the engine (R27), which no phase changes. -/
structure Engine.SameOperands (e f : Engine) : Prop where
  type : f.type = e.type
  rw : f.rw = e.rw
  sa : f.sa = e.sa
  cmd : f.cmd = e.cmd
  wlen : f.wlen = e.wlen
  wbuf : f.wbuf = e.wbuf

theorem Engine.SameOperands.trans {e f g : Engine} (h : e.SameOperands f) (k : f.SameOperands g) :
    e.SameOperands g :=
  ⟨k.type.trans h.type, k.rw.trans h.rw, k.sa.trans h.sa, k.cmd.trans h.cmd, k.wlen.trans h.wlen,
    k.wbuf.trans h.wbuf⟩

theorem PhaseEnd.sameOperands {b : Binding} {e f : Engine} {fs : List Event} (h : PhaseEnd b e f fs) :
    e.SameOperands f := by
  cases h with
  | recover hs c h => cases h <;> exact ⟨rfl, rfl, rfl, rfl, rfl, rfl⟩
  | pollComplete hs v h => cases h <;> exact ⟨rfl, rfl, rfl, rfl, rfl, rfl⟩
  | blockReadLoop hs n h => cases h <;> exact ⟨rfl, rfl, rfl, rfl, rfl, rfl⟩
  | _ => exact ⟨rfl, rfl, rfl, rfl, rfl, rfl⟩

/-- R164: a completed poll leads to a block loop or to ClearSticky. -/
theorem Engine.afterCompletion_cases (e : Engine) :
    e.afterCompletion = .blockReadLoop ∨ e.afterCompletion = .blockWriteLoop ∨ e.afterCompletion = .clearSticky := by
  unfold Engine.afterCompletion
  cases e.type <;> cases e.rw
  case blockData.write => by_cases hg : e.got < e.wlen <;> simp [hg]
  all_goals simp

/-- A phase of a pass begins in a state of a pass. -/
theorem PhaseEnd.running {b : Binding} {e f : Engine} {fs : List Event} (h : PhaseEnd b e f fs) :
    e.st.accepting = false := by
  cases h with
  | _ hs => rw [hs]; rfl

/-- R150, R170: ClearSticky, and it alone, ends the pass, in Done or Failed. -/
theorem PhaseEnd.st_cases {b : Binding} {e f : Engine} {fs : List Event} (h : PhaseEnd b e f fs) :
    (e.st = .clearSticky ∧ fs = [.wr8 (b.portOf .sts) Config.STS_CLEAR_ALL] ∧ (f.st = .done ∨ f.st = .failed)) ∨
      (e.st ≠ .clearSticky ∧ f.st.accepting = false) := by
  cases h with
  | busyCheck hs c => exact .inr ⟨by simp [hs], by dsimp only; split <;> rfl⟩
  | recover hs c h =>
    refine .inr ⟨by simp [hs], ?_⟩
    cases h with
    | again hb hr => exact hs ▸ rfl
    | _ => rfl
  | clearFlags hs c => exact .inr ⟨by simp [hs], rfl⟩
  | startTransfer hs => exact .inr ⟨by simp [hs], rfl⟩
  | pollComplete hs v h =>
    refine .inr ⟨by simp [hs], ?_⟩
    cases h with
    | complete he hc hf => obtain hst | hst | hst := e.afterCompletion_cases <;> exact hst ▸ rfl
    | pending he hc hp => exact hs ▸ rfl
    | _ => rfl
  | blockReadLoop hs n h => exact .inr ⟨by simp [hs], by cases h <;> rfl⟩
  | blockWriteLoop hs => exact .inr ⟨by simp [hs], rfl⟩
  | clearSticky hs => exact .inl ⟨hs, rfl, by dsimp only; split <;> simp⟩

/-- What holds of the engine all along a pass that began with the registers e₀. -/
structure Engine.Underway (e₀ e : Engine) : Prop where
  operands : e₀.SameOperands e
  onPass : e.OnPass
  inv : e.Inv
  groupLeft : e.GroupLeft
  begun : e.st ≠ .idle

/-- A relation between the record of a pass so far, the far side of the ports and the engine that every phase keeps. -/
def KeptByPhases (b : Binding) (e₀ : Engine) (J : List Event → PortSide → Engine → Prop) : Prop :=
  ∀ ⦃es : List Event⦄ ⦃x : PortSide⦄ ⦃e : Engine⦄ ⦃fs : List Event⦄ ⦃y : PortSide⦄ ⦃f : Engine⦄,
    e₀.Underway e → J es x e → PhaseEnd b e f fs → Plays b x fs y → J (es ++ fs) y f

theorem Engine.Underway.phaseEnd {e₀ : Engine} {s : State} (h : e₀.Underway s.eng) (hs : s.eng.st.accepting = false) :
    ∃ fs, Transcript s fs (enginePhase s) ∧ PhaseEnd s.binding s.eng (enginePhase s).eng fs ∧
      e₀.Underway (enginePhase s).eng := by
  obtain ⟨fs, htrans, hend⟩ := enginePhase_cases h.onPass.cnt h.inv.got_le hs
  refine ⟨fs, htrans, hend, h.operands.trans hend.sameOperands, (enginePhase_lowers s h.onPass hs).1,
    enginePhase_inv h.inv, enginePhase_groupLeft h.onPass h.groupLeft, ?_⟩
  obtain ⟨-, -, hst | hst⟩ | ⟨-, hst⟩ := hend.st_cases
  · simp [hst]
  · simp [hst]
  · exact (Phase.ne_of_not_accepting hst).1

theorem runEngine_invariant {b : Binding} {e₀ : Engine} {J : List Event → PortSide → Engine → Prop}
    (hJ : KeptByPhases b e₀ J) (n : Nat) {s : State} {es : List Event} (hb : s.binding = b) (hs : e₀.Underway s.eng)
    (h : J es s.side s.eng) :
    e₀.Underway (runEngine n s).eng ∧
      ∃ fs, Transcript s fs (runEngine n s) ∧ J (es ++ fs) (runEngine n s).side (runEngine n s).eng := by
  induction n generalizing s es with
  | zero => exact ⟨hs, [], .refl s, by rwa [List.append_nil]⟩
  | succ n ih =>
    rw [runEngine]
    split
    · exact ⟨hs, [], .refl s, by rwa [List.append_nil]⟩
    next ha =>
      obtain ⟨fs, htrans, hend, hnext⟩ := hs.phaseEnd (by simpa using ha)
      obtain ⟨hrun, gs, htrans', h'⟩ := ih (htrans.binding.trans hb) hnext (hJ hs h (hb ▸ hend) (hb ▸ htrans.plays))
      exact ⟨hrun, fs ++ gs, htrans.trans htrans', by rwa [List.append_assoc] at h'⟩

theorem underway_latch (s : State) (ty : Xfer) (rw : Dir) (sa : BitVec 7) (cmd : Byte) {data : List Byte}
    (h : data.length ≤ 32) : (latchSmb s ty rw sa cmd data).eng.Underway (latchSmb s ty rw sa cmd data).eng :=
  ⟨⟨rfl, rfl, rfl, rfl, rfl, rfl⟩, onPass_latch s ty rw sa cmd data h, latchSmb_inv s ty rw sa cmd h,
    groupLeft_latch s ty rw sa cmd data, nofun⟩

/-- An SMBus instruction that answers next was accepted, and answers the state after its pass. -/
theorem exec_smb_next {i : Instr} {s t : State} {ty : Xfer} {rw : Dir} {sa : BitVec 7} {cmd : Byte} {data : List Byte}
    (ho : smbOperands i = some (ty, rw, sa, cmd, data)) (h : exec i s = .next t) :
    data.length ≤ 32 ∧ t = runPass (latchSmb s ty rw sa cmd data) := by
  obtain ⟨a, ha, -⟩ | ⟨v, rfl, -⟩ | ⟨ty', rw', sa', cmd', data', ho', hd, -, ht⟩ := exec_next h
  · cases i <;> cases ha <;> cases ho
  · cases ho
  · cases ho.symm.trans ho'
    exact ⟨hd, ht⟩

section
variable {i : Instr} {s t : State} {ty : Xfer} {rw : Dir} {sa : BitVec 7} {cmd : Byte} {data : List Byte}
  (ho : smbOperands i = some (ty, rw, sa, cmd, data)) (h : exec i s = .next t)
include ho h

/-- What holds as a command is accepted, and is kept by every phase, holds at the end of its pass. -/
theorem pass_invariant {J : List Event → PortSide → Engine → Prop}
    (h0 : J [] s.side (latchSmb s ty rw sa cmd data).eng)
    (hJ : KeptByPhases s.binding (latchSmb s ty rw sa cmd data).eng J) : J (newEvents s t) t.side t.eng := by
  obtain ⟨hd, rfl⟩ := exec_smb_next ho h
  obtain ⟨-, fs, htrans, hend⟩ := runEngine_invariant hJ maxPhases (s := latchSmb s ty rw sa cmd data) (es := []) rfl
    (underway_latch s ty rw sa cmd hd) h0
  exact (htrans.newEvents :) ▸ hend

theorem pass_underway : (latchSmb s ty rw sa cmd data).eng.Underway t.eng := by
  obtain ⟨hd, rfl⟩ := exec_smb_next ho h
  exact (runEngine_invariant (b := s.binding) (J := fun _ _ _ => True) (es := []) (fun _ _ _ _ _ _ _ _ _ _ => trivial)
    maxPhases (s := latchSmb s ty rw sa cmd data) rfl (underway_latch s ty rw sa cmd hd) trivial).1

/-- R173: a pass ends in Done or Failed. -/
theorem pass_ended : t.eng.st = .done ∨ t.eng.st = .failed := by
  have hidle := (pass_underway ho h).begun
  obtain ⟨hd, rfl⟩ := exec_smb_next ho h
  have ha := runPass_ends s ty rw sa cmd data hd
  cases hst : (runPass (latchSmb s ty rw sa cmd data)).eng.st <;>
    simp [hst, Phase.accepting] at ha hidle ⊢

end

/-! ### The first and the last step -/

/-- The record of a pass begins with the read of BusyCheck and, once the pass has ended, ends with the write of
ClearSticky. -/
inductive Framed (b : Binding) : List Event → Engine → Prop
  | start {e : Engine} (hs : e.st = .busyCheck) : Framed b [] e
  | middle {e : Engine} (hs : e.st.accepting = false) (v : Byte) (es : List Event) :
      Framed b (.rd8 (b.portOf .cnt) v :: es) e
  | ended {e : Engine} (hs : e.st.accepting = true) (v : Byte) (es : List Event) :
      Framed b (.rd8 (b.portOf .cnt) v :: (es ++ [.wr8 (b.portOf .sts) Config.STS_CLEAR_ALL])) e

theorem framed_kept (b : Binding) (e₀ : Engine) : KeptByPhases b e₀ fun es _ e => Framed b es e := by
  intro es x e fs y f _ hJ hend _
  cases hJ with
  | start hs =>
    obtain ⟨hst, -⟩ | ⟨-, hst⟩ := hend.st_cases
    · cases hst.symm.trans hs
    · cases hend with
      | busyCheck _ c => exact .middle hst c []
      | _ hs' => cases hs.symm.trans hs'
  | middle hs v es =>
    obtain ⟨-, rfl, hst⟩ | ⟨-, hst⟩ := hend.st_cases
    · exact .ended (by obtain hst | hst := hst <;> rw [hst] <;> rfl) v es
    · exact .middle hst v (es ++ fs)
  | ended hs v es => cases hs.symm.trans hend.running

/-! ### The port accesses -/

theorem portCount_append (es fs : List Event) : portCount (es ++ fs) = portCount es + portCount fs := by
  simp [portCount]

@[simp] theorem portCount_nil : portCount [] = 0 := rfl

theorem portCount_cons (e : Event) (es : List Event) :
    portCount (e :: es) = (if e.isPort then 1 else 0) + portCount es := by
  rw [← List.singleton_append, portCount_append]
  cases h : e.isPort <;> simp [portCount, h]

theorem portCount_windowReads (b : Binding) (buf : Buffer) (first n : Nat) :
    portCount (windowReadEvents b buf first n) = n := by
  rw [portCount, List.filter_eq_self.2] <;> simp [windowReadEvents, Event.isPort]

theorem portCount_windowWrites (b : Binding) (buf : Buffer) (first n : Nat) :
    portCount (windowWriteEvents b buf first n) = n := by
  rw [portCount, List.filter_eq_self.2] <;> simp [windowWriteEvents, Event.isPort]

/-- A bound on the port accesses of a pass after its present stay in PollComplete and before ClearSticky: a byte to
fetch; or groups of eight bytes, each with its re-arm and, but before the first of a block read, forty polls; and there
the byte count. -/
def Engine.accessesLater (e : Engine) : Nat :=
  match e.type, e.rw with
  | .blockData, .read => 49 * ((32 - e.got) / 8) - 40 + if e.got = 0 then 1 else 0
  | .blockData, .write => 49 * ((e.wlen - e.got + 7) / 8)
  | .byte, .read => 1
  | .byteData, .read => 1
  | .byte, .write => 0
  | .byteData, .write => 0
  | .quick, _ => 0

/-- A bound on the port accesses a pass has left (R173). -/
def Engine.accessesLeft (e : Engine) : Nat :=
  match e.st with
  | .idle => 0
  | .done => 0
  | .failed => 0
  | .clearSticky => 1
  | .pollComplete => 40 - e.poll + e.accessesLater + 1
  | .blockReadLoop => e.accessesLater + 1
  | .blockWriteLoop => e.accessesLater + 1
  | .startTransfer => 201
  | .clearFlags => 204
  | .recover => 204 + (10 - e.retry) + if e.retry = 0 then 1 else 0
  | .busyCheck => 216

/-- R157 to R159: StartTransfer of a read makes at most three accesses, and of a write four and the window bytes of a
block. -/
theorem portCount_startEvents (b : Binding) (e : Engine) :
    portCount (startEvents b e) ≤
      if e.rw = .read then 3 else 4 + if e.type = .blockData then min e.wlen 8 else 0 := by
  unfold startEvents operandEvents
  cases ht : e.type <;> cases hr : e.rw <;>
    simp [portCount_append, portCount_cons, portCount_windowWrites, Event.isPort, Config.WINDOW]
  omega

theorem RecheckEnd.accesses {b : Binding} {e f : Engine} {c : Byte} {fs : List Event} (h : RecheckEnd b e c f fs)
    (hs : e.st = .recover) (hr : e.retry < 10) : portCount fs + f.accessesLeft + 1 ≤ 204 + (10 - e.retry) := by
  cases h with
  | free hb => simp [Engine.accessesLeft]; omega
  | again hb hr' => simp [Engine.accessesLeft, hs]; omega
  | spent hb hr' => simp [Engine.accessesLeft, portCount_cons, Event.isPort]; omega

theorem PollEnd.accesses {b : Binding} {e f : Engine} {v : Byte} {fs : List Event} (h : PollEnd b e v f fs)
    (hp : e.OnPass) (hs : e.st = .pollComplete) : portCount fs + f.accessesLeft + 1 ≤ e.accessesLeft := by
  have hpoll := hp.poll hs
  cases h with
  | error he => simp [Engine.accessesLeft, portCount_cons, hs, Event.isPort]; omega
  | fetched he hc hf w =>
    obtain ⟨ht | ht, hr⟩ := hf <;>
      simp [Engine.accessesLeft, Engine.accessesLater, portCount_cons, hs, ht, hr, Event.isPort] <;> omega
  | complete he hc hf =>
    have hlater : Engine.accessesLeft { e with s := v, poll := e.poll + 1, st := e.afterCompletion } ≤
        e.accessesLater + 1 := by
      simp only [Engine.accessesLeft, Engine.accessesLater, Engine.afterCompletion]
      by_cases hg : e.got < e.wlen <;> cases e.type <;> cases e.rw <;> simp [hg]
    simp only [Engine.accessesLeft, hs, portCount_nil] at hlater ⊢
    omega
  | timeout he hc hp => simp [Engine.accessesLeft, portCount_cons, hs, Event.isPort]; omega
  | pending he hc hp => simp [Engine.accessesLeft, Engine.accessesLater, hs]; omega

theorem GroupEnd.accesses {b : Binding} {e f : Engine} {fs : List Event} (h : GroupEnd b e f fs)
    (ht : e.type = .blockData) (hr : e.rw = .read) (hcnt : e.cnt ≤ 32) (h24 : e.got ≤ 24) (h8 : e.got % 8 = 0) :
    portCount fs + f.accessesLeft + 39 ≤ 49 * ((32 - e.got) / 8) := by
  cases h with
  | empty hc => simp [Engine.accessesLeft]; omega
  | more buf n hc hn hbuf hm =>
    simp only [groupSize, Config.WINDOW] at hn
    simp [Engine.accessesLeft, Engine.accessesLater, ht, hr, portCount_append, portCount_windowReads, portCount_cons,
      Event.isPort]
    split <;> omega
  | last buf n hc hn hbuf hm =>
    simp only [groupSize, Config.WINDOW] at hn
    simp [Engine.accessesLeft, portCount_append, portCount_windowReads, portCount_cons, Event.isPort]
    omega

/-- Every phase lowers the bound by the accesses it makes. -/
theorem PhaseEnd.accesses {b : Binding} {e f : Engine} {fs : List Event} (h : PhaseEnd b e f fs) (hp : e.OnPass) :
    portCount fs + f.accessesLeft ≤ e.accessesLeft := by
  cases h with
  | busyCheck hs c =>
    have h0 := hp.start hs
    cases isBusy b.params c <;> simp [Engine.accessesLeft, portCount_cons, Event.isPort, hs, h0]
  | recover hs c h =>
    have := h.accesses hs (hp.retry hs)
    have hbefore : portCount (beforeRecheckEvents b e.retry) = if e.retry = 0 then 1 else 0 := by
      unfold beforeRecheckEvents
      split <;> simp [portCount_cons, Event.isPort]
    simp [portCount_append, portCount_cons, hbefore, Event.isPort, Engine.accessesLeft, hs] at this ⊢
    omega
  | clearFlags hs c => simp [Engine.accessesLeft, portCount_cons, clearFlagsEvents, Event.isPort, hs]
  | startTransfer hs =>
    have h0 := hp.fresh (by simp [hs])
    have hw := hp.wlen
    have := portCount_startEvents b e
    unfold Engine.accessesLeft Engine.accessesLater
    cases ht : e.type <;> cases hr : e.rw <;> simp [ht, hr, hs, h0, Config.WINDOW] at this ⊢ <;> omega
  | pollComplete hs v h =>
    have := h.accesses hp hs
    simp [portCount_cons, Event.isPort]
    omega
  | blockReadLoop hs n h =>
    obtain ⟨ht, hr⟩ := hp.readLoop hs
    obtain ⟨h24, h8⟩ := hp.reads ht hr (.inr hs)
    have hcnt : (if e.got = 0 then capCount n else e.cnt) ≤ 32 := by
      split
      · exact Nat.min_le_right ..
      · exact hp.cnt
    have := h.accesses ht hr hcnt h24 h8
    by_cases h0 : e.got = 0 <;>
      simp [countEvents, portCount_cons, Event.isPort, Engine.accessesLeft, Engine.accessesLater, hs,
        ht, hr, h0] at this ⊢ <;> omega
  | blockWriteLoop hs =>
    obtain ⟨ht, hr, hg⟩ := hp.writeLoop hs
    simp [portCount_append, portCount_windowWrites, portCount_cons, Event.isPort, Engine.accessesLeft,
      Engine.accessesLater, ht, hr, hs, groupSize, Config.WINDOW]
    omega
  | clearSticky hs =>
    by_cases hf : e.fail = .noFailure <;> simp [hf, Engine.accessesLeft, portCount_cons, Event.isPort, hs]

theorem accesses_kept (b : Binding) (e₀ : Engine) :
    KeptByPhases b e₀ fun es _ e => portCount es + e.accessesLeft ≤ 216 := by
  intro es x e fs y f hu hJ hend _
  have := hend.accesses hu.onPass
  rw [portCount_append]
  omega

/-- Settles O36, by the first and last step of a pass and a bound on the accesses left that every phase lowers. -/
theorem everyPassEnds : Obligations.EveryPassEnds := by
  intro i s hi hw hs
  obtain ⟨⟨ty, rw, sa, cmd, data⟩, ho⟩ := Option.isSome_iff_exists.1 hi
  have h := exec_smb_ready ho hw hs
  have hend := pass_ended ho h
  have hframed := pass_invariant ho h (.start rfl) (framed_kept _ _)
  have hcount := pass_invariant ho h (J := fun es _ e => portCount es + e.accessesLeft ≤ 216) (Nat.le_refl 216)
    (accesses_kept _ _)
  refine ⟨_, h, hend, ?_, (Nat.le_add_right ..).trans hcount⟩
  generalize newEvents s _ = es at hframed
  cases hframed with
  | start hs => simp [hs] at hend
  | middle hs => obtain hst | hst := hend <;> simp [hst, Phase.accepting] at hs
  | ended hs v es => exact ⟨v, es, rfl⟩

/-! ### The result and the diagnostics -/

/-- R170, R226: a pass that has ended with a failure code. -/
theorem Engine.Inv.failedWith {e : Engine} (h : e.Inv) (hst : e.st = .done ∨ e.st = .failed)
    (hf : e.fail ≠ .noFailure) : e.failedWith e.fail := by
  obtain hst | hst := hst
  · exact absurd (h.fail_none (by simp [hst]) (by simp [hst])) hf
  · exact ⟨hst, h.not_ok (by simp [hst]), rfl, h.rlen_zero (by simp [hst]) (by simp [hst])⟩

theorem Engine.Inv.succeeded {e : Engine} (h : e.Inv) (hst : e.st = .done ∨ e.st = .failed)
    (hf : e.fail = .noFailure) : e.succeeded := by
  obtain hst | hst := hst
  · exact ⟨hst, h.ok_iff.2 hst, hf⟩
  · exact absurd hf (h.failed_code hst)

/-- R170: the results there are. -/
theorem Engine.Inv.result {e : Engine} (h : e.Inv) (hst : e.st = .done ∨ e.st = .failed) :
    e.succeeded ∨ e.failedWith .busContention ∨ e.failedWith .transferFailure ∨ e.failedWith .transferTimeout := by
  have hfailed := h.failedWith hst
  cases hf : e.fail with
  | noFailure => exact .inl (h.succeeded hst hf)
  | busContention => exact .inr (.inl (hf ▸ hfailed (by simp [hf])))
  | transferFailure => exact .inr (.inr (.inl (hf ▸ hfailed (by simp [hf]))))
  | transferTimeout => exact .inr (.inr (.inr (hf ▸ hfailed (by simp [hf]))))

/-- R247: an event on the diagnostic side channel. -/
def Event.isDiag : Event → Bool
  | .diag _ => true
  | _ => false

/-- R220, R226: the text of a failure code, as an event. -/
def diagEvents (k : FailCode) : List Event := (k.diag.map Event.diag).toList

theorem filter_isDiag_windowReads (b : Binding) (buf : Buffer) (first n : Nat) :
    (windowReadEvents b buf first n).filter Event.isDiag = [] := by
  simp [windowReadEvents, Event.isDiag]

theorem filter_isDiag_windowWrites (b : Binding) (buf : Buffer) (first n : Nat) :
    (windowWriteEvents b buf first n).filter Event.isDiag = [] := by
  simp [windowWriteEvents, Event.isDiag]

/-- A phase either raises a failure and emits its text, or does neither. -/
theorem PhaseEnd.diags {b : Binding} {e f : Engine} {fs : List Event} (h : PhaseEnd b e f fs) :
    (e.st ≠ .clearSticky ∧ fs.filter Event.isDiag = diagEvents f.fail) ∨
      (fs.filter Event.isDiag = [] ∧ f.fail = e.fail) := by
  have hbefore : ∀ n, (beforeRecheckEvents b n).filter Event.isDiag = [] := fun n => by
    unfold beforeRecheckEvents
    split <;> rfl
  cases h with
  | busyCheck hs c => exact .inr ⟨rfl, rfl⟩
  | recover hs c h =>
    cases h with
    | spent hb hr => exact .inl ⟨by simp [hs], by rw [List.filter_append, hbefore]; rfl⟩
    | _ => exact .inr ⟨by rw [List.filter_append, hbefore]; rfl, rfl⟩
  | clearFlags hs c => exact .inr ⟨rfl, rfl⟩
  | startTransfer hs =>
    refine .inr ⟨?_, rfl⟩
    unfold startEvents operandEvents
    cases e.type <;> cases e.rw <;> simp [Event.isDiag, filter_isDiag_windowWrites]
  | pollComplete hs v h =>
    cases h with
    | error he => exact .inl ⟨by simp [hs], rfl⟩
    | timeout he hc hp => exact .inl ⟨by simp [hs], rfl⟩
    | _ => exact .inr ⟨rfl, rfl⟩
  | blockReadLoop hs n h =>
    have hcount : (countEvents b e n).filter Event.isDiag = [] := by
      unfold countEvents
      split <;> rfl
    cases h with
    | empty hc => exact .inr ⟨by rw [List.filter_append, hcount]; rfl, rfl⟩
    | _ => exact .inr ⟨by simp [hcount, filter_isDiag_windowReads, Event.isDiag], rfl⟩
  | blockWriteLoop hs => exact .inr ⟨by simp [filter_isDiag_windowWrites, Event.isDiag], rfl⟩
  | clearSticky hs => exact .inr ⟨rfl, rfl⟩

theorem diags_kept (b : Binding) (e₀ : Engine) :
    KeptByPhases b e₀ fun es _ e => es.filter Event.isDiag = diagEvents e.fail := by
  intro es x e fs y f hu hJ hend _
  rw [List.filter_append, hJ]
  obtain ⟨hst, hd⟩ | ⟨hd, hf⟩ := hend.diags
  · rw [hd, (hu.inv.noResult hend.running hst).fail]
    rfl
  · rw [hd, hf, List.append_nil]

/-- Settles O37: the result by the invariant, the diagnostics by induction over the pass, the frame by `EngineMove`. -/
theorem resultOfAPass : Obligations.ResultOfAPass := by
  intro i s t ty rw sa cmd data ho hw hs h
  have hu := pass_underway ho h
  have hm := exec_smb_move (ho ▸ rfl) h
  have hdiag := pass_invariant ho h (J := fun es _ e => es.filter Event.isDiag = diagEvents e.fail) rfl (diags_kept _ _)
  refine ⟨hu.inv.result (pass_ended ho h), ?_, hu.operands.type, hu.operands.rw, hu.operands.sa, hu.operands.cmd,
    hu.operands.wlen, hm.acc, hm.binding, hm.inbox, hm.latch⟩
  refine ((List.filter_congr fun e _ => ?_).trans hdiag).trans ?_
  · cases e <;> rfl
  · cases t.eng.fail <;> rfl

end Sys2Proof.Machine
end

section
/-! Busy bits that do not clear (41_smbus_fsm.md R151 to R154). `Contention` follows a pass through its re-checks: one
that ends with code 3 has made its first control read, the kill, ten re-checks and the final status write, and no other
access. -/

namespace Sys2Proof.Machine

/-! ### The record of the re-checks -/

/-- The record of re-checks that read the bytes given, n of them having been made before. -/
def recheckEvents (b : Binding) : Nat → List Byte → List Event
  | _, [] => []
  | n, c :: cs => beforeRecheckEvents b n ++ .rd8 (b.portOf .cnt) c :: recheckEvents b (n + 1) cs

theorem recheckEvents_concat (b : Binding) (n : Nat) (cs : List Byte) (c : Byte) :
    recheckEvents b n (cs ++ [c]) =
      recheckEvents b n cs ++ (beforeRecheckEvents b (n + cs.length) ++ [.rd8 (b.portOf .cnt) c]) := by
  induction cs generalizing n with
  | nil => rfl
  | cons d cs ih => simp [recheckEvents, ih, Nat.add_assoc, Nat.add_comm 1]

/-- After the first re-check there are only delays between the control reads. -/
theorem filter_isPort_recheckEvents_succ (b : Binding) (n : Nat) (cs : List Byte) :
    (recheckEvents b (n + 1) cs).filter Event.isPort = cs.map fun v => .rd8 (b.portOf .cnt) v := by
  induction cs generalizing n with
  | nil => rfl
  | cons c cs ih => simp [recheckEvents, beforeRecheckEvents, List.filter_cons, Event.isPort, ih]

/-- The kill is the one other access. -/
theorem filter_isPort_recheckEvents (b : Binding) {cs : List Byte} (h : cs ≠ []) :
    (recheckEvents b 0 cs).filter Event.isPort =
      .wr8 (b.portOf .hostcnt) (killByte b.params) :: cs.map fun v => .rd8 (b.portOf .cnt) v := by
  cases cs with
  | nil => exact absurd rfl h
  | cons c cs =>
    simp [recheckEvents, beforeRecheckEvents, List.filter_cons, Event.isPort, filter_isPort_recheckEvents_succ]

/-- R151 to R154, R170: the accesses of a pass that has spent its tries. -/
theorem filter_isPort_contention (b : Binding) (c : Byte) {cs : List Byte} (h : 0 < cs.length) :
    (Event.rd8 (b.portOf .cnt) c :: (recheckEvents b 0 cs ++
        [.diag .hostOrSlaveBusy, .wr8 (b.portOf .sts) Config.STS_CLEAR_ALL])).filter Event.isPort =
      [.rd8 (b.portOf .cnt) c, .wr8 (b.portOf .hostcnt) (killByte b.params)] ++
        cs.map (fun v => .rd8 (b.portOf .cnt) v) ++ [.wr8 (b.portOf .sts) Config.STS_CLEAR_ALL] := by
  rw [List.filter_cons_of_pos rfl, List.filter_append, filter_isPort_recheckEvents _ (List.length_pos_iff.1 h)]
  rfl

/-! ### The pass -/

/-- R154: what a phase past Recover can do to the state and to the failure code. -/
theorem PhaseEnd.past_recover {b : Binding} {e f : Engine} {fs : List Event} (h : PhaseEnd b e f fs)
    (hb : e.st ≠ .busyCheck) (hr : e.st ≠ .recover) (hf : e.fail ≠ .busContention) :
    f.st ≠ .busyCheck ∧ f.st ≠ .recover ∧ f.fail ≠ .busContention := by
  cases h with
  | busyCheck hs c => exact absurd hs hb
  | recover hs c h => exact absurd hs hr
  | pollComplete hs v h =>
    cases h with
    | complete he hc hg =>
      obtain hst | hst | hst := e.afterCompletion_cases <;> exact ⟨by simp [hst], by simp [hst], hf⟩
    | pending => exact ⟨hb, hr, hf⟩
    | fetched => exact ⟨by simp, by simp, hf⟩
    | _ => exact ⟨by simp, by simp, by simp⟩
  | blockReadLoop hs n h => cases h <;> exact ⟨by simp, by simp, hf⟩
  | clearSticky hs => exact ⟨by dsimp only; split <;> simp, by dsimp only; split <;> simp, hf⟩
  | _ => exact ⟨by simp, by simp, hf⟩

/-- A pass and its record as far as the busy bits go: before the first control read, between re-checks, out of tries,
ended so; or past Recover with another result. -/
inductive Contention (b : Binding) : List Event → Engine → Prop
  | start {e : Engine} (hs : e.st = .busyCheck) : Contention b [] e
  | checking {e : Engine} (hs : e.st = .recover) (c : Byte) (cs : List Byte) (hr : e.retry = cs.length)
      (hb : ∀ v ∈ c :: cs, isBusy b.params v = true) :
      Contention b (.rd8 (b.portOf .cnt) c :: recheckEvents b 0 cs) e
  | spent {e : Engine} (hs : e.st = .clearSticky) (c : Byte) (cs : List Byte) (hr : e.retry = cs.length)
      (hlen : cs.length = 10) (hb : ∀ v ∈ c :: cs, isBusy b.params v = true) :
      Contention b (.rd8 (b.portOf .cnt) c :: (recheckEvents b 0 cs ++ [.diag .hostOrSlaveBusy])) e
  | ended {e : Engine} (hs : e.st.accepting = true) (c : Byte) (cs : List Byte) (hr : e.retry = cs.length)
      (hlen : cs.length = 10) (hb : ∀ v ∈ c :: cs, isBusy b.params v = true) :
      Contention b (.rd8 (b.portOf .cnt) c ::
        (recheckEvents b 0 cs ++ [.diag .hostOrSlaveBusy, .wr8 (b.portOf .sts) Config.STS_CLEAR_ALL])) e
  | other {e : Engine} {es : List Event} (hb : e.st ≠ .busyCheck) (hr : e.st ≠ .recover)
      (hf : e.fail ≠ .busContention) : Contention b es e

theorem contention_kept (b : Binding) (e₀ : Engine) : KeptByPhases b e₀ fun es _ e => Contention b es e := by
  intro es x e fs y f hu hJ hend _
  have hnone : e.st ≠ .clearSticky → e.fail ≠ .busContention := fun hst => by
    simp [(hu.inv.noResult hend.running hst).fail]
  cases hJ with
  | start hs =>
    cases hend with
    | busyCheck _ c =>
      cases hb : isBusy b.params c with
      | true => exact .checking rfl c [] (hu.onPass.start hs) (by simpa using hb)
      | false => exact .other (by simp) (by simp) (hnone (by simp [hs]))
    | _ hs' => cases hs.symm.trans hs'
  | checking hs c cs hr hb =>
    cases hend with
    | recover _ v h =>
      have hrecord : recheckEvents b 0 (cs ++ [v]) =
          recheckEvents b 0 cs ++ (beforeRecheckEvents b e.retry ++ [.rd8 (b.portOf .cnt) v]) := by
        rw [recheckEvents_concat, hr, Nat.zero_add]
      have hbusy : isBusy b.params v = true → ∀ w ∈ c :: (cs ++ [v]), isBusy b.params w = true := fun hv => by
        simp only [List.mem_cons, List.mem_append] at hb ⊢
        rintro w (rfl | hw | rfl | hw)
        · exact hb _ (.inl rfl)
        · exact hb w (.inr hw)
        · exact hv
        · cases hw
      cases h with
      | free hv => exact .other (by simp) (by simp) (hnone (by simp [hs]))
      | again hv _ =>
        rw [List.cons_append, ← hrecord]
        refine .checking ?_ c (cs ++ [v]) ?_ (hbusy hv)
        · exact hs
        · simp [hr]
      | spent hv h10 =>
        have hdiag : beforeRecheckEvents b e.retry ++ [.rd8 (b.portOf .cnt) v, .diag .hostOrSlaveBusy] =
            (beforeRecheckEvents b e.retry ++ [.rd8 (b.portOf .cnt) v]) ++ [.diag .hostOrSlaveBusy] := by simp
        rw [hdiag, List.cons_append, ← List.append_assoc, ← hrecord]
        exact .spent rfl c (cs ++ [v]) (by simp [hr]) (by simp [← hr, h10]) (hbusy hv)
    | _ hs' => cases hs.symm.trans hs'
  | spent hs c cs hr hlen hb =>
    cases hend with
    | clearSticky _ =>
      rw [List.cons_append, List.append_assoc]
      refine .ended ?_ c cs ?_ hlen hb
      · dsimp only
        split <;> rfl
      · exact hr
    | _ hs' => cases hs.symm.trans hs'
  | ended hs => cases hs.symm.trans hend.running
  | other hb hr hf =>
    obtain ⟨hb', hr', hf'⟩ := hend.past_recover hb hr hf
    exact .other hb' hr' hf'

/-- R151 to R154, R170: the whole record of a pass that ends with code 3. -/
theorem busContention_record {i : Instr} {s t : State} {ty : Xfer} {rw : Dir} {sa : BitVec 7} {cmd : Byte}
    {data : List Byte} (ho : smbOperands i = some (ty, rw, sa, cmd, data)) (h : exec i s = .next t)
    (hf : t.eng.fail = .busContention) :
    ∃ c cs, cs.length = 10 ∧ t.eng.retry = 10 ∧ (∀ v ∈ c :: cs, isBusy s.binding.params v = true) ∧
      newEvents s t = .rd8 (s.binding.portOf .cnt) c :: (recheckEvents s.binding 0 cs ++
        [.diag .hostOrSlaveBusy, .wr8 (s.binding.portOf .sts) Config.STS_CLEAR_ALL]) := by
  have hend := pass_ended ho h
  have hJ := pass_invariant ho h (.start rfl) (contention_kept _ _)
  generalize newEvents s t = es at hJ ⊢
  cases hJ with
  | start hs => simp [hs] at hend
  | checking hs => simp [hs] at hend
  | spent hs => simp [hs] at hend
  | ended hs c cs hr hlen hb => exact ⟨c, cs, hlen, hr.trans hlen, hb, rfl⟩
  | other _ _ hne => exact absurd hf hne

/-- Settles O40: the tenth re-check, and the accesses of the record of a pass that ends with code 3. -/
theorem busContentionStartsNothing : Obligations.BusContentionStartsNothing := by
  refine ⟨fun s hs hr hb => ?_, fun i s t hi _ h hf => ?_⟩
  · obtain ⟨fs, htrans, hend⟩ := recover_cases s
    have hc : (recover s).eng.c = regVal (beforeRecheck s) .cnt := by rw [recover_eng]
    rw [hc] at hb ⊢
    rw [htrans.newEvents, hr]
    generalize (recover s).eng = e at hend ⊢
    cases hend with
    | free hfree => cases hfree.symm.trans hb
    | again _ hne => exact absurd (by rw [hr]) hne
    | spent => exact ⟨rfl, rfl, rfl⟩
  · obtain ⟨⟨ty, rw, sa, cmd, data⟩, ho⟩ := Option.isSome_iff_exists.1 hi
    obtain ⟨c, cs, hlen, -, hb, hrecord⟩ := busContention_record ho h hf
    refine ⟨c, cs, hlen, hb, ?_⟩
    rw [hrecord, filter_isPort_contention _ _ (by simp [hlen])]
    rfl

end Sys2Proof.Machine
end

section
/-! The bytes of a transfer (41_smbus_fsm.md R158, R164 to R168). `ReadProgress` and `WriteProgress` tie what a pass has
moved through the data window so far to its buffer and to `x[got]`; the two statements are read off at the end. -/

namespace Sys2Proof.Machine

/-! ### Accesses of the data window in a record -/

/-- A window byte. -/
def isWindow : Reg → Bool
  | .byte _ => true
  | _ => false

/-- The test by which `windowReads` and `windowWrites` pick the ports of the data window. -/
def isWindowPort (b : Binding) (p : Port) : Bool := (List.range 8).any fun i => decide (p = b.portOf (winReg i))

theorem isWindowPort_portOf {b : Binding} (hv : b.params.Valid) (r : Reg) :
    isWindowPort b (b.portOf r) = isWindow r := by
  rw [Bool.eq_iff_iff, isWindowPort, List.any_eq_true]
  constructor
  · rintro ⟨i, -, hi⟩
    rw [portOf_inj hv (of_decide_eq_true hi)]
    rfl
  · intro hr
    cases r <;> simp only [isWindow, Bool.false_eq_true] at hr
    case byte i => exact ⟨i.val, List.mem_range.2 i.isLt, decide_eq_true (by rw [winReg, Fin.ofNat_val_eq_self])⟩

/-- The read of a window byte, as `windowReads` keeps it. -/
def readAt (b : Binding) : Event → Option (Port × Byte)
  | .rd8 p v => if isWindowPort b p then some (p, v) else none
  | _ => none

/-- The write of a window byte, as `windowWrites` keeps it. -/
def writeAt (b : Binding) : Event → Option (Port × Byte)
  | .wr8 p v => if isWindowPort b p then some (p, v) else none
  | _ => none

theorem windowReads_eq (b : Binding) (es : List Event) : windowReads b es = es.filterMap (readAt b) := by
  induction es with
  | nil => rfl
  | cons e es ih =>
    cases e with
    | rd8 p v =>
      rw [windowReads, List.filterMap_cons, readAt, ih]
      change (if isWindowPort b p = true then _ else _) = _
      split <;> rfl
    | _ => exact ih

theorem windowWrites_eq (b : Binding) (es : List Event) : windowWrites b es = es.filterMap (writeAt b) := by
  induction es with
  | nil => rfl
  | cons e es ih =>
    cases e with
    | wr8 p v =>
      rw [windowWrites, List.filterMap_cons, writeAt, ih]
      change (if isWindowPort b p = true then _ else _) = _
      split <;> rfl
    | _ => exact ih

/-- A read of the byte count (R165). -/
def isCountRead (b : Binding) : Event → Bool
  | .rd8 p _ => decide (p = b.portOf .count)
  | _ => false

/-- Bytes 0 to n - 1 of a buffer, byte j at the port of window byte j mod 8. -/
def windowEntries (b : Binding) (buf : Buffer) (n : Nat) : List (Port × Byte) :=
  (List.range n).map fun j => (b.portOf (winReg j), bufGet buf j)

theorem winReg_add {m : Nat} (h : m % 8 = 0) (k : Nat) : winReg (m + k) = winReg k := by
  unfold winReg
  congr 1
  apply Fin.ext
  simp only [Fin.val_ofNat]
  omega

/-- A group of n bytes after m, m being a number of whole groups. -/
theorem windowEntries_add {b : Binding} {old buf : Buffer} {m : Nat} (hm : m % 8 = 0)
    (hold : ∀ k < m, bufGet buf k = bufGet old k) (n : Nat) :
    windowEntries b old m ++ (List.range n).map (fun k => (b.portOf (winReg k), bufGet buf (m + k))) =
      windowEntries b buf (m + n) := by
  simp only [windowEntries, List.range_add, List.map_append, List.map_map]
  congr 1
  · exact List.map_congr_left fun j hj => by rw [hold j (List.mem_range.1 hj)]
  · exact List.map_congr_left fun k _ => by rw [Function.comp_apply, winReg_add hm]

section
variable {b : Binding} (hv : b.params.Valid)
include hv

theorem readAt_rd8 (r : Reg) (v : Byte) :
    readAt b (.rd8 (b.portOf r) v) = if isWindow r then some (b.portOf r, v) else none := by
  rw [readAt, isWindowPort_portOf hv]

theorem writeAt_wr8 (r : Reg) (v : Byte) :
    writeAt b (.wr8 (b.portOf r) v) = if isWindow r then some (b.portOf r, v) else none := by
  rw [writeAt, isWindowPort_portOf hv]

theorem isCountRead_rd8 (r : Reg) (v : Byte) : isCountRead b (.rd8 (b.portOf r) v) = decide (r = .count) :=
  decide_eq_decide.2 ⟨portOf_inj hv, congrArg _⟩

theorem readAt_windowReads (buf : Buffer) (first n : Nat) :
    (windowReadEvents b buf first n).filterMap (readAt b) =
      (List.range n).map fun k => (b.portOf (winReg k), bufGet buf (first + k)) := by
  rw [windowReadEvents, List.filterMap_map]
  exact List.filterMap_eq_map_iff_forall_eq_some.2 fun k _ => readAt_rd8 hv (winReg k) _

theorem isCountRead_windowReads (buf : Buffer) (first n : Nat) :
    (windowReadEvents b buf first n).filter (isCountRead b) = [] := by
  rw [windowReadEvents, List.filter_map, List.map_eq_nil_iff, List.filter_eq_nil_iff]
  intro k _
  simp [isCountRead_rd8 hv, winReg]

theorem writeAt_windowWrites (buf : Buffer) (first n : Nat) :
    (windowWriteEvents b buf first n).filterMap (writeAt b) =
      (List.range n).map fun k => (b.portOf (winReg k), bufGet buf (first + k)) := by
  rw [windowWriteEvents, List.filterMap_map]
  exact List.filterMap_eq_map_iff_forall_eq_some.2 fun k _ => writeAt_wr8 hv (winReg k) _

end

/-! ### Reads -/

/-- Events among which no window byte and no byte count is read. -/
structure NoFetch (b : Binding) (es : List Event) : Prop where
  window : es.filterMap (readAt b) = []
  count : es.filter (isCountRead b) = []

theorem NoFetch.append {b : Binding} {es fs : List Event} (h : NoFetch b es) (k : NoFetch b fs) :
    NoFetch b (es ++ fs) :=
  ⟨by rw [List.filterMap_append, h.window, k.window]; rfl, by rw [List.filter_append, h.count, k.count]; rfl⟩

theorem NoFetch.of_write (b : Binding) (p : Port) (v : Byte) : NoFetch b [.wr8 p v] := ⟨rfl, rfl⟩

theorem NoFetch.of_read {b : Binding} (hv : b.params.Valid) {r : Reg} (hw : isWindow r = false) (hc : r ≠ .count)
    (v : Byte) : NoFetch b [.rd8 (b.portOf r) v] := by
  constructor
  · simp [readAt_rd8 hv, hw]
  · simp [isCountRead_rd8 hv, hc]

theorem noFetch_beforeRecheck (b : Binding) (n : Nat) : NoFetch b (beforeRecheckEvents b n) := by
  unfold beforeRecheckEvents
  split <;> exact ⟨rfl, rfl⟩

theorem noFetch_windowWrites (b : Binding) (buf : Buffer) (first n : Nat) :
    NoFetch b (windowWriteEvents b buf first n) := by
  constructor <;> simp [windowWriteEvents, readAt, isCountRead]

theorem noFetch_start (b : Binding) (e : Engine) : NoFetch b (startEvents b e) := by
  have hop : NoFetch b (operandEvents b e) := by
    unfold operandEvents
    cases e.type <;> cases e.rw
    case blockData.write =>
      exact ((NoFetch.of_write ..).append (.of_write ..)).append (noFetch_windowWrites b e.wbuf 0 _)
    all_goals exact ⟨rfl, rfl⟩
  exact (NoFetch.of_write b (b.portOf .addr) (addrByte e.sa e.rw)).append (hop.append (.of_write ..))

/-- What a read has fetched so far, in the engine e (R165, R166): bytes 0 to got - 1 of `x[rbuf]`, and, once a byte is
fetched, the byte count before them. -/
structure Fetched (b : Binding) (es : List Event) (e : Engine) : Prop where
  window : es.filterMap (readAt b) = windowEntries b e.rbuf e.got
  count : (e.got = 0 ∧ es.filter (isCountRead b) = []) ∨
    (e.got ≠ 0 ∧ ∃ n, e.cnt = capCount n ∧ es.filter (isCountRead b) = [.rd8 (b.portOf .count) n])
  single : e.type ≠ .blockData → e.got = 0

/-- A phase that fetches nothing. -/
theorem Fetched.append {b : Binding} {es fs : List Event} {e f : Engine} (h : Fetched b es e) (hf : NoFetch b fs)
    (hbuf : f.rbuf = e.rbuf) (hgot : f.got = e.got) (hcnt : f.cnt = e.cnt) (htype : f.type = e.type) :
    Fetched b (es ++ fs) f := by
  obtain ⟨hw, hc⟩ := hf
  constructor
  · rw [List.filterMap_append, hw, List.append_nil, hbuf, hgot, h.window]
  · rw [List.filter_append, hc, List.append_nil, hgot, hcnt]
    exact h.count
  · rw [hgot, htype]
    exact h.single

/-- R164 to R167: how many bytes a read of each type returns. -/
def ResultLength (b : Binding) (es : List Event) (e : Engine) : Prop :=
  match e.type with
  | .quick => e.rlen = 0
  | .byte => e.rlen = 1
  | .byteData => e.rlen = 1
  | .blockData => ∃ n, e.rlen = capCount n ∧ es.filter (isCountRead b) = [.rd8 (b.portOf .count) n]

/-- A read that fetches no single byte and no block is a Quick. -/
theorem Engine.quick_of_noFetch (e : Engine) (hf : ¬e.fetchesByte) (hr : e.rw = .read) (ht : e.type ≠ .blockData) :
    e.type = .quick := by
  cases hq : e.type with
  | quick => rfl
  | byte => exact absurd ⟨.inl hq, hr⟩ hf
  | byteData => exact absurd ⟨.inr hq, hr⟩ hf
  | blockData => exact absurd hq ht

/-- A read and its record: still fetching, with its result complete, or failed. -/
inductive ReadProgress (b : Binding) (es : List Event) (e : Engine) : Prop
  | fetching (hs : e.st.accepting = false) (hne : e.st ≠ .clearSticky) (h : Fetched b es e)
  | result (hs : e.st = .clearSticky ∨ e.st = .done)
      (hw : es.filterMap (readAt b) = windowEntries b e.rbuf e.rlen) (hlen : ResultLength b es e)
  | failed (hf : e.fail ≠ .noFailure)

/-- R166, R167: one group, the byte count having been read. -/
theorem readProgress_groupEnd {b : Binding} (hv : b.params.Valid) {es fs : List Event} {e f : Engine} {m : Byte}
    (hg : GroupEnd b e f fs) (ht : e.type = .blockData)
    (hw : es.filterMap (readAt b) = windowEntries b e.rbuf e.got) (hm : e.cnt = capCount m)
    (hc : es.filter (isCountRead b) = [.rd8 (b.portOf .count) m]) (h8 : e.got % 8 = 0) (hle : e.got ≤ e.cnt) :
    ReadProgress b (es ++ fs) f := by
  have hwindow : ∀ (buf : Buffer) (k : Nat), (∀ j < e.got, bufGet buf j = bufGet e.rbuf j) →
      (es ++ (windowReadEvents b buf e.got k ++ [Event.wr8 (b.portOf .sts) b.params.stsBlockFin])).filterMap
        (readAt b) = windowEntries b buf (e.got + k) := fun buf k hbuf => by
    rw [List.filterMap_append, List.filterMap_append, readAt_windowReads hv, hw, ← windowEntries_add h8 hbuf]
    exact congrArg _ (List.append_nil _)
  have hcount : ∀ (buf : Buffer) (k : Nat),
      (es ++ (windowReadEvents b buf e.got k ++ [Event.wr8 (b.portOf .sts) b.params.stsBlockFin])).filter
        (isCountRead b) = [.rd8 (b.portOf .count) m] := fun buf k => by
    rw [List.filter_append, List.filter_append, isCountRead_windowReads hv, hc]
    rfl
  cases hg with
  | empty h0 =>
    have hgot : e.got = 0 := Nat.le_zero.1 (h0 ▸ hle)
    refine .result (.inl rfl) ?_ ?_
    · rw [List.append_nil, hw, hgot]
    · rw [ResultLength, ht, List.append_nil]
      exact ⟨m, by rw [← hm, h0], hc⟩
  | more buf k h0 hk hbuf hmore =>
    refine .fetching rfl (by simp) ⟨hwindow buf k hbuf, .inr ⟨?_, m, hm, hcount buf k⟩, fun hne => absurd ht hne⟩
    simp only [groupSize, Config.WINDOW] at hk
    dsimp only
    omega
  | last buf k h0 hk hbuf hlast =>
    have hgot : e.got + k = e.cnt := by
      simp only [groupSize, Config.WINDOW] at hk
      omega
    refine .result (.inl rfl) ?_ ?_
    · rw [hwindow buf k hbuf, hgot]
    · rw [ResultLength, ht]
      exact ⟨m, hm, hcount buf k⟩

section
variable {b : Binding} {es fs : List Event} {e f : Engine} (hv : b.params.Valid) (h : Fetched b es e)
include hv h

/-- R164: one poll of a read. -/
theorem Fetched.pollEnd {v : Byte} (hp : PollEnd b e v f fs) (hs : e.st = .pollComplete) (hr : e.rw = .read)
    (hlen : e.rlen = 0) : ReadProgress b (es ++ .delay .poll :: .rd8 (b.portOf .sts) v :: fs) f := by
  have hpoll : NoFetch b [.delay .poll, .rd8 (b.portOf .sts) v] :=
    (NoFetch.mk rfl rfl : NoFetch b [.delay .poll]).append (.of_read hv rfl (by simp) v)
  cases hp with
  | error he => exact .failed (by simp)
  | timeout he hc hp => exact .failed (by simp)
  | pending he hc hp => exact .fetching (hs ▸ rfl) (by simp [hs]) (h.append hpoll rfl rfl rfl rfl)
  | fetched he hc hf w =>
    have hgot : e.got = 0 := h.single (by obtain ⟨ht | ht, -⟩ := hf <;> simp [ht])
    refine .result (.inl rfl) ?_ (by obtain ⟨ht | ht, -⟩ := hf <;> simp [ResultLength, ht])
    have hnone : es.filterMap (readAt b) = [] := by rw [h.window, hgot]; rfl
    have hbyte : bufGet (bufPut e.rbuf 0 w) 0 = w := by simp [bufGet_bufPut]
    simp [hnone, windowEntries, hbyte, List.filterMap_cons, readAt, isWindowPort_portOf hv, isWindow, winReg]
  | complete he hc hf =>
    have hquiet := h.append hpoll (f := { e with s := v, poll := e.poll + 1, st := e.afterCompletion }) rfl rfl rfl rfl
    by_cases ht : e.type = .blockData
    · have hst : e.afterCompletion = .blockReadLoop := by rw [Engine.afterCompletion, ht, hr]
      exact .fetching (by rw [hst]; rfl) (by simp [hst]) hquiet
    · have hq := e.quick_of_noFetch hf hr ht
      refine .result (.inl (by simp [Engine.afterCompletion, hq])) ?_ (by simp [ResultLength, hq, hlen])
      rw [hquiet.window, hlen, h.single ht]

/-- R165: the byte count, read on the first entry. -/
theorem Fetched.countRead (n : Byte) :
    ∃ m, (if e.got = 0 then capCount n else e.cnt) = capCount m ∧
      (es ++ countEvents b e n).filter (isCountRead b) = [.rd8 (b.portOf .count) m] := by
  obtain ⟨h0, hc⟩ | ⟨h0, m, hm, hc⟩ := h.count
  · exact ⟨n, if_pos h0, by simp [countEvents, h0, hc, isCountRead_rd8 hv]⟩
  · exact ⟨m, by rw [if_neg h0, hm], by simp [countEvents, h0, hc]⟩

/-- R165 to R167: the count, and one group. -/
theorem Fetched.groupEnd {n : Byte}
    (hg : GroupEnd b { e with cnt := if e.got = 0 then capCount n else e.cnt } f fs) (ht : e.type = .blockData)
    (h8 : e.got % 8 = 0) (hleft : e.got = 0 ∨ e.got < e.cnt) :
    ReadProgress b (es ++ (countEvents b e n ++ fs)) f := by
  obtain ⟨m, hm, hcount⟩ := h.countRead hv n
  have hwindow : (es ++ countEvents b e n).filterMap (readAt b) = windowEntries b e.rbuf e.got := by
    rw [List.filterMap_append, h.window, countEvents]
    split <;> simp [readAt_rd8 hv, isWindow]
  rw [← List.append_assoc]
  refine readProgress_groupEnd hv hg ht hwindow hm hcount h8 ?_
  dsimp only
  obtain h0 | hlt := hleft <;> split <;> omega

end

theorem readProgress_kept {b : Binding} (hv : b.params.Valid) {e₀ : Engine} (hr₀ : e₀.rw = .read) :
    KeptByPhases b e₀ fun es _ e => ReadProgress b es e := by
  intro es x e fs y f hu hJ hend _
  have hr : e.rw = .read := hu.operands.rw.trans hr₀
  have hno := hu.inv.noResult hend.running
  cases hJ with
  | failed hf =>
    refine .failed ?_
    obtain ⟨hst, -⟩ | ⟨-, hfail⟩ := hend.diags
    · exact absurd (hno hst).fail hf
    · rwa [hfail]
  | result hs hw hlen =>
    obtain hs | hs := hs
    · cases hend with
      | clearSticky _ =>
        by_cases hf : e.fail = .noFailure
        · have hquiet := NoFetch.of_write b (b.portOf .sts) Config.STS_CLEAR_ALL
          refine .result (.inr (if_pos hf)) ?_ ?_
          · simpa only [List.filterMap_append, hquiet.window, List.append_nil, if_pos hf] using hw
          · simpa only [ResultLength, if_pos hf, List.filter_append, hquiet.count, List.append_nil] using hlen
        · exact .failed hf
      | _ hs' => cases hs.symm.trans hs'
    · cases hs ▸ hend.running
  | fetching hs hne h =>
    have hquiet := h.append (fs := fs) (f := f)
    cases hend with
    | busyCheck hs c =>
      exact .fetching (by dsimp only; split <;> rfl) (by dsimp only; split <;> simp)
        (hquiet (.of_read hv rfl (by simp) c) rfl rfl rfl rfl)
    | recover hs c hc =>
      have hbefore := noFetch_beforeRecheck b e.retry
      have hread := NoFetch.of_read hv (r := .cnt) rfl (by simp) c
      cases hc with
      | free hb => exact .fetching rfl (by simp) (hquiet (hbefore.append hread) rfl rfl rfl rfl)
      | again hb hr => exact .fetching (hs ▸ rfl) (by simp [hs]) (hquiet (hbefore.append hread) rfl rfl rfl rfl)
      | spent hb hr => exact .failed (by simp)
    | clearFlags hs c =>
      exact .fetching rfl (by simp)
        (hquiet ((NoFetch.of_read hv (r := .cnt) rfl (by simp) c).append ⟨rfl, rfl⟩) rfl rfl rfl rfl)
    | startTransfer hs =>
      exact .fetching rfl (by simp) (hquiet (noFetch_start b e) rfl (by simp [hr]) rfl rfl)
    | pollComplete hs v hp => exact h.pollEnd hv hp hs hr (hno hne).rlen
    | blockReadLoop hs n hg =>
      have ht := (hu.onPass.readLoop hs).1
      exact h.groupEnd hv hg ht (hu.onPass.reads ht hr (.inr hs)).2 (hu.groupLeft hr (.inr hs))
    | blockWriteLoop hs => cases hr.symm.trans (hu.onPass.writeLoop hs).2.1
    | clearSticky hs => exact absurd hs hne

/-! ### Block writes -/

/-- R103: the entries of a buffer into which the bytes of a list have been put from entry i on. -/
theorem bufGet_bufLoad (b : Buffer) (i : Nat) (data : List Byte) (h : i + data.length ≤ 32) (k : Nat) :
    bufGet (bufLoad b i data) k = if k < i then bufGet b k else data[k - i]?.getD (bufGet b k) := by
  induction data generalizing b i with
  | nil => simp [bufLoad]
  | cons v vs ih =>
    rw [List.length_cons] at h
    rw [bufLoad, ih _ _ (by omega), bufGet_bufPut]
    obtain hk | rfl | hk := Nat.lt_trichotomy k i
    · rw [if_pos (by omega), if_neg (by omega), if_pos hk]
    · simp [show k < 32 by omega]
    · obtain ⟨j, rfl⟩ : ∃ j, k = i + 1 + j := ⟨k - (i + 1), by omega⟩
      rw [if_neg (by omega), if_neg (by omega), if_neg (by omega), show i + 1 + j - (i + 1) = j by omega,
        show i + 1 + j - i = j + 1 by omega, List.getElem?_cons_succ]

/-- A block write and its record: the bytes up to `x[got]` placed; or all of them, or a failure, at its end. -/
inductive WriteProgress (b : Binding) (es : List Event) (e : Engine) : Prop
  | placing (hs : e.st.accepting = false) (hne : e.st ≠ .clearSticky)
      (hw : es.filterMap (writeAt b) = windowEntries b e.wbuf e.got)
  | placed (hs : e.st = .clearSticky ∨ e.st = .done)
      (hw : es.filterMap (writeAt b) = windowEntries b e.wbuf e.wlen)
  | failed (hf : e.fail ≠ .noFailure)

theorem writeAt_recheck {b : Binding} (hv : b.params.Valid) (n : Nat) (c : Byte) :
    (beforeRecheckEvents b n ++ [Event.rd8 (b.portOf .cnt) c]).filterMap (writeAt b) = [] := by
  unfold beforeRecheckEvents
  split <;> simp [List.filterMap_cons, writeAt, isWindowPort_portOf hv, isWindow]

theorem writeAt_start {b : Binding} (hv : b.params.Valid) {e : Engine} (ht : e.type = .blockData)
    (hr : e.rw = .write) :
    (startEvents b e).filterMap (writeAt b) = windowEntries b e.wbuf (min e.wlen 8) := by
  have hwindow := writeAt_windowWrites hv e.wbuf 0 (min e.wlen 8)
  simp only [Nat.zero_add] at hwindow
  simp [startEvents, operandEvents, ht, hr, Config.WINDOW, hwindow, writeAt_wr8 hv, isWindow, windowEntries]

theorem writeProgress_kept {b : Binding} (hv : b.params.Valid) {e₀ : Engine} (ht₀ : e₀.type = .blockData)
    (hr₀ : e₀.rw = .write) : KeptByPhases b e₀ fun es _ e => WriteProgress b es e := by
  intro es x e fs y f hu hJ hend _
  have ht : e.type = .blockData := hu.operands.type.trans ht₀
  have hr : e.rw = .write := hu.operands.rw.trans hr₀
  cases hJ with
  | failed hf =>
    refine .failed ?_
    obtain ⟨hst, -⟩ | ⟨-, hfail⟩ := hend.diags
    · exact absurd (hu.inv.noResult hend.running hst).fail hf
    · rwa [hfail]
  | placed hs hw =>
    obtain hs | hs := hs
    · cases hend with
      | clearSticky _ =>
        by_cases hf : e.fail = .noFailure
        · refine .placed (.inr (if_pos hf)) ?_
          simpa [writeAt_wr8 hv, isWindow] using hw
        · exact .failed hf
      | _ hs' => cases hs.symm.trans hs'
    · cases hs ▸ hend.running
  | placing hs hne hw =>
    have hquiet : fs.filterMap (writeAt b) = [] → (es ++ fs).filterMap (writeAt b) = windowEntries b e.wbuf e.got :=
      fun hq => by rw [List.filterMap_append, hq, List.append_nil, hw]
    cases hend with
    | busyCheck hs c => exact .placing (by dsimp only; split <;> rfl) (by dsimp only; split <;> simp) (hquiet rfl)
    | recover hs c hc =>
      have hq := writeAt_recheck hv e.retry c
      cases hc with
      | free hb => exact .placing rfl (by simp) (hquiet hq)
      | again hb _ => exact .placing (hs ▸ rfl) (by simp [hs]) (hquiet hq)
      | spent hb _ => exact .failed (by simp)
    | clearFlags hs c =>
      exact .placing rfl (by simp)
        (hquiet (by simp [clearFlagsEvents, List.filterMap_cons, writeAt, isWindowPort_portOf hv, isWindow]))
    | startTransfer hs =>
      refine .placing rfl (by simp) ?_
      rw [hu.onPass.fresh (by simp [hs])] at hw
      rw [List.filterMap_append, hw, writeAt_start hv ht hr]
      simp [ht, hr, windowEntries, Config.WINDOW]
    | pollComplete hs v hp =>
      cases hp with
      | error he => exact .failed (by simp)
      | timeout he hc _ => exact .failed (by simp)
      | pending he hc _ => exact .placing (hs ▸ rfl) (by simp [hs]) (hquiet rfl)
      | fetched he hc hf w => cases hr.symm.trans hf.2
      | complete he hc hf =>
        have hst : e.afterCompletion = if e.got < e.wlen then .blockWriteLoop else .clearSticky := by
          rw [Engine.afterCompletion, ht, hr]
        by_cases hg : e.got < e.wlen
        · rw [if_pos hg] at hst
          exact .placing (by rw [hst]; rfl) (by simp [hst]) (hquiet rfl)
        · have hgot : e.got = e.wlen :=
            Nat.le_antisymm (hu.onPass.writes ht hr (.inl hs)).1 (Nat.le_of_not_lt hg)
          rw [if_neg hg] at hst
          exact .placed (.inl hst) (hgot ▸ hquiet rfl)
    | blockReadLoop hs n _ => cases hr.symm.trans (hu.onPass.readLoop hs).2
    | blockWriteLoop hs =>
      obtain ⟨-, -, hg⟩ := hu.onPass.writeLoop hs
      obtain ⟨-, -, h8⟩ := hu.onPass.writes ht hr (.inr hs)
      refine .placing rfl (by simp) ?_
      rw [List.filterMap_append, List.filterMap_append, hw, writeAt_windowWrites hv,
        ← windowEntries_add (h8 hg) fun _ _ => rfl]
      simp [writeAt_wr8 hv, isWindow]
    | clearSticky hs => exact absurd hs hne

/-! ### The obligations -/

/-- Settles O52: what the record shows once the pass is Done. -/
theorem aReadReturnsTheBytesItRead : Obligations.AReadReturnsTheBytesItRead := by
  intro i s t ty sa cmd ho _ hv h hdone port
  have hu := pass_underway ho h
  have hJ := pass_invariant ho h (J := fun es _ e => ReadProgress s.binding es e)
    (.fetching rfl (by simp [latchSmb]) ⟨rfl, .inl ⟨rfl, rfl⟩, fun _ => rfl⟩) (readProgress_kept hv rfl)
  cases hJ with
  | fetching hs => simp [hdone, Phase.accepting] at hs
  | failed hf => exact absurd (hu.inv.fail_none (by simp [hdone]) (by simp [hdone])) hf
  | result _ hw hlen =>
    have htype : t.eng.type = ty := hu.operands.type
    rw [ResultLength, htype] at hlen
    refine ⟨(windowReads_eq _ _).trans hw, fun ht => ?_, fun ht => ?_, fun ht => ?_⟩
    · simpa only [ht] using hlen
    · obtain ht | ht := ht <;> simpa only [ht] using hlen
    · simp only [ht] at hlen
      obtain ⟨n, hn, hc⟩ := hlen
      exact ⟨n, hn, (List.filter_congr fun e _ => by cases e <;> rfl).trans hc⟩

/-- Settles O53: once the pass is Done all of `x[wbuf]` that was loaded has been placed. -/
theorem aBlockWriteSendsItsBytes : Obligations.ABlockWriteSendsItsBytes := by
  intro sa cmd data s t _ hv h hdone
  have ho : smbOperands (.smbWriteBlockData sa cmd data) = some (.blockData, .write, sa, cmd, data) := rfl
  have hu := pass_underway ho h
  have hd := (exec_smb_next ho h).1
  have hJ := pass_invariant ho h (J := fun es _ e => WriteProgress s.binding es e)
    (.placing rfl (by simp [latchSmb]) rfl) (writeProgress_kept hv rfl rfl)
  cases hJ with
  | placing hs => simp [hdone, Phase.accepting] at hs
  | failed hf => exact absurd (hu.inv.fail_none (by simp [hdone]) (by simp [hdone])) hf
  | placed _ hw =>
    have hwlen : t.eng.wlen = data.length := hu.operands.wlen
    have hwbuf : t.eng.wbuf = bufLoad s.eng.wbuf 0 data := hu.operands.wbuf
    rw [windowWrites_eq, hw, hwlen, hwbuf, windowEntries]
    refine List.map_congr_left fun j hj => ?_
    rw [bufGet_bufLoad _ _ _ (by omega), if_neg (Nat.not_lt_zero j), Nat.sub_zero,
      List.getElem?_eq_getElem (List.mem_range.1 hj)]
    rfl

end Sys2Proof.Machine
end

section
/-! Passes on hardware (20_memory.md R68, R73, R80). `Answers` says what a transcript makes of the register file where
the environment changes nothing on its own; with it an induction over a pass can follow the registers, and so which of
its ways each phase takes. -/

namespace Sys2Proof.Machine

/-! ### The register file behind a transcript -/

/-- Hardware with distinct ports, a base bound, and ports clear of the configuration ports (R10, R62, R63). -/
structure Binding.Wired (b : Binding) : Prop where
  hardware : b.platform = .hardware
  valid : b.params.Valid
  bound : b.baseValid = true
  clear : b.portsClear = true

/-- The register file after a byte write at a target. -/
def RegFile.afterWrite (f : RegFile) (t : PortTarget) (v : Byte) : RegFile :=
  match t with
  | .smbus r => f.portWrite r v
  | _ => f

theorem writeByteAt_regs (x : PortSide) (t : PortTarget) (v : Byte) :
    (writeByteAt x t v).regs = x.regs.afterWrite t v := by
  cases t with
  | configData k =>
    simp only [writeByteAt]
    split <;> rfl
  | _ => rfl

/-- The register file f, with no change but the writes of a record, comes to g, each read of a register getting what it
holds. -/
def Answers (b : Binding) : RegFile → List Event → RegFile → Prop
  | f, [], g => g = f
  | f, .rd8 p v :: es, g => (∀ r, b.target p = .smbus r → v = f.get r) ∧ Answers b f es g
  | f, .wr8 p v :: es, g => Answers b (f.afterWrite (b.target p) v) es g
  | f, _ :: es, g => Answers b f es g

section
variable {b : Binding} (hb : b.Wired)
include hb

/-- R62: a port of the register file reaches its register. -/
theorem Binding.Wired.target (r : Reg) : b.target (b.portOf r) = .smbus r := target_portOf hb.valid hb.bound hb.clear r

theorem answers_rd8 {f g : RegFile} {r : Reg} {v : Byte} {es : List Event} :
    Answers b f (.rd8 (b.portOf r) v :: es) g ↔ v = f.get r ∧ Answers b f es g := by
  simp [Answers, hb.target]

theorem answers_wr8 {f g : RegFile} {r : Reg} {v : Byte} {es : List Event} :
    Answers b f (.wr8 (b.portOf r) v :: es) g ↔ Answers b (f.portWrite r v) es g := by
  simp [Answers, hb.target, RegFile.afterWrite]

/-- R80: where the environment makes no change of its own, the register file answers. -/
theorem Plays.answers {x y : PortSide} {es : List Event} (h : Plays b x es y) (hp : x.Passive) :
    y.Passive ∧ Answers b x.regs es y.regs := by
  induction es generalizing x with
  | nil =>
    subst h
    exact ⟨hp, rfl⟩
  | cons e es ih =>
    cases e with
    | rd8 p v =>
      obtain ⟨hv, h⟩ := h
      obtain ⟨hy, ha⟩ := ih h (passive_tail hp (read8_env ..))
      rw [read8_regs, envStep_passive hp] at ha
      refine ⟨hy, fun r hr => ?_, ha⟩
      rw [hv, PortSide.read8, hb.hardware, envStep_passive hp]
      simp [hr, readByteAt]
    | wr8 p v =>
      obtain ⟨hy, ha⟩ := ih h (passive_tail hp (write8_env ..))
      rw [PortSide.write8, hb.hardware, envStep_passive hp] at ha
      simp only [PortSide.log_regs, writeByteAt_regs] at ha
      exact ⟨hy, ha⟩
    | delay d =>
      have hlog : (envStep x).log (.delay d) = { x with env := x.env.tail, trace := x.trace ++ [.delay d] } := by
        rw [envStep_passive hp]
        rfl
      exact ih (x := { x with env := x.env.tail, trace := x.trace ++ [.delay d] }) (hlog ▸ h : Plays b _ es y)
        (passive_tail hp rfl)
    | diag d => exact ih (x := x.log (.diag d)) h hp
    | rd32 p v => exact h.elim
    | wr32 p v => exact h.elim
    | visit _ _ _ => exact h.elim

/-- Register writes leave the registers alone that none of them names. -/
theorem answers_untouched {f g : RegFile} {es : List Event} {q : Reg}
    (h : Answers b f es g)
    (hes : ∀ e ∈ es, ∃ r v, e = .wr8 (b.portOf r) v ∧ q ≠ r) : g.get q = f.get q := by
  induction es generalizing f with
  | nil => rw [show g = f from h]
  | cons e es ih =>
    obtain ⟨⟨r, v, rfl, hq⟩, hrest⟩ := List.forall_mem_cons.1 hes
    rw [ih ((answers_wr8 hb).1 h) hrest, RegFile.get_portWrite_other _ _ hq]

end

/-- A write that StartTransfer can make in a transfer of type ty: not of the status register, and of host-control the
start byte only. -/
def StartWrite (b : Binding) (ty : Xfer) (ev : Event) : Prop :=
  ∃ r v, ev = .wr8 (b.portOf r) v ∧ .sts ≠ r ∧ (r = .hostcnt → v = startByte b.params ty)

theorem startWrite_of {b : Binding} {ty : Xfer} {r : Reg} (hr : .sts ≠ r ∧ r ≠ .hostcnt) (v : Byte) :
    StartWrite b ty (.wr8 (b.portOf r) v) :=
  ⟨r, v, rfl, hr.1, fun h => absurd h hr.2⟩

theorem operandEvents_writes (b : Binding) (e : Engine) (ty : Xfer) : ∀ ev ∈ operandEvents b e, StartWrite b ty ev := by
  have hcmd : ∀ v, StartWrite b ty (.wr8 (b.portOf .cmd) v) := startWrite_of (by simp)
  have hcount : ∀ v, StartWrite b ty (.wr8 (b.portOf .count) v) := startWrite_of (by simp)
  have hwin : ∀ k v, StartWrite b ty (.wr8 (b.portOf (winReg k)) v) := fun k => startWrite_of (by simp [winReg])
  unfold operandEvents windowWriteEvents
  cases e.type <;> cases e.rw <;> simp [hcmd, hcount, hwin, or_imp, forall_and]
  rintro _ k - - rfl
  exact hwin k _

theorem startEvents_writes (b : Binding) (e : Engine) : ∀ ev ∈ startEvents b e, StartWrite b e.type ev := by
  simp only [startEvents, List.forall_mem_cons, List.forall_mem_append]
  exact ⟨startWrite_of (by simp) _, operandEvents_writes b e _, ⟨.hostcnt, _, rfl, by simp, fun _ => rfl⟩, nofun⟩

/-- R31, R170: all-ones clear the status register. -/
theorem portWrite_sts_all (f : RegFile) : f.portWrite .sts 0xFF#8 = { f with sts := 0#8 } := by
  have hclear : f.sts &&& ~~~0xFF#8 = 0#8 := BitVec.and_zero
  simp only [RegFile.portWrite, RegFile.set, writtenValue, RegFile.get, hclear]

/-! ### Busy bits that stay set -/

/-- The register file after the kill. -/
def RegFile.killed (f : RegFile) (p : Params) : RegFile := { f with hostcnt := killByte p }

/-- R152, R153: before the first re-check and after the kill alike, a re-check reads the control register as it was. -/
theorem answers_recheck {b : Binding} (hb : b.Wired) {f g : RegFile} {n : Nat} {c : Byte} {fs : List Event}
    (h : Answers b (if n = 0 then f else f.killed b.params)
      (beforeRecheckEvents b n ++ .rd8 (b.portOf .cnt) c :: fs) g) :
    c = f.cnt ∧ Answers b (f.killed b.params) fs g := by
  unfold beforeRecheckEvents at h
  by_cases hn : n = 0
  · rw [if_pos hn, if_pos hn] at h
    exact (answers_rd8 hb).1 ((answers_wr8 hb).1 h :)
  · rw [if_neg hn, if_neg hn] at h
    exact (answers_rd8 hb).1 h

/-- A pass on whose register file a busy bit stays set (R151 to R154). -/
inductive StaysBusy (p : Params) (f : RegFile) (x : PortSide) (e : Engine) : Prop
  | checking (hs : e.st = .busyCheck) (hp : x.Passive) (hf : x.regs = f)
  | rechecking (hs : e.st = .recover) (hp : x.Passive) (hf : x.regs = if e.retry = 0 then f else f.killed p)
  | spent (hs : e.st = .clearSticky) (hp : x.Passive) (hf : x.regs = f.killed p) (hfail : e.fail = .busContention)
  | ended (hs : e.st.accepting = true) (hf : x.regs = { f.killed p with sts := 0#8 }) (hfail : e.fail = .busContention)

theorem staysBusy_kept {b : Binding} (hb : b.Wired) {f : RegFile} (hbusy : isBusy b.params f.cnt = true)
    (e₀ : Engine) : KeptByPhases b e₀ fun _ x e => StaysBusy b.params f x e := by
  intro es x e fs y e' hu hJ hend hplays
  cases hJ with
  | checking hs hp hf =>
    obtain ⟨hy, ha⟩ := hplays.answers hb hp
    cases hend with
    | busyCheck _ c =>
      obtain ⟨rfl, hg⟩ := (answers_rd8 hb).1 ha
      rw [hf] at hg ⊢
      exact .rechecking (if_pos hbusy) hy (by rw [if_pos (hu.onPass.start hs)]; exact hg)
    | _ hs' => cases hs.symm.trans hs'
  | rechecking hs hp hf =>
    obtain ⟨hy, ha⟩ := hplays.answers hb hp
    cases hend with
    | recover _ c h =>
      rw [hf] at ha
      obtain ⟨rfl, hg⟩ := answers_recheck hb ha
      cases h with
      | free hfree => cases hfree.symm.trans hbusy
      | again _ _ => exact .rechecking hs hy hg
      | spent _ _ => exact .spent rfl hy hg rfl
    | _ hs' => cases hs.symm.trans hs'
  | spent hs hp hf hfail =>
    obtain ⟨hy, ha⟩ := hplays.answers hb hp
    cases hend with
    | clearSticky _ =>
      have hg : y.regs = x.regs.portWrite .sts 0xFF#8 := (answers_wr8 hb).1 ha
      refine .ended (by dsimp only; split <;> rfl) ?_ hfail
      rw [hg, hf, portWrite_sts_all]
    | _ hs' => cases hs.symm.trans hs'
  | ended hs => cases hs.symm.trans hend.running

theorem count_recheckEvents_succ (b : Binding) (d : DelayKind) (n : Nat) (cs : List Byte) :
    (recheckEvents b (n + 1) cs).count (.delay d) = if d = .recheck then cs.length else 0 := by
  induction cs generalizing n with
  | nil => simp [recheckEvents]
  | cons c cs ih => cases d <;> simp_all [recheckEvents, beforeRecheckEvents]

/-- One kill delay, and re-check delays before the other re-checks (R152, R153). -/
theorem count_recheckEvents (b : Binding) {cs : List Byte} {n : Nat} (h : cs.length = n + 1) :
    (recheckEvents b 0 cs).count (.delay .kill) = 1 ∧ (recheckEvents b 0 cs).count (.delay .recheck) = n := by
  obtain ⟨c, cs, rfl⟩ := List.exists_cons_of_length_eq_add_one h
  simp_all [recheckEvents, beforeRecheckEvents, count_recheckEvents_succ]

/-- Settles O41: the pass ends with code 3, and its record is then the one of ten re-checks. -/
theorem busyBitsThatNeverClear : Obligations.BusyBitsThatNeverClear := by
  intro i s hi hw hs hhw hv hp hbusy
  obtain ⟨⟨ty, rw, sa, cmd, data⟩, ho⟩ := Option.isSome_iff_exists.1 hi
  have h := exec_smb_ready ho hw hs
  generalize runPass (latchSmb s ty rw sa cmd data) = t at h
  have hb : s.binding.Wired := ⟨hhw, hv, hs.2.1, hs.2.2⟩
  have hJ := pass_invariant ho h (.checking rfl hp rfl) (staysBusy_kept hb hbusy _)
  have hend := pass_ended ho h
  obtain ⟨hfail, hregs⟩ : t.eng.fail = .busContention ∧
      t.side.regs = { s.side.regs.killed s.binding.params with sts := 0#8 } := by
    cases hJ with
    | ended _ hf hfail => exact ⟨hfail, hf⟩
    | checking hs => simp [hs] at hend
    | rechecking hs => simp [hs] at hend
    | spent hs => simp [hs] at hend
  obtain ⟨c, cs, hlen, hretry, -, hrecord⟩ := busContention_record ho h hfail
  obtain ⟨hkill, hrecheck⟩ := count_recheckEvents s.binding hlen
  refine ⟨t, h, hfail ▸ (pass_underway ho h).inv.failedWith hend (by simp [hfail]), hretry, ?_, ?_, ?_, hregs⟩
  · rw [hrecord, portCount, filter_isPort_contention _ _ (by simp [hlen])]
    simp [hlen]
  · simp [hrecord, hkill]
  · simp [hrecord, hrecheck]

end Sys2Proof.Machine
end

section
/-! Passes that fail at their polls, on hardware whose environment changes nothing (41_smbus_fsm.md R155 to R163).
`FailsAt` follows a pass on which every poll finds the same status value: an error bit ends it at the first poll, and a
value that shows nothing at the fortieth. -/

namespace Sys2Proof.Machine

/-! ### What is counted in the record -/

/-- A record with n status reads that found v and n poll delays, and no kill in it. -/
structure Polled (b : Binding) (v : Byte) (n : Nat) (es : List Event) : Prop where
  reads : es.count (.rd8 (b.portOf .sts) v) = n
  delays : es.count (.delay .poll) = n
  noKill : .wr8 (b.portOf .hostcnt) (killByte b.params) ∉ es

namespace Polled

variable {b : Binding} {v : Byte} {m n : Nat} {es fs : List Event}

theorem append (h : Polled b v m es) (k : Polled b v n fs) : Polled b v (m + n) (es ++ fs) :=
  ⟨by rw [List.count_append, h.reads, k.reads], by rw [List.count_append, h.delays, k.delays],
    by simp [h.noKill, k.noKill]⟩

theorem nil : Polled b v 0 [] := ⟨rfl, rfl, nofun⟩

theorem diag (d : Diag) : Polled b v 0 [.diag d] := ⟨by simp, by simp, by simp⟩

theorem poll : Polled b v 1 [.delay .poll, .rd8 (b.portOf .sts) v] := ⟨by simp, by simp, by simp⟩

theorem read (hv : b.params.Valid) {r : Reg} (hr : r ≠ .sts) (w : Byte) : Polled b v 0 [.rd8 (b.portOf r) w] :=
  ⟨by simpa [List.count_singleton] using fun hp _ => hr (portOf_inj hv hp), by simp, by simp⟩

theorem write (hv : b.params.Valid) {r : Reg} (hr : r ≠ .hostcnt) (w : Byte) : Polled b v 0 [.wr8 (b.portOf r) w] :=
  ⟨by simp, by simp, by simpa using fun hp _ => hr (portOf_inj hv hp.symm)⟩

/-- R112: the start bytes differ from the kill. -/
theorem startByte_ne_killByte {p : Params} (hv : p.Valid) (t : Xfer) : killByte p ≠ startByte p t := by
  have hn := hv.hostControl_nodup
  simp only [Params.hostControlBytes, List.nodup_cons, List.mem_cons, not_or] at hn
  obtain ⟨⟨hq, hby, hbd, hbl, -⟩, -⟩ := hn
  cases t <;> assumption

theorem start (hv : b.params.Valid) (e : Engine) : Polled b v 0 (startEvents b e) := by
  have hwrites := startEvents_writes b e
  refine ⟨List.count_eq_zero.2 fun hm => ?_, List.count_eq_zero.2 fun hm => ?_, fun hm => ?_⟩
  · obtain ⟨r, w, hw, -⟩ := hwrites _ hm
    cases hw
  · obtain ⟨r, w, hw, -⟩ := hwrites _ hm
    cases hw
  · obtain ⟨r, w, hw, -, hbyte⟩ := hwrites _ hm
    obtain ⟨hp, rfl⟩ := Event.wr8.inj hw
    exact startByte_ne_killByte hv e.type (hbyte (portOf_inj hv hp).symm)

theorem flags (hv : b.params.Valid) (c : Byte) : Polled b v 0 (clearFlagsEvents b c) :=
  ((read hv (by simp) c).append (write hv (r := .cnt) (by simp) _)).append (write hv (r := .sts) (by simp) _)

end Polled

/-! ### The status register up to the polls -/

/-- R155: after ClearFlags the status register holds what the pre-clear has left. -/
theorem answers_clearFlags {b : Binding} (hb : b.Wired) {f g : RegFile} {c : Byte}
    (h : Answers b f (clearFlagsEvents b c) g) : g.sts = f.sts &&& ~~~b.params.stsPreclear := by
  rw [show g = _ from (answers_wr8 hb).1 ((answers_wr8 hb).1 ((answers_rd8 hb).1 h).2)]
  rfl

theorem answers_startEvents {b : Binding} (hb : b.Wired) {f g : RegFile} {e : Engine}
    (h : Answers b f (startEvents b e) g) : g.sts = f.sts :=
  answers_untouched hb (q := .sts) h fun ev hm => by
    obtain ⟨r, v, hev, hr, -⟩ := startEvents_writes b e ev hm
    exact ⟨r, v, hev, hr⟩

/-! ### The pass -/

/-- Every poll of a pass that reads v goes on while fewer than n have been made, and the n-th raises the failure k
(R161 to R163, R229). -/
def FailingStatus (b : Binding) (ty : Xfer) (v : Byte) (k : FailCode) (n : Nat) : Prop :=
  ∀ (e f : Engine) (fs : List Event), e.type = ty → e.poll < n → PollEnd b e v f fs →
    (e.poll + 1 < n ∧ f = { e with s := v, poll := e.poll + 1 } ∧ fs = []) ∨
      (e.poll + 1 = n ∧ f = { e with s := v, poll := e.poll + 1, fail := k, st := .clearSticky } ∧ ∃ d, fs = [.diag d])

theorem failingStatus_error {b : Binding} {v : Byte} (h : isError b.params v = true) (ty : Xfer) :
    FailingStatus b ty v .transferFailure 1 := by
  intro e f fs _ hlt hend
  cases hend with
  | error he => exact .inr ⟨by omega, rfl, _, rfl⟩
  | _ he => cases he.symm.trans h

theorem failingStatus_timeout {b : Binding} {v : Byte} {ty : Xfer} (he : isError b.params v = false)
    (hc : isComplete b.params ty v = false) : FailingStatus b ty v .transferTimeout 40 := by
  rintro e f fs rfl hlt hend
  cases hend with
  | error he' => cases he'.symm.trans he
  | fetched _ hc' => cases hc'.symm.trans hc
  | complete _ hc' => cases hc'.symm.trans hc
  | timeout _ _ hp => exact .inr ⟨hp, rfl, _, rfl⟩
  | pending _ _ hp => exact .inl ⟨by omega, rfl, rfl⟩

/-- A pass without busy bits on which every poll reads v, on its way to the n-th poll and the failure k. -/
inductive FailsAt (b : Binding) (f : RegFile) (v : Byte) (k : FailCode) (n : Nat) (es : List Event) (x : PortSide)
    (e : Engine) : Prop
  | checking (hs : e.st = .busyCheck) (hp : x.Passive) (hf : x.regs = f) (hes : Polled b v 0 es)
  | clearing (hs : e.st = .clearFlags) (hp : x.Passive) (hf : x.regs = f) (hes : Polled b v 0 es)
  | starting (hs : e.st = .startTransfer) (hp : x.Passive) (hf : x.regs.sts = v) (hes : Polled b v 0 es)
  | polling (hs : e.st = .pollComplete) (hp : x.Passive) (hf : x.regs.sts = v) (hes : Polled b v e.poll es)
      (hn : e.poll < n)
  | raised (hs : e.st = .clearSticky) (hp : x.Passive) (hes : Polled b v n es) (hfail : e.fail = k) (hn : e.poll = n)
  | ended (hs : e.st.accepting = true) (hf : x.regs.sts = 0#8) (hes : Polled b v n es) (hfail : e.fail = k)
      (hn : e.poll = n)

theorem failsAt_kept {b : Binding} (hb : b.Wired) {f : RegFile} {v : Byte} {k : FailCode} {n : Nat}
    {e₀ : Engine} (hn : 0 < n) (hsts : f.sts &&& ~~~b.params.stsPreclear = v)
    (hbusy : isBusy b.params f.cnt = false) (hfails : FailingStatus b e₀.type v k n) :
    KeptByPhases b e₀ (FailsAt b f v k n) := by
  intro es x e fs y e' hu hJ hend hplays
  have hv := hb.valid
  cases hJ with
  | checking hs hp hf hes =>
    obtain ⟨hy, ha⟩ := hplays.answers hb hp
    rw [hf] at ha
    cases hend with
    | busyCheck _ c =>
      obtain ⟨rfl, hg⟩ := (answers_rd8 hb).1 ha
      exact .clearing (if_neg (by simpa [RegFile.get] using hbusy)) hy hg (hes.append (.read hv (by simp) _))
    | _ hs' => cases hs.symm.trans hs'
  | clearing hs hp hf hes =>
    obtain ⟨hy, ha⟩ := hplays.answers hb hp
    rw [hf] at ha
    cases hend with
    | clearFlags _ c => exact .starting rfl hy ((answers_clearFlags hb ha).trans hsts) (hes.append (.flags hv c))
    | _ hs' => cases hs.symm.trans hs'
  | starting hs hp hf hes =>
    obtain ⟨hy, ha⟩ := hplays.answers hb hp
    cases hend with
    | startTransfer _ =>
      exact .polling rfl hy ((answers_startEvents hb ha).trans hf) (hes.append (.start hv e)) hn
    | _ hs' => cases hs.symm.trans hs'
  | polling hs hp hf hes hlt =>
    obtain ⟨hy, ha⟩ := hplays.answers hb hp
    cases hend with
    | pollComplete _ w h =>
      obtain ⟨hread, hg⟩ := (answers_rd8 hb).1 (show Answers b x.regs (.rd8 (b.portOf .sts) w :: _) y.regs from ha)
      obtain rfl : w = v := hread.trans hf
      obtain ⟨hlt', rfl, rfl⟩ | ⟨rfl, rfl, d, rfl⟩ := hfails e e' _ hu.operands.type hlt h
      · exact .polling hs hy ((congrArg RegFile.sts hg).trans hf) (hes.append .poll) hlt'
      · exact .raised rfl hy (hes.append (Polled.poll.append (.diag d))) rfl rfl
    | _ hs' => cases hs.symm.trans hs'
  | raised hs hp hes hfail hpoll =>
    obtain ⟨hy, ha⟩ := hplays.answers hb hp
    cases hend with
    | clearSticky _ =>
      have hg : y.regs = x.regs.portWrite .sts 0xFF#8 := (answers_wr8 hb).1 ha
      exact .ended (by dsimp only; split <;> rfl) (by rw [hg, portWrite_sts_all])
        (hes.append (.write hv (r := .sts) (by simp) _)) hfail hpoll
    | _ hs' => cases hs.symm.trans hs'
  | ended hs => cases hs.symm.trans hend.running

/-- The end of such a pass. -/
theorem failsAt_end {i : Instr} {s t : State} {ty : Xfer} {rw : Dir} {sa : BitVec 7} {cmd : Byte} {data : List Byte}
    (ho : smbOperands i = some (ty, rw, sa, cmd, data)) (h : exec i s = .next t) (hb : s.binding.Wired)
    (hp : s.side.Passive) (hbusy : isBusy s.binding.params s.side.regs.cnt = false) {k : FailCode} {n : Nat}
    (hn : 0 < n) (hk : k ≠ .noFailure)
    (hfails : FailingStatus s.binding ty (s.side.regs.sts &&& ~~~s.binding.params.stsPreclear) k n) :
    t.eng.failedWith k ∧ t.eng.poll = n ∧ t.side.regs.sts = 0#8 ∧
      Polled s.binding (s.side.regs.sts &&& ~~~s.binding.params.stsPreclear) n (newEvents s t) := by
  have hend := pass_ended ho h
  have hfailed := (pass_underway ho h).inv.failedWith hend
  cases pass_invariant ho h (.checking rfl hp rfl .nil) (failsAt_kept hb hn rfl hbusy hfails) with
  | ended _ hf hes hfail hpoll => exact ⟨hfail ▸ hfailed (hfail ▸ hk), hpoll, hf, hes⟩
  | checking hs => simp [hs] at hend
  | clearing hs => simp [hs] at hend
  | starting hs => simp [hs] at hend
  | polling hs => simp [hs] at hend
  | raised hs => simp [hs] at hend

/-! ### The obligations -/

/-- Settles O43: a status value that shows nothing fails the pass at its fortieth poll. -/
theorem timeoutAfterFortyPolls : Obligations.TimeoutAfterFortyPolls := by
  intro i s ty rw sa cmd data ho hw hs hhw hv hp hbusy v he hd hbf
  have h := exec_smb_ready ho hw hs
  have hc : isComplete s.binding.params ty v = false := by
    rw [← Bool.not_eq_true, isComplete_iff, hd]
    simpa using hbf
  obtain ⟨hfail, hpoll, -, hreads, hdelays, hkill⟩ := failsAt_end ho h ⟨hhw, hv, hs.2.1, hs.2.2⟩ hp hbusy (by omega)
    (by simp) (failingStatus_timeout he hc)
  exact ⟨_, h, hfail, hpoll, hreads, hdelays, hkill⟩

/-- Settles O44: a status value with an error bit fails the pass at its first poll. -/
theorem anErrorBitWins : Obligations.AnErrorBitWins := by
  intro i s hi hw hs hhw hv hp hbusy he
  obtain ⟨⟨ty, rw, sa, cmd, data⟩, ho⟩ := Option.isSome_iff_exists.1 hi
  have h := exec_smb_ready ho hw hs
  obtain ⟨hfail, hpoll, hsts, -⟩ := failsAt_end ho h ⟨hhw, hv, hs.2.1, hs.2.2⟩ hp hbusy (by omega) (by simp)
    (failingStatus_error he ty)
  exact ⟨_, h, hfail, hpoll, hsts⟩

end Sys2Proof.Machine
end

section
/-! Busy bits that clear after the kill (41_smbus_fsm.md R152, R153; example E6): the one pass followed step by step in
an environment that makes one change. -/

namespace Sys2Proof.Machine

/-! ### Steps before which the environment moves -/

theorem envStep_still {x : PortSide} {rest : List (List EnvAct)} (h : x.env = [] :: rest) :
    envStep x = { x with env := rest } := by
  simp [envStep, h]

theorem envStep_setReg {x : PortSide} {r : Reg} {v : Byte} {rest : List (List EnvAct)}
    (h : x.env = [.setReg r v] :: rest) : envStep x = { x with regs := x.regs.set r v, env := rest } := by
  simp [envStep, h, applyAct]

section
variable {b : Binding} (hb : b.Wired) {x y : PortSide} {r : Reg} {v : Byte} {es : List Event}
include hb

theorem plays_rd8 : Plays b x (.rd8 (b.portOf r) v :: es) y ↔
    v = (envStep x).regs.get r ∧ Plays b ((envStep x).log (.rd8 (b.portOf r) ((envStep x).regs.get r))) es y := by
  have hread : x.read8 b (b.portOf r) =
      ((envStep x).regs.get r, (envStep x).log (.rd8 (b.portOf r) ((envStep x).regs.get r))) := by
    simp only [PortSide.read8, hb.hardware, hb.target]
    rfl
  rw [Plays, hread]

theorem plays_wr8 : Plays b x (.wr8 (b.portOf r) v :: es) y ↔
    Plays b ({ envStep x with regs := (envStep x).regs.portWrite r v }.log (.wr8 (b.portOf r) v)) es y := by
  have hwrite : x.write8 b (b.portOf r) v =
      { envStep x with regs := (envStep x).regs.portWrite r v }.log (.wr8 (b.portOf r) v) := by
    simp [PortSide.write8, hb.hardware, hb.target, writeByteAt]
  rw [Plays, hwrite]

end

/-! ### The pass -/

/-- The record up to the first re-check. -/
def killEvents (b : Binding) (c c' : Byte) : List Event :=
  [.rd8 (b.portOf .cnt) c, .wr8 (b.portOf .hostcnt) (killByte b.params), .delay .kill, .rd8 (b.portOf .cnt) c']

/-- The writes of StartTransfer for `SMB_WRITE_QUICK` (R158). -/
def quickWriteEvents (b : Binding) (sa : BitVec 7) : List Event :=
  [.wr8 (b.portOf .addr) (addrByte sa .write), .wr8 (b.portOf .hostcnt) (startByte b.params .quick)]

/-- The pass of `SMB_WRITE_QUICK` on the register file f, whose control register the environment changes to c' before
the first re-check, with v the status value after the pre-clear: where it is, and what it has recorded. -/
inductive ClearsAfterKill (b : Binding) (f : RegFile) (c' v : Byte) (rest : List (List EnvAct)) (sa : BitVec 7) :
    List Event → PortSide → Engine → Prop
  | checking {x : PortSide} {e : Engine} (hs : e.st = .busyCheck)
      (henv : x.env = [] :: [] :: [] :: [.setReg .cnt c'] :: rest) (hf : x.regs = f) :
      ClearsAfterKill b f c' v rest sa [] x e
  | killing {x : PortSide} {e : Engine} (hs : e.st = .recover) (hr : e.retry = 0)
      (henv : x.env = [] :: [] :: [.setReg .cnt c'] :: rest) (hf : x.regs = f) :
      ClearsAfterKill b f c' v rest sa [.rd8 (b.portOf .cnt) f.cnt] x e
  | clearing {x : PortSide} {e : Engine} (hs : e.st = .clearFlags) (hr : e.retry = 1) (hp : x.Passive)
      (hcnt : x.regs.cnt = c') (hsts : x.regs.sts = f.sts) :
      ClearsAfterKill b f c' v rest sa (killEvents b f.cnt c') x e
  | starting {x : PortSide} {e : Engine} (hs : e.st = .startTransfer) (hr : e.retry = 1) (hp : x.Passive)
      (hsts : x.regs.sts = v) :
      ClearsAfterKill b f c' v rest sa (killEvents b f.cnt c' ++ clearFlagsEvents b c') x e
  | polling {x : PortSide} {e : Engine} (hs : e.st = .pollComplete) (hr : e.retry = 1) (hp : x.Passive)
      (hsts : x.regs.sts = v) :
      ClearsAfterKill b f c' v rest sa
        (killEvents b f.cnt c' ++ clearFlagsEvents b c' ++ quickWriteEvents b sa) x e
  | ending {x : PortSide} {e : Engine} (hs : e.st = .clearSticky) (hr : e.retry = 1) (hfail : e.fail = .noFailure) :
      ClearsAfterKill b f c' v rest sa
        (killEvents b f.cnt c' ++ clearFlagsEvents b c' ++ quickWriteEvents b sa ++
          [.delay .poll, .rd8 (b.portOf .sts) v]) x e
  | ended {x : PortSide} {e : Engine} (hs : e.st.accepting = true) (hr : e.retry = 1) (hfail : e.fail = .noFailure) :
      ClearsAfterKill b f c' v rest sa
        (killEvents b f.cnt c' ++ clearFlagsEvents b c' ++ quickWriteEvents b sa ++
          [.delay .poll, .rd8 (b.portOf .sts) v] ++ [.wr8 (b.portOf .sts) Config.STS_CLEAR_ALL]) x e

/-- The first re-check, after the kill and its delay, finds what the environment has put into the control register. -/
theorem plays_firstRecheck {b : Binding} (hb : b.Wired) {x y : PortSide} {c c' : Byte} {rest : List (List EnvAct)}
    (henv : x.env = [] :: [] :: [.setReg .cnt c'] :: rest)
    (h : Plays b x (beforeRecheckEvents b 0 ++ [.rd8 (b.portOf .cnt) c]) y) :
    c = c' ∧ y.env = rest ∧ y.regs.cnt = c' ∧ y.regs.sts = x.regs.sts := by
  have hkill : Plays b _ [.delay .kill, .rd8 (b.portOf .cnt) c] y := (plays_wr8 hb).1 h
  rw [envStep_still henv, Plays, envStep_still rfl, plays_rd8 hb, envStep_setReg rfl] at hkill
  obtain ⟨rfl, rfl⟩ := hkill
  exact ⟨rfl, rfl, rfl, rfl⟩

theorem clearsAfterKill_kept {b : Binding} (hb : b.Wired) {f : RegFile} {c' v : Byte} {rest : List (List EnvAct)}
    {sa : BitVec 7} {e₀ : Engine} (ht₀ : e₀.type = .quick) (hr₀ : e₀.rw = .write) (hsa : e₀.sa = sa)
    (hrest : ∀ acts ∈ rest, acts = []) (hbusy : isBusy b.params f.cnt = true) (hfree : isBusy b.params c' = false)
    (hsts₀ : f.sts &&& ~~~b.params.stsPreclear = v) (he : isError b.params v = false)
    (hd : isDone b.params v = true) : KeptByPhases b e₀ (ClearsAfterKill b f c' v rest sa) := by
  intro es x e fs y e' hu hJ hend hplays
  have ht := hu.operands.type.trans ht₀
  have hrw := hu.operands.rw.trans hr₀
  cases hJ with
  | checking hs henv hf =>
    cases hend with
    | busyCheck _ c =>
      obtain ⟨rfl, rfl⟩ := (plays_rd8 hb).1 hplays
      rw [envStep_still henv, hf]
      exact .killing (if_pos hbusy) (hu.onPass.start hs) rfl rfl
    | _ hs' => cases hs.symm.trans hs'
  | killing hs hr henv hf =>
    cases hend with
    | recover _ c h =>
      rw [hr] at hplays ⊢
      cases h with
      | free hc =>
        obtain ⟨rfl, hyenv, hcnt, hsts⟩ := plays_firstRecheck hb henv hplays
        exact .clearing rfl (by simp [hr]) (fun acts hm => hrest acts (hyenv ▸ hm)) hcnt (hf ▸ hsts)
      | again hc _ =>
        obtain ⟨rfl, -⟩ := plays_firstRecheck hb henv hplays
        cases hc.symm.trans hfree
      | spent _ hten => simp [hr] at hten
    | _ hs' => cases hs.symm.trans hs'
  | clearing hs hr hp hcnt hsts =>
    obtain ⟨hy, ha⟩ := hplays.answers hb hp
    cases hend with
    | clearFlags _ c =>
      obtain rfl : c = c' := ((answers_rd8 hb).1 ha).1.trans hcnt
      exact .starting rfl hr hy (by rw [answers_clearFlags hb ha, hsts, hsts₀])
    | _ hs' => cases hs.symm.trans hs'
  | starting hs hr hp hsts =>
    obtain ⟨hy, ha⟩ := hplays.answers hb hp
    cases hend with
    | startTransfer _ =>
      have hevents : startEvents b e = quickWriteEvents b sa := by
        rw [startEvents, operandEvents, ht, hrw, hu.operands.sa, hsa]
        rfl
      rw [hevents]
      exact .polling rfl hr hy ((answers_startEvents hb ha).trans hsts)
    | _ hs' => cases hs.symm.trans hs'
  | polling hs hr hp hsts =>
    obtain ⟨hy, ha⟩ := hplays.answers hb hp
    cases hend with
    | pollComplete _ w h =>
      obtain ⟨hread, -⟩ := (answers_rd8 hb).1 (show Answers b x.regs (.rd8 (b.portOf .sts) w :: _) y.regs from ha)
      obtain rfl : w = v := hread.trans hsts
      have hc : isComplete b.params e.type w = true := isComplete_iff.2 (.inl hd)
      cases h with
      | complete _ _ _ =>
        exact .ending (by rw [Engine.afterCompletion, ht]) hr (hu.inv.fail_none (by simp [hs]) (by simp [hs]))
      | error he' => cases he'.symm.trans he
      | fetched _ _ hf => cases hrw.symm.trans hf.2
      | timeout _ hc' => cases hc'.symm.trans hc
      | pending _ hc' => cases hc'.symm.trans hc
    | _ hs' => cases hs.symm.trans hs'
  | ending hs hr hfail =>
    cases hend with
    | clearSticky _ => exact .ended (by dsimp only; split <;> rfl) hr hfail
    | _ hs' => cases hs.symm.trans hs'
  | ended hs => cases hs.symm.trans hend.running

/-- Settles O42, by the pass step by step, its last state the only one in which it can have ended. -/
theorem busyBitsThatClearAfterTheKill : Obligations.BusyBitsThatClearAfterTheKill := by
  intro sa s c' rest hs hhw hv henv hrest hbusy hfree he hd
  have ho : smbOperands (.smbWriteQuick sa) = some (.quick, .write, sa, 0#8, []) := rfl
  have h := exec_smb_ready ho rfl hs
  have hend := pass_ended ho h
  have hJ := pass_invariant ho h (.checking rfl henv rfl)
    (clearsAfterKill_kept ⟨hhw, hv, hs.2.1, hs.2.2⟩ rfl rfl rfl hrest hbusy hfree rfl he hd)
  refine ⟨_, h, ?_⟩
  have hresult := (pass_underway ho h).inv.succeeded hend
  generalize newEvents s _ = es at hJ ⊢
  cases hJ with
  | ended _ hr hfail => exact ⟨hresult hfail, hr, rfl⟩
  | checking hs => simp [hs] at hend
  | killing hs => simp [hs] at hend
  | clearing hs => simp [hs] at hend
  | starting hs => simp [hs] at hend
  | polling hs => simp [hs] at hend
  | ending hs => simp [hs] at hend

end Sys2Proof.Machine
end

section
/-! Passes step by step on hardware whose environment changes nothing (20_memory.md R68, R80). `State.played` is the
machine after a record of steps, with the engine's registers and the register file that the record has left, and each
phase has one equation over it; `Passes` chains phases, and a chain that ends the pass is the pass (`exec_of_passes`).
`passes_firstPoll` takes a pass of any operation through its first poll. -/

namespace Sys2Proof.Machine

/-! ### Machines after a record of steps -/

/-- The far side x after the events es, each of which has used up one entry of the environment's input, with the
register file f that they have left. -/
def PortSide.played (x : PortSide) (f : RegFile) (es : List Event) : PortSide :=
  { x with regs := f, env := x.env.drop es.length, trace := x.trace ++ es }

/-- The machine s after the events es, with the engine's registers e and the register file f. -/
def State.played (s : State) (e : Engine) (f : RegFile) (es : List Event) : State :=
  { s with eng := e, side := s.side.played f es }

section
variable (s : State) (e e' : Engine) (f : RegFile) (es : List Event)

@[simp] theorem State.played_eng : (s.played e f es).eng = e := rfl
@[simp] theorem State.played_binding : (s.played e f es).binding = s.binding := rfl
@[simp] theorem State.played_side : (s.played e f es).side = s.side.played f es := rfl
@[simp] theorem State.played_setEng : (s.played e f es).setEng e' = s.played e' f es := rfl
@[simp] theorem goTo_played (p : Phase) : goTo (s.played e f es) p = s.played { e with st := p } f es := rfl
@[simp] theorem setGot_played (n : Nat) : setGot (s.played e f es) n = s.played { e with got := n } f es := rfl

theorem State.setEng_eq_played : s.setEng e = s.played e s.side.regs [] := by
  simp [State.played, PortSide.played, State.setEng]

theorem newEvents_played : newEvents s (s.played e f es) = es := newEvents_of_append rfl

end

/-- Hardware with its base bound, on which the environment makes no change of its own. -/
structure State.Still (s : State) : Prop where
  wired : s.binding.Wired
  passive : s.side.Passive

section
variable {s : State} (hs : s.Still) (e : Engine) (f : RegFile) (es : List Event)
include hs

theorem State.Still.envStep_played :
    envStep (s.side.played f es) = { s.side.played f es with env := s.side.env.drop (es.length + 1) } := by
  have hp : (s.side.played f es).Passive := fun acts h => hs.passive acts (List.mem_of_mem_drop h)
  rw [envStep_passive hp]
  simp [PortSide.played]

/-- One more event, which leaves the register file g. -/
theorem State.Still.log_played (g : RegFile) (ev : Event) :
    { envStep (s.side.played f es) with regs := g }.log ev = s.side.played g (es ++ [ev]) := by
  rw [hs.envStep_played]
  simp [PortSide.played, PortSide.log]

theorem State.Still.read8_played (r : Reg) :
    (s.side.played f es).read8 s.binding (s.binding.portOf r) =
      (f.get r, s.side.played f (es ++ [.rd8 (s.binding.portOf r) (f.get r)])) := by
  rw [← hs.log_played, PortSide.read8, hs.wired.hardware, hs.wired.target, hs.envStep_played]
  rfl

theorem State.Still.write8_played (r : Reg) (v : Byte) :
    (s.side.played f es).write8 s.binding (s.binding.portOf r) v =
      s.side.played (f.portWrite r v) (es ++ [.wr8 (s.binding.portOf r) v]) := by
  rw [← hs.log_played, PortSide.write8, hs.wired.hardware, hs.wired.target, hs.envStep_played]
  rfl

theorem State.Still.regVal_played (r : Reg) : regVal (s.played e f es) r = f.get r :=
  congrArg Prod.fst (hs.read8_played f es r)

theorem State.Still.afterReg_played (r : Reg) :
    afterReg (s.played e f es) r = s.played e f (es ++ [.rd8 (s.binding.portOf r) (f.get r)]) :=
  congrArg (fun q : Byte × PortSide => (s.played e f es).setSide q.2) (hs.read8_played f es r)

theorem State.Still.wrReg_played (r : Reg) (v : Byte) :
    wrReg (s.played e f es) r v = s.played e (f.portWrite r v) (es ++ [.wr8 (s.binding.portOf r) v]) :=
  congrArg (s.played e f es).setSide (hs.write8_played f es r v)

theorem State.Still.delay_played (d : DelayKind) :
    delay (s.played e f es) d = s.played e f (es ++ [.delay d]) := by
  have hlog := hs.log_played f es f (.delay d)
  rw [hs.envStep_played] at hlog
  rw [delay, State.played_side, hs.envStep_played]
  exact congrArg (s.played e f es).setSide hlog

/-! ### The phases of a pass that succeeds -/

/-- R151: no busy bit is set. -/
theorem State.Still.busyCheck_played (hfree : isBusy s.binding.params f.cnt = false) :
    busyCheck (s.played e f es) =
      s.played { e with c := f.cnt, st := .clearFlags } f (es ++ [.rd8 (s.binding.portOf .cnt) f.cnt]) := by
  simp [busyCheck, hs.regVal_played, hs.afterReg_played, RegFile.get, hfree]

/-- R155: the register file after ClearFlags. -/
def RegFile.cleared (f : RegFile) (p : Params) : RegFile :=
  { f with cnt := controlWriteback p f.cnt, sts := f.sts &&& ~~~p.stsPreclear }

theorem State.Still.clearFlags_played :
    clearFlags (s.played e f es) =
      s.played { e with c := f.cnt, st := .startTransfer } (f.cleared s.binding.params)
        (es ++ clearFlagsEvents s.binding f.cnt) := by
  simp only [clearFlags, readControl, hs.regVal_played, hs.afterReg_played, hs.wrReg_played, State.played_setEng,
    State.played_binding, State.played_eng, goTo_played, List.append_assoc]
  rfl

/-- R170: the end of a pass that has not failed. -/
theorem State.Still.clearSticky_played (hfail : e.fail = .noFailure) :
    clearSticky (s.played e f es) =
      s.played { e with ok := true, st := .done } { f with sts := 0#8 }
        (es ++ [.wr8 (s.binding.portOf .sts) 0xFF#8]) := by
  simp [clearSticky, endPass, hs.wrReg_played, Config.STS_CLEAR_ALL, portWrite_sts_all, hfail]

/-- R160 to R162: a poll that reads a completion and no error. -/
theorem State.Still.pollComplete_played (herr : isError s.binding.params f.sts = false)
    (hdone : isDone s.binding.params f.sts = true) :
    pollComplete (s.played e f es) =
      afterPoll (s.played { e with s := f.sts, poll := e.poll + 1 } f
        (es ++ [.delay .poll, .rd8 (s.binding.portOf .sts) f.sts])) := by
  simp [pollComplete, readStatus, judgeStatus, hs.delay_played, hs.regVal_played, hs.afterReg_played, RegFile.get, herr,
    isComplete, hdone]

/-- R164: the byte received. -/
theorem State.Still.fetchByte_played :
    fetchByte (s.played e f es) =
      s.played { e with rbuf := bufPut e.rbuf 0 f.win[0], rlen := 1, st := .clearSticky } f
        (es ++ [.rd8 (s.binding.portOf (.byte 0)) f.win[0]]) := by
  simp only [fetchByte, hs.regVal_played, hs.afterReg_played, State.played_setEng, State.played_eng]
  rfl

end

/-! ### Chains of phases -/

/-- One phase of a pass. -/
def PhaseStep (s t : State) : Prop := s.eng.st.accepting = false ∧ t = enginePhase s

/-- Phases one after another. -/
abbrev Passes : State → State → Prop := Relation.ReflTransGen PhaseStep

theorem PhaseStep.of_eq {s t : State} {p : Phase} (hst : s.eng.st = p) (hp : p.accepting = false)
    (h : enginePhase s = t) : PhaseStep s t := ⟨hst ▸ hp, h.symm⟩

/-- Fuel that ends the pass takes it to the end of any chain. -/
theorem Passes.runEngine {s t : State} (h : Passes s t) (ht : t.eng.st.accepting = true) {n : Nat}
    (hn : (runEngine n s).eng.st.accepting = true) : runEngine n s = t := by
  induction h using Relation.ReflTransGen.head_induction_on generalizing n with
  | refl => exact runEngine_accepting n t ht
  | head hstep _ ih =>
    obtain ⟨hst, rfl⟩ := hstep
    cases n with
    | zero => simp [Machine.runEngine, hst] at hn
    | succ n =>
      rw [Machine.runEngine, if_neg (by simp [hst])] at hn ⊢
      exact ih hn

theorem Passes.runPass {s t : State} {ty : Xfer} {rw : Dir} {sa : BitVec 7} {cmd : Byte} {data : List Byte}
    (h : Passes (latchSmb s ty rw sa cmd data) t) (hd : data.length ≤ 32) (ht : t.eng.st.accepting = true) :
    runPass (latchSmb s ty rw sa cmd data) = t :=
  h.runEngine ht (runPass_ends s ty rw sa cmd data hd)

/-- An accepted SMBus instruction answers the end of any chain of phases that ends its pass. -/
theorem exec_of_passes {i : Instr} {s t : State} {ty : Xfer} {rw : Dir} {sa : BitVec 7} {cmd : Byte} {data : List Byte}
    (ho : smbOperands i = some (ty, rw, sa, cmd, data)) (hw : i.wellFormed = true) (hs : SmbReady s)
    (h : Passes (s.played (latchSmb s ty rw sa cmd data).eng s.side.regs []) t) (ht : t.eng.st.accepting = true) :
    exec i s = .next t := by
  rw [← State.setEng_eq_played] at h
  rw [exec_smb_ready ho hw hs, Passes.runPass h (smbOperands_length ho hw) ht]

theorem SmbReady.still {s : State} (h : SmbReady s) (hhw : s.binding.platform = .hardware)
    (hv : s.binding.params.Valid) (hp : s.side.Passive) : s.Still :=
  ⟨⟨hhw, hv, h.2.1, h.2.2⟩, hp⟩

/-! ### Buffers and the data window -/

theorem bufPut_of_lt {i : Nat} (hi : i < 32) (buf : Buffer) (v : Byte) : bufPut buf i v = buf.set i v := by
  refine Vector.ext fun j hj => ?_
  simp [bufPut, Vector.getElem_set, Vector.getElem_setIfInBounds]

theorem bufLoad_singleton (buf : Buffer) (v : Byte) : bufLoad buf 0 [v] = buf.set 0 v := bufPut_of_lt (by decide) buf v

theorem bufGet_set_zero (buf : Buffer) (v : Byte) : bufGet (buf.set 0 v) 0 = v := by simp [bufGet]

/-- The window after the first n entries of a buffer have been placed in it, eight to a group: each window byte holds
the last entry written to it (R158, R168). -/
def windowHolding (win : Vector Byte 8) (buf : Buffer) (n : Nat) : Vector Byte 8 :=
  Vector.ofFn fun i => if i.val < n then bufGet buf (i.val + 8 * ((n - 1 - i.val) / 8)) else win[i.val]

theorem windowHolding_zero (win : Vector Byte 8) (buf : Buffer) : windowHolding win buf 0 = win := by
  refine Vector.ext fun i hi => ?_
  simp [windowHolding]

/-- One more entry, n of them being in whole groups and i of them in the present one. -/
theorem windowHolding_succ {win : Vector Byte 8} {buf : Buffer} {n i : Nat} (hn : n % 8 = 0) (hi : i < 8) :
    (windowHolding win buf (n + i)).set i (bufGet buf (n + i)) = windowHolding win buf (n + i + 1) := by
  refine Vector.ext fun j hj => ?_
  simp only [windowHolding, Vector.getElem_set, Vector.getElem_ofFn]
  obtain rfl | hne := eq_or_ne i j
  · rw [if_pos rfl, if_pos (by omega)]
    congr 1
    omega
  · have hgroup : j < n + i → (n + i + 1 - 1 - j) / 8 = (n + i - 1 - j) / 8 := by omega
    rw [if_neg hne]
    by_cases hlt : j < n + i
    · rw [if_pos hlt, if_pos (by omega), hgroup hlt]
    · rw [if_neg hlt, if_neg (by omega)]

theorem portWrite_winReg (f : RegFile) {i : Nat} (hi : i < 8) (v : Byte) :
    f.portWrite (winReg i) v = { f with win := f.win.set i v } := by
  simp [RegFile.portWrite, RegFile.set, writtenValue, winReg, Nat.mod_eq_of_lt hi]

/-- R158: the registers of the operation's row of the table. -/
def RegFile.programmed (f : RegFile) (e : Engine) : RegFile :=
  match e.type, e.rw with
  | .quick, _ => f
  | .byte, .read => f
  | .byte, .write => { f with cmd := bufGet e.wbuf 0 }
  | .byteData, .read => { f with cmd := e.cmd }
  | .byteData, .write => { f with cmd := e.cmd, win := f.win.set 0 (bufGet e.wbuf 0) }
  | .blockData, .read => { f with cmd := e.cmd }
  | .blockData, .write =>
    { f with cmd := e.cmd, count := countByte e.wlen, win := windowHolding f.win e.wbuf (min e.wlen Config.WINDOW) }

/-- R157 to R159: the register file after StartTransfer. -/
def RegFile.started (f : RegFile) (p : Params) (e : Engine) : RegFile :=
  { { f with addr := addrByte e.sa e.rw }.programmed e with hostcnt := startByte p e.type }

@[simp] theorem RegFile.started_sts (f : RegFile) (p : Params) (e : Engine) : (f.started p e).sts = f.sts := by
  unfold started programmed
  split <;> rfl

/-- The record of a pass up to the read of its first poll, from the register file f and the engine e. -/
def openingEvents (b : Binding) (f : RegFile) (e : Engine) : List Event :=
  .rd8 (b.portOf .cnt) f.cnt :: clearFlagsEvents b f.cnt ++ startEvents b e ++
    [.delay .poll, .rd8 (b.portOf .sts) (f.sts &&& ~~~b.params.stsPreclear)]

/-- The engine after the first poll of a pass without busy bits, from the register file f. -/
def Engine.polled (e : Engine) (p : Params) (f : RegFile) : Engine :=
  { e with
    st := .pollComplete
    c := f.cnt
    got := if e.type = .blockData ∧ e.rw = .write then min e.wlen Config.WINDOW else e.got
    poll := 1
    s := f.sts &&& ~~~p.stsPreclear }

section
variable {s : State} (hs : s.Still) (e : Engine) (f : RegFile) (es : List Event)
include hs

/-- R158, R168: n entries placed from window byte i on, m of them standing before this group. -/
theorem State.Still.placeWindow_played (win : Vector Byte 8) {m i n : Nat} (hm : m % 8 = 0) (hi : i + n ≤ 8) :
    placeWindow (s.played e { f with win := windowHolding win e.wbuf (m + i) } es) m i n =
      s.played e { f with win := windowHolding win e.wbuf (m + i + n) }
        (es ++ (List.range' i n).map fun k => .wr8 (s.binding.portOf (winReg k)) (bufGet e.wbuf (m + k))) := by
  induction n generalizing i es with
  | zero => simp [placeWindow]
  | succ n ih =>
    rw [placeWindow, hs.wrReg_played, portWrite_winReg _ (by omega), State.played_eng,
      windowHolding_succ hm (by omega), Nat.add_assoc m i 1, ih _ (by omega), List.append_assoc, List.range'_succ,
      List.map_cons, List.singleton_append, show m + (i + 1) + n = m + i + (n + 1) by omega]

/-- One group of entries. -/
theorem State.Still.placeGroup_played (win : Vector Byte 8) {m n : Nat} (hm : m % 8 = 0) (hn : n ≤ 8) :
    placeWindow (s.played e { f with win := windowHolding win e.wbuf m } es) m 0 n =
      s.played e { f with win := windowHolding win e.wbuf (m + n) }
        (es ++ windowWriteEvents s.binding e.wbuf m n) := by
  rw [windowWriteEvents, List.range_eq_range']
  simpa only [Nat.add_zero] using hs.placeWindow_played e f es win (i := 0) hm (by omega)

/-- The first group. -/
theorem State.Still.placeFirst_played {n : Nat} (hn : n ≤ 8) :
    placeWindow (s.played e f es) 0 0 n =
      s.played e { f with win := windowHolding f.win e.wbuf n } (es ++ windowWriteEvents s.binding e.wbuf 0 n) := by
  simpa only [windowHolding_zero, Nat.zero_add] using hs.placeGroup_played e f es f.win (m := 0) rfl hn

/-! ### Up to the first poll -/

theorem State.Still.programOperands_played :
    programOperands (s.played e f es) =
      s.played
        { e with got := if e.type = .blockData ∧ e.rw = .write then min e.wlen Config.WINDOW else e.got }
        (f.programmed e) (es ++ operandEvents s.binding e) := by
  have hwin := hs.placeFirst_played e (n := min e.wlen Config.WINDOW)
  obtain ⟨st, type, rw, sa, cmd, wlen, wbuf, retry, poll, c, v, cnt, got, rbuf, rlen, ok, fail⟩ := e
  cases type <;> cases rw
  case byte.write => exact hs.wrReg_played ..
  case byteData.read => exact hs.wrReg_played ..
  case byteData.write =>
    simp only [programOperands, State.played_eng, hs.wrReg_played, List.append_assoc]
    rfl
  case blockData.read => exact hs.wrReg_played ..
  case blockData.write =>
    simp only [programOperands, State.played_eng, hs.wrReg_played, hwin _ _ (Nat.min_le_right ..), setGot_played,
      List.append_assoc]
    rfl
  all_goals exact congrArg (s.played _ f) (List.append_nil es).symm

theorem State.Still.startTransfer_played :
    startTransfer (s.played e f es) =
      s.played
        { e with
          got := if e.type = .blockData ∧ e.rw = .write then min e.wlen Config.WINDOW else e.got
          poll := 0
          st := .pollComplete }
        (f.started s.binding.params e) (es ++ startEvents s.binding e) := by
  rw [startTransfer, hs.wrReg_played, hs.programOperands_played, hs.wrReg_played, awaitPoll, State.played_setEng,
    List.append_assoc, List.append_assoc]
  rfl

/-- A pass without busy bits, taken through its first poll, which shows completion and no error (R151, R155 to R162). -/
theorem State.Still.passes_firstPoll (hst : e.st = .busyCheck) (hfree : isBusy s.binding.params f.cnt = false)
    (herr : isError s.binding.params (f.sts &&& ~~~s.binding.params.stsPreclear) = false)
    (hdone : isDone s.binding.params (f.sts &&& ~~~s.binding.params.stsPreclear) = true) :
    Passes (s.played e f [])
      (afterPoll (s.played (e.polled s.binding.params f) ((f.cleared s.binding.params).started s.binding.params e)
        (openingEvents s.binding f e))) := by
  refine .head (.of_eq hst rfl ((enginePhase_busyCheck hst).trans (hs.busyCheck_played e f [] hfree))) ?_
  refine .head (.of_eq rfl rfl (hs.clearFlags_played ..)) ?_
  refine .head (.of_eq rfl rfl (hs.startTransfer_played ..)) ?_
  refine .single (.of_eq rfl rfl ((hs.pollComplete_played _ _ _ ?_ ?_).trans ?_))
  · rwa [RegFile.started_sts]
  · rwa [RegFile.started_sts]
  · rw [RegFile.started_sts]
    rfl

end

end Sys2Proof.Machine
end

section
/-! The operations that move at most one byte (42_smbus_ops.md R180 to R185), completing at the first poll. -/

namespace Sys2Proof.Machine

section
variable {s : State} (hs : s.Still) {e : Engine} {f : RegFile} (hst : e.st = .busyCheck) (hfail : e.fail = .noFailure)
  (hfree : isBusy s.binding.params f.cnt = false)
  (herr : isError s.binding.params (f.sts &&& ~~~s.binding.params.stsPreclear) = false)
  (hdone : isDone s.binding.params (f.sts &&& ~~~s.binding.params.stsPreclear) = true)
include hs hst hfail hfree herr hdone

/-- R164, R170: nothing is fetched. -/
theorem State.Still.passes_noFetch (htype : e.type ≠ .blockData) (hfetch : ¬e.fetchesByte) :
    Passes (s.played e f [])
      (s.played { e.polled s.binding.params f with ok := true, st := .done }
        { (f.cleared s.binding.params).started s.binding.params e with sts := 0#8 }
        (openingEvents s.binding f e ++ [.wr8 (s.binding.portOf .sts) 0xFF#8])) := by
  have hopen := hs.passes_firstPoll e f hst hfree herr hdone
  have hend : (e.polled s.binding.params f).afterCompletion = .clearSticky := by
    unfold Engine.afterCompletion Engine.polled
    cases ht : e.type <;> simp [ht] at htype ⊢
  rw [afterPoll_goTo (by exact hfetch), State.played_eng, hend] at hopen
  exact hopen.tail (.of_eq rfl rfl (hs.clearSticky_played _ _ _ hfail))

/-- R164, R170: the byte received is that of window byte 0. -/
theorem State.Still.passes_fetchByte (hfetch : e.fetchesByte) :
    Passes (s.played e f [])
      (s.played
        { e.polled s.binding.params f with rbuf := e.rbuf.set 0 f.win[0], rlen := 1, ok := true, st := .done }
        { (f.cleared s.binding.params).started s.binding.params e with sts := 0#8 }
        (openingEvents s.binding f e ++
          [.rd8 (s.binding.portOf (.byte 0)) f.win[0], .wr8 (s.binding.portOf .sts) 0xFF#8])) := by
  have hopen := hs.passes_firstPoll e f hst hfree herr hdone
  have hwin : ((f.cleared s.binding.params).started s.binding.params e).win = f.win := by
    obtain ⟨ht | ht, hr⟩ := hfetch <;> simp [RegFile.started, RegFile.programmed, RegFile.cleared, ht, hr]
  rw [afterPoll_fetches (by exact hfetch), hs.fetchByte_played, bufPut_of_lt (by decide)] at hopen
  simp only [hwin] at hopen
  have hclear := hs.clearSticky_played
    { e.polled s.binding.params f with rbuf := e.rbuf.set 0 f.win[0], rlen := 1, st := .clearSticky }
    ((f.cleared s.binding.params).started s.binding.params e)
    (openingEvents s.binding f e ++ [.rd8 (s.binding.portOf (.byte 0)) f.win[0]]) hfail
  rw [List.append_assoc] at hclear
  exact hopen.tail (.of_eq rfl rfl hclear)

end

/-! ### The obligations -/

/-- Settles O45: a pass that fetches nothing and programs nothing. -/
theorem quickResult : Obligations.QuickResult := by
  intro sa rw s hs hhw hv hp hfree P port c v herr hdone
  have h := fun rw => (hs.still hhw hv hp).passes_noFetch (e := (latchSmb s .quick rw sa 0#8 []).eng) rfl rfl hfree herr
    hdone (by simp [latchSmb]) (by simp [latchSmb, Engine.fetchesByte])
  cases rw with
  | read => exact exec_of_passes rfl rfl hs (h .read) rfl
  | write => exact exec_of_passes rfl rfl hs (h .write) rfl

/-- Settles O46: a pass that fetches one byte. -/
theorem readByteResult : Obligations.ReadByteResult := by
  intro sa s hs hhw hv hp hfree P port c v herr hdone
  have h := (hs.still hhw hv hp).passes_fetchByte (e := (latchSmb s .byte .read sa 0#8 []).eng) rfl rfl hfree herr
    hdone (by simp [latchSmb, Engine.fetchesByte])
  exact exec_of_passes rfl rfl hs h rfl

/-- Settles O47: a pass that fetches nothing, its byte in the command register. -/
theorem writeByteResult : Obligations.WriteByteResult := by
  intro sa data s hs hhw hv hp hfree P port c v herr hdone
  have h := (hs.still hhw hv hp).passes_noFetch (e := (latchSmb s .byte .write sa 0#8 [data]).eng) rfl rfl hfree herr
    hdone (by simp [latchSmb]) (by simp [latchSmb, Engine.fetchesByte])
  have hexec := exec_of_passes (i := .smbWriteByte sa data) rfl rfl hs h rfl
  simp only [latchSmb, State.setEng_eng, bufLoad_singleton, RegFile.started, RegFile.programmed, bufGet_set_zero,
    openingEvents, startEvents, operandEvents] at hexec
  exact hexec

/-- Settles O48: a pass that fetches one byte, the command programmed. -/
theorem readByteDataResult : Obligations.ReadByteDataResult := by
  intro sa cmd s hs hhw hv hp hfree P port c v herr hdone
  have h := (hs.still hhw hv hp).passes_fetchByte (e := (latchSmb s .byteData .read sa cmd []).eng) rfl rfl hfree herr
    hdone (by simp [latchSmb, Engine.fetchesByte])
  exact exec_of_passes rfl rfl hs h rfl

/-- Settles O49: a pass that fetches nothing, its byte in window byte 0. -/
theorem writeByteDataResult : Obligations.WriteByteDataResult := by
  intro sa cmd data s hs hhw hv hp hfree P port c v herr hdone
  have h := (hs.still hhw hv hp).passes_noFetch (e := (latchSmb s .byteData .write sa cmd [data]).eng) rfl rfl hfree
    herr hdone (by simp [latchSmb]) (by simp [latchSmb, Engine.fetchesByte])
  have hexec := exec_of_passes (i := .smbWriteByteData sa cmd data) rfl rfl hs h rfl
  simp only [latchSmb, State.setEng_eng, bufLoad_singleton, RegFile.started, RegFile.programmed, bufGet_set_zero,
    openingEvents, startEvents, operandEvents] at hexec
  exact hexec

end Sys2Proof.Machine
end

section
/-! The block read (42_smbus_ops.md R186): its groups one after another, from the first poll to the end of the pass. -/

namespace Sys2Proof.Machine

/-! ### Groups of the window -/

/-- The entries below k of the eight, in order. -/
theorem filterMap_finRange_lt {α : Type} (k : Nat) (f : Nat → α) :
    ((List.finRange 8).filterMap fun i => if i.val < k then some (f i.val) else none) =
      (List.range (min 8 k)).map f := by
  obtain h | h := Nat.lt_or_ge k 8
  · interval_cases k <;> rfl
  · have hall : ∀ i : Fin 8, i.val < k := fun i => i.isLt.trans_le h
    rw [Nat.min_eq_left h]
    simp only [hall, if_true, List.filterMap_eq_map']
    rfl

theorem winReg_val (i : Fin 8) : winReg i.val = .byte i := by rw [winReg, Fin.ofNat_val_eq_self]

/-- R166: the window reads of group g of a block of n bytes. -/
def groupReads (b : Binding) (win : Vector Byte 8) (n g : Nat) : List Event :=
  (List.finRange 8).filterMap fun i => if 8 * g + i.val < n then some (.rd8 (b.portOf (.byte i)) win[i.val]) else none

theorem groupReads_eq (b : Binding) (f : RegFile) (n g : Nat) :
    groupReads b f.win n g =
      (List.range (groupSize n (8 * g))).map fun k => .rd8 (b.portOf (winReg k)) (f.get (winReg k)) := by
  rw [groupSize, Config.WINDOW, ← filterMap_finRange_lt, groupReads]
  refine List.filterMap_congr fun i _ => ?_
  rw [winReg_val]
  exact if_congr (by omega) rfl rfl

/-- R166, R168: the register file after a re-arm. -/
def RegFile.rearmed (f : RegFile) (p : Params) : RegFile := { f with sts := f.sts &&& ~~~p.stsBlockFin }

@[simp] theorem RegFile.rearmed_rearmed (f : RegFile) (p : Params) : (f.rearmed p).rearmed p = f.rearmed p := by
  simp [rearmed, BitVec.and_assoc]

/-- A re-arm brings up no error bit. -/
theorem isError_rearmed {p : Params} {f : RegFile} (h : isError p f.sts = false) :
    isError p (f.rearmed p).sts = false := by
  simp only [isError, ne_eq, decide_not, Bool.not_eq_false', decide_eq_true_eq] at h ⊢
  simp only [RegFile.rearmed]
  rw [BitVec.and_assoc, BitVec.and_comm (~~~_), ← BitVec.and_assoc, h, BitVec.zero_and]

/-- R10: a re-arm takes away no completion, the masks being disjoint. -/
theorem isDone_rearmed {p : Params} (hv : p.Valid) {f : RegFile} (h : isDone p f.sts = true) :
    isDone p (f.rearmed p).sts = true := by
  have hmask : ~~~p.stsBlockFin &&& p.stsDone = p.stsDone := by
    ext i hi
    have hbit : (p.stsBlockFin &&& p.stsDone)[i] = false := by simp [hv.blockFin_done]
    rw [BitVec.getElem_and] at hbit
    rw [BitVec.getElem_and, BitVec.getElem_not]
    cases hd : p.stsDone[i] <;> simp_all
  simp only [isDone, ne_eq, decide_not, Bool.not_eq_true', decide_eq_false_iff_not] at h ⊢
  rwa [RegFile.rearmed, BitVec.and_assoc, hmask]

/-- R167, R186: what is recorded of group g of a block read of n bytes: but for the first a poll, then its reads and the
re-arm. -/
def readGroup (b : Binding) (f : RegFile) (n g : Nat) : List Event :=
  (if g = 0 then [] else [.delay .poll, .rd8 (b.portOf .sts) (f.rearmed b.params).sts]) ++ groupReads b f.win n g ++
    [.wr8 (b.portOf .sts) b.params.stsBlockFin]

theorem readGroup_zero (b : Binding) (f : RegFile) (n : Nat) :
    readGroup b f n 0 = groupReads b f.win n 0 ++ [.wr8 (b.portOf .sts) b.params.stsBlockFin] := rfl

theorem readGroup_succ (b : Binding) (f : RegFile) (n g : Nat) :
    readGroup b f n (g + 1) = [.delay .poll, .rd8 (b.portOf .sts) (f.rearmed b.params).sts] ++
      (groupReads b f.win n (g + 1) ++ [.wr8 (b.portOf .sts) b.params.stsBlockFin]) := List.append_assoc ..

theorem readGroup_rearmed (b : Binding) (f : RegFile) (n : Nat) :
    readGroup b (f.rearmed b.params) n = readGroup b f n := by
  funext g
  rw [readGroup, RegFile.rearmed_rearmed]
  rfl

theorem portCount_readGroup (b : Binding) (f : RegFile) (n g : Nat) :
    portCount (readGroup b f n g) = (if g = 0 then 0 else 1) + groupSize n (8 * g) + 1 := by
  have hreads : portCount (groupReads b f.win n g) = groupSize n (8 * g) := by
    rw [groupReads_eq, portCount, List.filter_eq_self.2] <;> simp [Event.isPort]
  rw [readGroup, portCount_append, portCount_append, hreads]
  split <;> rfl

theorem portCount_readGroups (b : Binding) (f : RegFile) (n k : Nat) :
    portCount ((List.range k).flatMap (readGroup b f n)) = min (8 * k) n + k + (k - 1) := by
  induction k with
  | zero => simp
  | succ k ih =>
    rw [List.range_succ, List.flatMap_append, portCount_append, ih, List.flatMap_singleton, portCount_readGroup,
      groupSize, Config.WINDOW]
    split <;> omega

/-! ### The bytes fetched -/

/-- A buffer whose first n entries have been fetched from the window, eight to a group (R166). -/
def fetchedBuffer (buf : Buffer) (win : Vector Byte 8) (n : Nat) : Buffer :=
  Vector.ofFn fun j => if j.val < n then win[j.val % 8] else buf[j.val]

theorem fetchedBuffer_zero (buf : Buffer) (win : Vector Byte 8) : fetchedBuffer buf win 0 = buf := by
  refine Vector.ext fun j hj => ?_
  simp [fetchedBuffer]

theorem fetchedBuffer_succ (buf : Buffer) (win : Vector Byte 8) (n : Nat) :
    bufPut (fetchedBuffer buf win n) n win[n % 8] = fetchedBuffer buf win (n + 1) := by
  refine Vector.ext fun j hj => ?_
  simp only [bufPut, fetchedBuffer, Vector.getElem_setIfInBounds, Vector.getElem_ofFn]
  obtain rfl | hne := eq_or_ne n j
  · simp
  · rw [if_neg hne]
    exact if_congr (by omega) rfl rfl

/-- R165, R166: the byte count is not read again. -/
theorem blockReadLoop_later {s : State} (hgot : s.eng.got ≠ 0) (hcnt : s.eng.cnt ≠ 0) :
    blockReadLoop s = fetchGroup s := by
  rw [blockReadLoop, readCount, if_neg hgot]
  exact if_neg hcnt

/-- R167: after the last group. -/
theorem endGroup_last (s : State) (e : Engine) (f : RegFile) (es : List Event) (h : e.got = e.cnt) :
    endGroup (s.played e f es) = s.played { e with rlen := e.cnt, st := .clearSticky } f es := by
  simp [endGroup, moreGroups, h]

/-- R167: with more groups to come. -/
theorem endGroup_more (s : State) (e : Engine) (f : RegFile) (es : List Event) (h : e.got < e.cnt) :
    endGroup (s.played e f es) = s.played { e with poll := 0, st := .pollComplete } f es := by
  simp [endGroup, moreGroups, h, awaitPoll]

section
variable {s : State} (hs : s.Still) (e : Engine) (f : RegFile) (es : List Event)
include hs

theorem State.Still.fetchOne_played (i : Nat) :
    fetchOne (s.played e f es) i =
      s.played { e with rbuf := bufPut e.rbuf (e.got + i) (f.get (winReg i)) } f
        (es ++ [.rd8 (s.binding.portOf (winReg i)) (f.get (winReg i))]) := by
  simp only [fetchOne, hs.regVal_played, hs.afterReg_played, State.played_setEng, State.played_eng]

/-- R166: n entries fetched from window byte i on. -/
theorem State.Still.fetchWindow_played (buf : Buffer) {i n : Nat} (hgot : e.got % 8 = 0) :
    fetchWindow (s.played { e with rbuf := fetchedBuffer buf f.win (e.got + i) } f es) i n =
      s.played { e with rbuf := fetchedBuffer buf f.win (e.got + i + n) } f
        (es ++ (List.range' i n).map fun k => .rd8 (s.binding.portOf (winReg k)) (f.get (winReg k))) := by
  induction n generalizing es i with
  | zero => simp [fetchWindow]
  | succ n ih =>
    have hput : bufPut (fetchedBuffer buf f.win (e.got + i)) (e.got + i) (f.get (winReg i)) =
        fetchedBuffer buf f.win (e.got + (i + 1)) := by
      rw [← Nat.add_assoc, ← fetchedBuffer_succ]
      simp only [show (e.got + i) % 8 = i % 8 by omega]
      rfl
    rw [fetchWindow, hs.fetchOne_played]
    simp only [hput]
    rw [ih, List.append_assoc, List.range'_succ, List.map_cons, List.singleton_append,
      show e.got + (i + 1) + n = e.got + i + (n + 1) by omega]

/-- R166: group g of a block read. -/
theorem State.Still.fetchGroup_played (buf : Buffer) {g : Nat} (hmore : 8 * g < e.cnt) :
    fetchGroup (s.played { e with got := 8 * g, rbuf := fetchedBuffer buf f.win (8 * g) } f es) =
      endGroup (s.played
        { e with got := min (8 * (g + 1)) e.cnt, rbuf := fetchedBuffer buf f.win (min (8 * (g + 1)) e.cnt) }
        (f.rearmed s.binding.params)
        (es ++
          (groupReads s.binding f.win e.cnt g ++ [.wr8 (s.binding.portOf .sts) s.binding.params.stsBlockFin]))) := by
  have hsize : 8 * g + groupSize e.cnt (8 * g) = min (8 * (g + 1)) e.cnt := by
    rw [groupSize, Config.WINDOW]
    omega
  have hwin := hs.fetchWindow_played { e with got := 8 * g } f es buf (i := 0) (n := groupSize e.cnt (8 * g)) (by simp)
  simp only [Nat.add_zero, hsize, ← List.range_eq_range', ← groupReads_eq] at hwin
  simp only [fetchGroup, State.played_eng, hwin, setGot_played, hs.wrReg_played, hsize, List.append_assoc,
    State.played_binding]
  rfl

/-- R164, R167: a poll between two groups of a block read. -/
theorem State.Still.pollRead_played (htype : e.type = .blockData) (hrw : e.rw = .read)
    (herr : isError s.binding.params f.sts = false) (hdone : isDone s.binding.params f.sts = true) :
    pollComplete (s.played e f es) =
      s.played { e with s := f.sts, poll := e.poll + 1, st := .blockReadLoop } f
        (es ++ [.delay .poll, .rd8 (s.binding.portOf .sts) f.sts]) := by
  rw [hs.pollComplete_played e f es herr hdone, afterPoll, State.played_eng, htype, hrw]
  rfl

/-- R166, R167, R170: group g and the m groups after it, the last of the block, and the end of the pass. -/
theorem State.Still.passes_readGroups (buf : Buffer) {g m : Nat} (htype : e.type = .blockData) (hrw : e.rw = .read)
    (hfail : e.fail = .noFailure) (hlo : 8 * (g + m) < e.cnt) (hhi : e.cnt ≤ 8 * (g + m + 1))
    (herr : isError s.binding.params f.sts = false) (hdone : isDone s.binding.params f.sts = true) :
    Passes (fetchGroup (s.played { e with got := 8 * g, rbuf := fetchedBuffer buf f.win (8 * g) } f es))
      (s.played
        { e with
          got := e.cnt, rbuf := fetchedBuffer buf f.win e.cnt, rlen := e.cnt, ok := true, st := .done
          poll := if m = 0 then e.poll else 1
          s := if m = 0 then e.s else (f.rearmed s.binding.params).sts }
        { f with sts := 0#8 }
        (es ++ (groupReads s.binding f.win e.cnt g ++ [.wr8 (s.binding.portOf .sts) s.binding.params.stsBlockFin] ++
          (List.range' (g + 1) m).flatMap (readGroup s.binding f e.cnt) ++
          [.wr8 (s.binding.portOf .sts) 0xFF#8]))) := by
  induction m generalizing g e f es with
  | zero =>
    have hlast : min (8 * (g + 1)) e.cnt = e.cnt := by omega
    have hclear := hs.clearSticky_played
      { e with got := e.cnt, rbuf := fetchedBuffer buf f.win e.cnt, rlen := e.cnt, st := .clearSticky }
      (f.rearmed s.binding.params)
      (es ++ (groupReads s.binding f.win e.cnt g ++ [.wr8 (s.binding.portOf .sts) s.binding.params.stsBlockFin])) hfail
    rw [hs.fetchGroup_played e f es buf (by omega), hlast, endGroup_last s (h := rfl)]
    simp only [List.range'_zero, List.flatMap_nil, List.append_nil, List.append_assoc, if_true] at hclear ⊢
    exact .single (.of_eq rfl rfl hclear)
  | succ m ih =>
    have hmore : min (8 * (g + 1)) e.cnt = 8 * (g + 1) := by omega
    have herr' := isError_rearmed herr
    have hdone' := isDone_rearmed hs.wired.valid hdone
    have hrest := ih { e with poll := 1, s := (f.rearmed s.binding.params).sts, st := .blockReadLoop }
      (f.rearmed s.binding.params)
      (es ++ (groupReads s.binding f.win e.cnt g ++ [.wr8 (s.binding.portOf .sts) s.binding.params.stsBlockFin]) ++
        [.delay .poll, .rd8 (s.binding.portOf .sts) (f.rearmed s.binding.params).sts])
      (g := g + 1) htype hrw hfail (by simp only; omega) (by simp only; omega) herr' hdone'
    rw [hs.fetchGroup_played e f es buf (by omega), hmore, endGroup_more s (h := by simp only; omega)]
    refine .head (.of_eq rfl rfl (hs.pollRead_played _ _ _ htype hrw herr' hdone')) ?_
    refine .head (.of_eq rfl rfl (blockReadLoop_later (by simp) (by simp; omega))) ?_
    simp only [RegFile.rearmed_rearmed, readGroup_rearmed, ite_self, Nat.add_one_ne_zero, if_false,
      List.range'_succ, List.flatMap_cons, readGroup_succ, List.append_assoc] at hrest ⊢
    exact hrest

/-- R165 to R167, R170: a block read from its first completed poll to its end. -/
theorem State.Still.passes_readBlock (htype : e.type = .blockData) (hrw : e.rw = .read) (hfail : e.fail = .noFailure)
    (herr : isError s.binding.params f.sts = false) (hdone : isDone s.binding.params f.sts = true) {n : Nat}
    (hn : n = capCount f.count) :
    Passes (s.played { e with got := 0, poll := 1, st := .blockReadLoop } f es)
      (s.played
        { e with
          cnt := n, got := n, rbuf := fetchedBuffer e.rbuf f.win n, rlen := n, ok := true, st := .done, poll := 1
          s := if n ≤ 8 then e.s else (f.rearmed s.binding.params).sts }
        { f with sts := 0#8 }
        (es ++ (.rd8 (s.binding.portOf .count) f.count ::
          ((List.range ((n + 7) / 8)).flatMap (readGroup s.binding f n) ++
            [.wr8 (s.binding.portOf .sts) 0xFF#8])))) := by
  have hcount : readCount (s.played { e with got := 0, poll := 1, st := .blockReadLoop } f es) =
      s.played { e with cnt := n, got := 0, poll := 1, st := .blockReadLoop } f
        (es ++ [.rd8 (s.binding.portOf .count) f.count]) := by
    rw [readCount, State.played_eng, if_pos rfl, loadCount, hs.regVal_played, hs.afterReg_played, hn]
    rfl
  obtain rfl | hpos := Nat.eq_zero_or_pos n
  · have hclear := hs.clearSticky_played { e with cnt := 0, got := 0, rlen := 0, poll := 1, st := .clearSticky } f
      (es ++ [.rd8 (s.binding.portOf .count) f.count]) hfail
    rw [List.append_assoc] at hclear
    have hempty : blockReadLoop (s.played { e with got := 0, poll := 1, st := .blockReadLoop } f es) =
        s.played { e with cnt := 0, got := 0, rlen := 0, poll := 1, st := .clearSticky } f
          (es ++ [.rd8 (s.binding.portOf .count) f.count]) := by
      rw [blockReadLoop, hcount]
      rfl
    rw [fetchedBuffer_zero]
    exact .head (.of_eq rfl rfl hempty) (.single (.of_eq rfl rfl hclear))
  · have hloop : blockReadLoop (s.played { e with got := 0, poll := 1, st := .blockReadLoop } f es) =
        fetchGroup (s.played
          { e with
            cnt := n, poll := 1, st := .blockReadLoop, got := 8 * 0, rbuf := fetchedBuffer e.rbuf f.win (8 * 0) }
          f (es ++ [.rd8 (s.binding.portOf .count) f.count])) := by
      rw [blockReadLoop, hcount, Nat.mul_zero, fetchedBuffer_zero]
      exact if_neg (by simp; omega)
    obtain ⟨m, hm⟩ : ∃ m, (n + 7) / 8 = m + 1 := ⟨(n + 7) / 8 - 1, by omega⟩
    have hgroups := hs.passes_readGroups { e with cnt := n, poll := 1, st := .blockReadLoop } f
      (es ++ [.rd8 (s.binding.portOf .count) f.count]) e.rbuf
      (g := 0) (m := m) htype hrw hfail (by simp only; omega) (by simp only; omega) herr hdone
    have hone : m = 0 ↔ n ≤ 8 := by omega
    simp only [hone, ite_self, List.append_assoc] at hgroups
    simp only [hm, List.range_eq_range', List.range'_succ, List.flatMap_cons, readGroup_zero, List.append_assoc]
    exact hgroups.head (.of_eq rfl rfl hloop)

end

/-! ### The obligation -/

/-- Settles O50: the first poll, and from it the groups of the block; each group's accesses are counted. -/
theorem readBlockDataResult : Obligations.ReadBlockDataResult := by
  intro sa cmd s hs hhw hv hp hfree P port c v v' n win group es herr hdone
  have hstill := hs.still hhw hv hp
  have hes : es = openingEvents s.binding s.side.regs (latchSmb s .blockData .read sa cmd []).eng ++
      (.rd8 (port .count) s.side.regs.count ::
        ((List.range ((n + 7) / 8)).flatMap group ++ [.wr8 (port .sts) 0xFF#8])) := List.append_assoc ..
  constructor
  · have hgroup : group = readGroup s.binding (s.side.regs.cleared P) n := rfl
    rw [hes, portCount_append, portCount_cons, portCount_append, hgroup, portCount_readGroups]
    change 8 + (1 + (_ + 1)) = _
    clear_value n
    omega
  · have hopen := hstill.passes_firstPoll (latchSmb s .blockData .read sa cmd []).eng s.side.regs rfl hfree herr hdone
    have hblock := hstill.passes_readBlock
      ((latchSmb s .blockData .read sa cmd []).eng.polled P s.side.regs)
      ((s.side.regs.cleared P).started P (latchSmb s .blockData .read sa cmd []).eng)
      (openingEvents s.binding s.side.regs (latchSmb s .blockData .read sa cmd []).eng) rfl rfl rfl
      herr hdone (n := n) rfl
    rw [hes]
    exact exec_of_passes rfl rfl hs (hopen.trans hblock) rfl

end Sys2Proof.Machine
end

section
/-! The block write (42_smbus_ops.md R187): its groups one after another, from the first poll to the end of the pass. -/

namespace Sys2Proof.Machine

/-! ### The bytes placed -/

/-- R158, R168: the window writes of group g of a block of data bytes. -/
def groupWrites (b : Binding) (data : List Byte) (g : Nat) : List Event :=
  (List.finRange 8).filterMap fun i => (data[8 * g + i.val]?).map fun d => .wr8 (b.portOf (.byte i)) d

/-- R103: a latched byte is the byte sent. -/
theorem bufGet_latched (buf : Buffer) {data : List Byte} (hd : data.length ≤ 32) (j : Nat) :
    bufGet (bufLoad buf 0 data) j = data[j]?.getD (bufGet buf j) := by
  rw [bufGet_bufLoad _ _ _ (by omega), if_neg (Nat.not_lt_zero j), Nat.sub_zero]

theorem bufLoad_eq_ofFn (buf : Buffer) {data : List Byte} (hd : data.length ≤ 32) :
    bufLoad buf 0 data = Vector.ofFn fun j => data[j.val]?.getD buf[j.val] := by
  refine Vector.ext fun j hj => ?_
  have hbyte := bufGet_latched buf hd j
  simpa [bufGet, hj] using hbyte

theorem groupWrites_eq (b : Binding) (buf : Buffer) {data : List Byte} (hd : data.length ≤ 32) (g : Nat) :
    groupWrites b data g =
      windowWriteEvents b (bufLoad buf 0 data) (8 * g) (groupSize data.length (8 * g)) := by
  rw [groupSize, Config.WINDOW, windowWriteEvents, ← filterMap_finRange_lt, groupWrites]
  refine List.filterMap_congr fun i _ => ?_
  rw [winReg_val, bufGet_latched buf hd]
  by_cases hi : 8 * g + i.val < data.length
  · rw [List.getElem?_eq_getElem hi, if_pos (by omega)]
    rfl
  · rw [List.getElem?_eq_none (by omega), if_neg (by omega)]
    rfl

/-- R168: each window byte holds the last of the bytes sent that was written to it. -/
theorem windowHolding_latched (win : Vector Byte 8) (buf : Buffer) {data : List Byte} (hd : data.length ≤ 32) :
    windowHolding win (bufLoad buf 0 data) data.length = Vector.ofFn fun i =>
      if i.val < data.length then data[i.val + 8 * ((data.length - 1 - i.val) / 8)]?.getD 0#8 else win[i.val] := by
  refine Vector.ext fun i hi => ?_
  simp only [windowHolding, Vector.getElem_ofFn]
  split
  · rw [bufGet_latched buf hd, List.getElem?_eq_getElem (by omega)]
    rfl
  · rfl

/-- R168, R187: what is recorded of group g, not the first, of a block write: its writes, the re-arm and a poll. -/
def writeGroup (b : Binding) (f : RegFile) (data : List Byte) (g : Nat) : List Event :=
  groupWrites b data g ++
    [.wr8 (b.portOf .sts) b.params.stsBlockFin, .delay .poll, .rd8 (b.portOf .sts) (f.rearmed b.params).sts]

theorem writeGroup_rearmed (b : Binding) (f : RegFile) (data : List Byte) :
    writeGroup b (f.rearmed b.params) data = writeGroup b f data := by
  funext g
  rw [writeGroup, RegFile.rearmed_rearmed]
  rfl

theorem portCount_groupWrites (b : Binding) {data : List Byte} (hd : data.length ≤ 32) (g : Nat) :
    portCount (groupWrites b data g) = groupSize data.length (8 * g) := by
  rw [groupWrites_eq b (Vector.replicate 32 0) hd, portCount_windowWrites]

theorem portCount_writeGroups (b : Binding) (f : RegFile) {data : List Byte} (hd : data.length ≤ 32) (m : Nat) :
    portCount ((List.range' 1 m).flatMap (writeGroup b f data)) =
      min (8 * (m + 1)) data.length - min 8 data.length + 2 * m := by
  induction m with
  | zero => simp
  | succ m ih =>
    have hgroup : portCount (writeGroup b f data (1 + m)) = groupSize data.length (8 * (1 + m)) + 2 := by
      rw [writeGroup, portCount_append, portCount_groupWrites b hd]
      rfl
    rw [List.range'_1_concat, List.flatMap_append, portCount_append, ih, List.flatMap_singleton, hgroup, groupSize,
      Config.WINDOW]
    omega

section
variable {s : State} (hs : s.Still) (e : Engine) (f : RegFile) (es : List Event)
include hs

/-- R168: group g of a block write. -/
theorem State.Still.blockWriteLoop_played (win : Vector Byte 8) {g : Nat} (hmore : 8 * g < e.wlen) :
    blockWriteLoop
        (s.played { e with got := 8 * g } { f with win := windowHolding win e.wbuf (8 * g) } es) =
      s.played { e with got := min (8 * (g + 1)) e.wlen, poll := 0, st := .pollComplete }
        { f.rearmed s.binding.params with win := windowHolding win e.wbuf (min (8 * (g + 1)) e.wlen) }
        (es ++ (windowWriteEvents s.binding e.wbuf (8 * g) (groupSize e.wlen (8 * g)) ++
          [.wr8 (s.binding.portOf .sts) s.binding.params.stsBlockFin])) := by
  have hsize : 8 * g + groupSize e.wlen (8 * g) = min (8 * (g + 1)) e.wlen := by
    rw [groupSize, Config.WINDOW]
    omega
  have hwin := hs.placeGroup_played { e with got := 8 * g } f es win (m := 8 * g) (n := groupSize e.wlen (8 * g))
    (by omega) (Nat.min_le_left ..)
  simp only [hsize] at hwin
  simp only [blockWriteLoop, State.played_eng, hwin, setGot_played, hs.wrReg_played, hsize, List.append_assoc,
    State.played_binding, awaitPoll, State.played_setEng]
  rfl

/-- R164, R168: a poll of a block write. -/
theorem State.Still.pollWrite_played (htype : e.type = .blockData) (hrw : e.rw = .write)
    (herr : isError s.binding.params f.sts = false) (hdone : isDone s.binding.params f.sts = true) :
    pollComplete (s.played e f es) =
      s.played
        { e with s := f.sts, poll := e.poll + 1, st := if e.got < e.wlen then .blockWriteLoop else .clearSticky } f
        (es ++ [.delay .poll, .rd8 (s.binding.portOf .sts) f.sts]) := by
  rw [hs.pollComplete_played e f es herr hdone, afterPoll, State.played_eng, htype, hrw, moreGroups]
  simp only [decide_eq_true_eq, goTo_played]

/-- R168, R170: the m groups of a block write from group g on, the last of the block, and the end of the pass. The
status register has just shown a completion, and the entries before group g stand in the window. -/
theorem State.Still.passes_writeGroups (win : Vector Byte 8) (buf : Buffer) {data : List Byte} (hd : data.length ≤ 32)
    {g m : Nat} (htype : e.type = .blockData) (hrw : e.rw = .write) (hfail : e.fail = .noFailure)
    (hlen : e.wlen = data.length) (hbuf : e.wbuf = bufLoad buf 0 data) (hm : (e.wlen + 7) / 8 = g + m)
    (herr : isError s.binding.params f.sts = false) (hdone : isDone s.binding.params f.sts = true) :
    Passes
      (s.played
        { e with
          got := min (8 * g) e.wlen, poll := 1
          st := if min (8 * g) e.wlen < e.wlen then .blockWriteLoop else .clearSticky }
        { f with win := windowHolding win e.wbuf (min (8 * g) e.wlen) } es)
      (s.played
        { e with
          got := e.wlen, poll := 1, ok := true, st := .done
          s := if m = 0 then e.s else (f.rearmed s.binding.params).sts }
        { f with sts := 0#8, win := windowHolding win e.wbuf e.wlen }
        (es ++
          ((List.range' g m).flatMap (writeGroup s.binding f data) ++ [.wr8 (s.binding.portOf .sts) 0xFF#8]))) := by
  induction m generalizing g e f es with
  | zero =>
    have hall : min (8 * g) e.wlen = e.wlen := by omega
    simp only [hall, Nat.lt_irrefl, if_false]
    exact .single (.of_eq rfl rfl (hs.clearSticky_played _ _ _ hfail))
  | succ m ih =>
    have hmore : 8 * g < e.wlen := by omega
    have hgot : min (8 * g) e.wlen = 8 * g := by omega
    have herr' := isError_rearmed herr
    have hdone' := isDone_rearmed hs.wired.valid hdone
    have hgroup : windowWriteEvents s.binding e.wbuf (8 * g) (groupSize e.wlen (8 * g)) =
        groupWrites s.binding data g := by rw [groupWrites_eq _ buf hd, hbuf, hlen]
    have hrest := ih { e with s := (f.rearmed s.binding.params).sts } (f.rearmed s.binding.params)
      (es ++ writeGroup s.binding f data g) (g := g + 1) htype hrw hfail hlen hbuf (by simp only; omega) herr' hdone'
    have hloop := hs.blockWriteLoop_played { e with poll := 1, st := .blockWriteLoop } f es win hmore
    simp only [hgot, hmore, if_true]
    refine .head (.of_eq rfl rfl hloop) ?_
    refine .head (.of_eq rfl rfl (hs.pollWrite_played _ _ _ htype hrw herr' hdone')) ?_
    simp only [writeGroup_rearmed, RegFile.rearmed_rearmed, ite_self, Nat.add_one_ne_zero, if_false, List.range'_succ,
      List.flatMap_cons, List.append_assoc] at hrest ⊢
    rw [hgroup]
    exact hrest

end

/-- R157 to R160: the record of a block write up to its first poll. -/
theorem openingEvents_writeBlock (b : Binding) (f : RegFile) {e : Engine} (htype : e.type = .blockData)
    (hrw : e.rw = .write) :
    openingEvents b f e =
      [.rd8 (b.portOf .cnt) f.cnt, .rd8 (b.portOf .cnt) f.cnt,
        .wr8 (b.portOf .cnt) (controlWriteback b.params f.cnt), .wr8 (b.portOf .sts) b.params.stsPreclear,
        .wr8 (b.portOf .addr) (addrByte e.sa e.rw), .wr8 (b.portOf .cmd) e.cmd,
        .wr8 (b.portOf .count) (countByte e.wlen)] ++ windowWriteEvents b e.wbuf 0 (min e.wlen Config.WINDOW) ++
      [.wr8 (b.portOf .hostcnt) (startByte b.params e.type), .delay .poll,
        .rd8 (b.portOf .sts) (f.sts &&& ~~~b.params.stsPreclear)] := by
  simp [openingEvents, clearFlagsEvents, startEvents, operandEvents, htype, hrw]

/-! ### The obligation -/

/-- Settles O51: the first poll, and from it the groups after the first; the order of the bytes is that of O53. -/
theorem writeBlockDataResult : Obligations.WriteBlockDataResult := by
  intro sa cmd data s hpos hd hs hhw hv hp hfree P port c v v' n place es herr hdone
  have hstill := hs.still hhw hv hp
  have hlen : blockLengthOk data = true := decide_eq_true ⟨hpos, hd⟩
  have hes : es = openingEvents s.binding s.side.regs (latchSmb s .blockData .write sa cmd data).eng ++
      ((List.range' 1 ((n + 7) / 8 - 1)).flatMap (writeGroup s.binding (s.side.regs.cleared P) data) ++
        [.wr8 (port .sts) 0xFF#8]) := by
    have hfirst : windowWriteEvents s.binding (latchSmb s .blockData .write sa cmd data).eng.wbuf 0
        (min (latchSmb s .blockData .write sa cmd data).eng.wlen Config.WINDOW) = place 0 := by
      rw [Nat.min_comm]
      exact (groupWrites_eq s.binding s.eng.wbuf hd 0).symm
    have hlater : (fun g => writeGroup s.binding (s.side.regs.cleared P) data (1 + g)) = fun g =>
        place (g + 1) ++ [.wr8 (port .sts) P.stsBlockFin, .delay .poll, .rd8 (port .sts) v'] :=
      funext fun g => by rw [Nat.add_comm]; rfl
    rw [openingEvents_writeBlock _ _ rfl rfl, hfirst, List.range'_eq_map_range, List.flatMap_map, hlater]
    exact List.append_assoc ..
  have hexec : exec (.smbWriteBlockData sa cmd data) s = .next (s.played
      { (latchSmb s .blockData .write sa cmd data).eng with
        got := n, poll := 1, ok := true, st := .done, c := c, s := if n ≤ 8 then v else v' }
      { (s.side.regs.cleared P).started P (latchSmb s .blockData .write sa cmd data).eng with
        sts := 0#8, win := windowHolding s.side.regs.win (bufLoad s.eng.wbuf 0 data) n } es) := by
    have hopen := hstill.passes_firstPoll (latchSmb s .blockData .write sa cmd data).eng s.side.regs rfl hfree herr
      hdone
    have hgroups := hstill.passes_writeGroups
      ((latchSmb s .blockData .write sa cmd data).eng.polled P s.side.regs)
      ((s.side.regs.cleared P).started P (latchSmb s .blockData .write sa cmd data).eng)
      (openingEvents s.binding s.side.regs (latchSmb s .blockData .write sa cmd data).eng) s.side.regs.win s.eng.wbuf hd
      (g := 1) (m := (n + 7) / 8 - 1) rfl rfl rfl rfl rfl (by change (n + 7) / 8 = _; omega) herr hdone
    have hone : (n + 7) / 8 - 1 = 0 ↔ n ≤ 8 := by omega
    rw [afterPoll_goTo (by simp [Engine.fetchesByte, Engine.polled, latchSmb])] at hopen
    simp only [hone, Nat.min_comm (8 * 1)] at hgroups
    rw [hes]
    exact exec_of_passes rfl hlen hs (hopen.trans hgroups) rfl
  refine ⟨?_, ?_, ?_⟩
  · rw [hes, openingEvents_writeBlock _ _ rfl rfl, portCount_append, portCount_append, portCount_append,
      portCount_append, portCount_windowWrites, portCount_writeGroups _ _ hd]
    change 7 + min n 8 + 2 + (min (8 * ((n + 7) / 8 - 1 + 1)) n - min 8 n + _ + 1) = _
    have hn : 1 ≤ n := hpos
    clear_value n
    omega
  · have hsent := aBlockWriteSendsItsBytes sa cmd data s _ hs hv hexec rfl
    rwa [newEvents_played] at hsent
  · rw [hexec, windowHolding_latched _ _ hd, ← bufLoad_eq_ofFn _ hd]
    rfl

end Sys2Proof.Machine
end

section
/-! The register key of the PLL (43_client_sequences.md R203), bit by bit: the key, the mask and the scattered key each
bit by its position in the list, and from them the replaced register value (`getLsbD_encodeKey_position`,
`getLsbD_encodeKey_other`). -/

namespace Sys2Proof.Machine

/-! ### The key -/

theorem getKey_cons (k : Fin 8) (ks : List (Fin 8)) (r : Byte) :
    getKey (k :: ks) r = Nat.bit (r.getLsbD k.val) (getKey ks r) := by
  rw [getKey, Nat.bit_val, Nat.add_comm]

/-- Bit i of the key is the bit of the register value at the i-th position. -/
theorem testBit_getKey (ks : List (Fin 8)) (r : Byte) (i : Nat) (h : i < ks.length) :
    (getKey ks r).testBit i = r.getLsbD ks[i].val := by
  induction ks generalizing i with
  | nil => cases h
  | cons k ks ih =>
    rw [getKey_cons]
    cases i with
    | zero => exact Nat.testBit_bit_zero ..
    | succ i => exact (Nat.testBit_bit_succ ..).trans (ih i (Nat.lt_of_succ_lt_succ h))

theorem getKey_lt (ks : List (Fin 8)) (r : Byte) : getKey ks r < 2 ^ ks.length := by
  induction ks with
  | nil => exact Nat.one_pos
  | cons k ks ih =>
    have hbit := Bool.toNat_le (r.getLsbD k.val)
    rw [getKey, List.length_cons, Nat.pow_succ]
    omega

/-! ### The mask and the scattered key -/

theorem getLsbD_keyMask (ks : List (Fin 8)) (j : Fin 8) : (keyMask ks).getLsbD j.val = decide (j ∈ ks) := by
  have hone : ∀ k j : Fin 8, (1#8 <<< k.val).getLsbD j.val = decide (j = k) := by decide
  induction ks with
  | nil => exact BitVec.getLsbD_zero
  | cons k ks ih => simp only [keyMask, BitVec.getLsbD_or, hone, ih, List.mem_cons, Bool.decide_or]

/-- The lowest bit of a number, placed at position k. -/
theorem getLsbD_placedBit (n : Nat) (k j : Fin 8) :
    (BitVec.ofNat 8 (n % 2) <<< k.val).getLsbD j.val = (decide (j = k) && n.testBit 0) := by
  have hbit : ∀ m < 2, ∀ k j : Fin 8,
      (BitVec.ofNat 8 m <<< k.val).getLsbD j.val = (decide (j = k) && decide (m = 1)) := by decide
  rw [hbit _ (Nat.mod_lt _ Nat.two_pos), Nat.testBit_zero]

/-- Nothing is placed outside the key's positions. -/
theorem getLsbD_scatter_other {ks : List (Fin 8)} {j : Fin 8} (h : j ∉ ks) (n : Nat) :
    (scatter ks n).getLsbD j.val = false := by
  induction ks generalizing n with
  | nil => exact BitVec.getLsbD_zero
  | cons k ks ih =>
    obtain ⟨hk, hks⟩ := not_or.1 (mt List.mem_cons.2 h)
    rw [scatter, BitVec.getLsbD_or, getLsbD_placedBit, decide_eq_false hk, ih hks, Bool.false_and, Bool.false_or]

/-- At the i-th position stands bit i of the key, since no other position of the list is the same. -/
theorem getLsbD_scatter_position {ks : List (Fin 8)} (hks : ks.Nodup) (n i : Nat) (h : i < ks.length) :
    (scatter ks n).getLsbD ks[i].val = n.testBit i := by
  induction ks generalizing n i with
  | nil => cases h
  | cons k ks ih =>
    obtain ⟨hk, hks⟩ := List.nodup_cons.1 hks
    rw [scatter, BitVec.getLsbD_or, getLsbD_placedBit]
    cases i with
    | zero =>
      rw [List.getElem_cons_zero, getLsbD_scatter_other hk, decide_eq_true rfl, Bool.true_and, Bool.or_false]
    | succ i =>
      have hi := Nat.lt_of_succ_lt_succ h
      have hne : ks[i] ≠ k := ne_of_mem_of_not_mem (List.getElem_mem hi) hk
      rw [List.getElem_cons_succ, ih hks (n / 2) i hi, decide_eq_false hne, Bool.false_and, Bool.false_or,
        Nat.testBit_succ]

/-! ### The register value with its key replaced -/

theorem getLsbD_encodeKey (ks : List (Fin 8)) (r : Byte) (n : Nat) (j : Fin 8) :
    (encodeKey ks r n).getLsbD j.val = ((r.getLsbD j.val && !decide (j ∈ ks)) || (scatter ks n).getLsbD j.val) := by
  rw [encodeKey, BitVec.getLsbD_or, BitVec.getLsbD_and, BitVec.getLsbD_not, getLsbD_keyMask, decide_eq_true j.isLt,
    Bool.true_and]

theorem getLsbD_encodeKey_other {ks : List (Fin 8)} {j : Fin 8} (h : j ∉ ks) (r : Byte) (n : Nat) :
    (encodeKey ks r n).getLsbD j.val = r.getLsbD j.val := by
  rw [getLsbD_encodeKey, getLsbD_scatter_other h, decide_eq_false h, Bool.not_false, Bool.and_true, Bool.or_false]

theorem getLsbD_encodeKey_position {ks : List (Fin 8)} (hks : ks.Nodup) (r : Byte) (n i : Nat) (h : i < ks.length) :
    (encodeKey ks r n).getLsbD ks[i].val = n.testBit i := by
  rw [getLsbD_encodeKey, getLsbD_scatter_position hks, decide_eq_true (List.getElem_mem h), Bool.not_true,
    Bool.and_false, Bool.false_or]

/-- R203: a value's own key put back changes nothing. -/
theorem encodeKey_getKey {ks : List (Fin 8)} (hks : ks.Nodup) (r : Byte) : encodeKey ks r (getKey ks r) = r := by
  refine BitVec.eq_of_getLsbD_eq fun j hj => ?_
  by_cases hmem : ⟨j, hj⟩ ∈ ks
  · obtain ⟨i, hi, hpos⟩ := List.getElem_of_mem hmem
    have hbit := (getLsbD_encodeKey_position hks r (getKey ks r) i hi).trans (testBit_getKey ks r i hi)
    rwa [hpos] at hbit
  · exact getLsbD_encodeKey_other hmem r _

/-- R203: the key that was put in is read back. -/
theorem getKey_encodeKey {ks : List (Fin 8)} (hks : ks.Nodup) (r : Byte) {n : Nat} (hn : n < 2 ^ ks.length) :
    getKey ks (encodeKey ks r n) = n := by
  refine Nat.eq_of_testBit_eq fun i => ?_
  by_cases hi : i < ks.length
  · exact (testBit_getKey ks _ i hi).trans (getLsbD_encodeKey_position hks r n i hi)
  · have hbeyond : 2 ^ ks.length ≤ 2 ^ i := Nat.pow_le_pow_right Nat.two_pos (Nat.le_of_not_lt hi)
    rw [Nat.testBit_eq_false_of_lt (hn.trans_le hbeyond),
      Nat.testBit_eq_false_of_lt ((getKey_lt ks _).trans_le hbeyond)]

/-! ### The obligation -/

/-- Settles O54: the bits of the key and of the replaced value, and the round trips that follow from them. -/
theorem keyRoundTrip : Obligations.KeyRoundTrip := fun ks hks =>
  ⟨testBit_getKey ks, fun r n _ hj => getLsbD_encodeKey_other hj r n, encodeKey_getKey hks,
    fun r _ hn => getKey_encodeKey hks r hn⟩

end Sys2Proof.Machine
end

section
/-! The boot sequence (43_client_sequences.md R200, R201). `ConfigStretch` says that a stretch of it has kept the binding
and accessed configuration ports only; `BootRun` says what a part of the sequence makes of the state it began in, by the
way it ends, and is carried through the sequence by one rule, `BootRun.bind`. -/

namespace Sys2Proof.Machine

/-! ### Accesses to configuration ports -/

/-- A port access; where it moves one byte, at a configuration port. -/
def Event.OnConfigPorts (e : Event) : Prop :=
  e.isPort = true ∧ ∀ q v, e = .rd8 q v ∨ e = .wr8 q v → isConfigPort q = true

@[simp] theorem onConfigPorts_rd8 {q : Port} {v : Byte} : (Event.rd8 q v).OnConfigPorts ↔ isConfigPort q = true := by
  simp [Event.OnConfigPorts, Event.isPort]

@[simp] theorem onConfigPorts_wr8 {q : Port} {v : Byte} : (Event.wr8 q v).OnConfigPorts ↔ isConfigPort q = true := by
  simp [Event.OnConfigPorts, Event.isPort]

theorem onConfigPorts_rd32 (q : Port) (v : Dword) : (Event.rd32 q v).OnConfigPorts := ⟨rfl, by simp⟩

theorem onConfigPorts_wr32 (q : Port) (v : Dword) : (Event.wr32 q v).OnConfigPorts := ⟨rfl, by simp⟩

/-- The data window lies within the configuration ports (R63). -/
theorem isConfigPort_dataWindow {q : Port} (h : 0xCFC ≤ q.toNat ∧ q.toNat ≤ 0xCFF) : isConfigPort q = true :=
  decide_eq_true ⟨Nat.le_trans (by decide) h.1, h.2⟩

/-- From s to t the binding has stayed as it was, and what has been recorded is accesses to configuration ports. -/
structure ConfigStretch (s t : State) : Prop where
  binding : t.binding = s.binding
  trace : ∃ es, t.side.trace = s.side.trace ++ es ∧ ∀ e ∈ es, e.OnConfigPorts

namespace ConfigStretch

theorem refl (s : State) : ConfigStretch s s := ⟨rfl, [], by simp, by simp⟩

theorem one {s t : State} {e : Event} (hb : t.binding = s.binding) (h : t.side.trace = s.side.trace ++ [e])
    (he : e.OnConfigPorts) : ConfigStretch s t := ⟨hb, [e], h, by simpa using he⟩

theorem trans {s t u : State} (h : ConfigStretch s t) (k : ConfigStretch t u) : ConfigStretch s u where
  binding := k.binding.trans h.binding
  trace := by
    obtain ⟨es, hes, hports⟩ := h.trace
    obtain ⟨fs, hfs, kports⟩ := k.trace
    exact ⟨es ++ fs, by rw [hfs, hes, List.append_assoc], List.forall_mem_append.2 ⟨hports, kports⟩⟩

theorem read8 (s : State) {q : Port} (h : 0xCFC ≤ q.toNat ∧ q.toNat ≤ 0xCFF) : ConfigStretch s (afterRead8 s q) :=
  .one rfl (afterRead8_side_trace ..) (onConfigPorts_rd8.2 (isConfigPort_dataWindow h))

theorem write8 (s : State) {q : Port} (h : 0xCFC ≤ q.toNat ∧ q.toNat ≤ 0xCFF) (v : Byte) :
    ConfigStretch s (write8 s q v) := .one rfl (write8_side_trace ..) (onConfigPorts_wr8.2 (isConfigPort_dataWindow h))

theorem setRdata (s : State) (v : Dword) : ConfigStretch s (setRdata s v) :=
  ⟨rfl, [], by simp [Machine.setRdata], by simp⟩

/-- One configuration access inside the data window: its address phase, and one or two data accesses. -/
theorem runAccess (s : State) {a : CfgAccess} (h : a.wellFormed = true) : ConfigStretch s (runAccess s a) := by
  have haddress : ConfigStretch s (addressPhase (acceptAccess s a)) := by
    cases a <;> exact .one rfl (write32_side_trace ..) (onConfigPorts_wr32 ..)
  refine haddress.trans ?_
  cases a with
  | rd8 b d f r => exact (read8 _ (dataPort_config r)).trans (setRdata ..)
  | rd16 b d f r => exact ((read8 _ (dataPort_config r)).trans (read8 _ (dataPort_succ_config h))).trans (setRdata ..)
  | rd32 b d f r => exact .one rfl (afterRead32_side_trace ..) (onConfigPorts_rd32 ..)
  | wr8 b d f r v => exact write8 _ (dataPort_config r) _
  | wr16 b d f r v => exact (write8 _ (dataPort_config r) _).trans (write8 _ (dataPort_succ_config h) _)
  | wr32 b d f r v => exact .one rfl (write32_side_trace ..) (onConfigPorts_wr32 ..)

end ConfigStretch

/-! ### Parts of the sequence -/

/-- What a part of the boot sequence makes of the state s the sequence began in: a result of which `post` holds, or one
of the two failure kinds of R201 with the binding as it was in s. Of the other stops nothing is said. -/
def BootRun {α : Type} (s : State) (post : α → Prop) : Except ClientStop α → Prop
  | .ok a => post a
  | .error (.failed k t) => t.binding = s.binding ∧ (k = .identityMismatch ∨ k = .firmwareState)
  | .error (.emptyResult _) => True
  | .error (.refused _) => True

namespace BootRun

variable {α β : Type} {s u : State} {post : α → Prop} {post' : β → Prop}

/-- A part of the sequence, and what follows its result. -/
theorem bind {x : Except ClientStop α} {f : α → Except ClientStop β} (hx : BootRun s post x)
    (hf : ∀ a, post a → BootRun s post' (f a)) : BootRun s post' (x >>= f) := by
  cases x with
  | ok a => exact hf a hx
  | error e => cases e <;> exact hx

theorem map {x : Except ClientStop α} {g : α → β} (hx : BootRun s post x) (hg : ∀ a, post a → post' (g a)) :
    BootRun s post' (x.map g) := by
  cases x with
  | ok a => exact hg a hx
  | error e => cases e <;> exact hx

/-- A configuration command: it stays in the data window, or the block refuses it. -/
theorem issue {i : Instr} {a : CfgAccess} (ha : cfgAccessOf i = some a) (hu : ConfigStretch s u) :
    BootRun s (ConfigStretch s) (issue i u) := by
  unfold Machine.issue
  cases h : exec i u with
  | next t =>
    rw [exec_cfg ha, cfgOperation_next] at h
    obtain ⟨-, hw, rfl⟩ := h
    exact hu.trans (.runAccess u hw)
  | fault _ => trivial
  | refused _ => trivial

theorem clientRd16 (f : FunctionBlock) (reg : Byte) (hu : ConfigStretch s u) :
    BootRun s (fun r => ConfigStretch s r.2) (clientRd16 f reg u) := (issue rfl hu).map fun _ ht => ht

theorem clientRd8 (f : FunctionBlock) (reg : Byte) (hu : ConfigStretch s u) :
    BootRun s (fun r => ConfigStretch s r.2) (clientRd8 f reg u) := (issue rfl hu).map fun _ ht => ht

/-- R200: two reads of the function's identity. -/
theorem identityMatches (p : ClientParams) (f : FunctionBlock) (hu : ConfigStretch s u) :
    BootRun s (fun r => ConfigStretch s r.2) (identityMatches p f u) :=
  (clientRd16 f p.vidReg hu).bind fun _ hv => (clientRd16 f p.didReg hv).bind fun _ hd => hd

/-- R201: the enable bit is found set, or set and found set, or the sequence fails. -/
theorem enableAcpi (p : ClientParams) (hu : ConfigStretch s u) :
    BootRun s (ConfigStretch s) (enableAcpi p u) := by
  refine (clientRd8 _ _ hu).bind fun ⟨c, v⟩ hv => ?_
  by_cases hset : c &&& p.acpiEnMask ≠ 0#8
  · simp only [if_pos hset]
    exact hv
  · simp only [if_neg hset]
    refine (issue rfl hv).bind fun w hw => (clientRd8 _ _ hw).bind fun ⟨d, x⟩ hx => ?_
    by_cases hset' : d &&& p.acpiEnMask ≠ 0#8
    · simp only [if_pos hset']
      exact hx
    · simp only [if_neg hset']
      exact ⟨hx.binding, .inr rfl⟩

end BootRun

/-! ### The bind step -/

/-- R262: the bind step answers next exactly with no pass active, no base bound and a base that is not one of the two
invalid values. -/
theorem bindBase_next {s t : State} {b : Port} :
    bindBase s b = .next t ↔ s.eng.st.accepting = true ∧ s.binding.baseValid = false ∧ b ∉ Config.BASE_INVALID ∧
      t = (s.setBinding { s.binding with base := b, baseValid := true }).setEng { s.eng with st := .idle } := by
  unfold bindBase whenIdle
  split
  next hidle =>
    split
    next hbound => simp [hbound]
    next hbound =>
      split
      next hinvalid => simp [hinvalid]
      next hinvalid => simp [hidle, hbound, hinvalid, eq_comm]
  next hactive => simp [hactive]

/-- The state t comes from s by accesses to configuration ports and then the first bind step, of a valid base. -/
structure FirstBound (s t : State) : Prop where
  unbound : s.binding.baseValid = false
  bound : t.binding.baseValid = true
  valid : t.binding.base ∉ Config.BASE_INVALID
  idle : t.eng.st = .idle
  trace : ∃ es, t.side.trace = s.side.trace ++ es ∧ ∀ e ∈ es, e.OnConfigPorts

theorem ConfigStretch.firstBound {s u t : State} {b : Port} (hu : ConfigStretch s u) (h : bindBase u b = .next t) :
    FirstBound s t := by
  obtain ⟨-, hunbound, hvalid, rfl⟩ := bindBase_next.1 h
  exact ⟨hu.binding ▸ hunbound, rfl, hvalid, rfl, hu.trace⟩

/-! ### The whole sequence -/

/-- R201: identity, ACPI enable, base register, bind. -/
theorem initSMB_bootRun (p : ClientParams) (s : State) : BootRun s (FirstBound s) (initSMB p s) := by
  refine (BootRun.identityMatches p p.lpc (.refl s)).bind fun ⟨hit, u⟩ hu => ?_
  cases hit with
  | false => exact ⟨hu.binding, .inl rfl⟩
  | true =>
    refine (BootRun.enableAcpi p hu).bind fun v hv => (BootRun.clientRd16 _ _ hv).bind fun ⟨b, w⟩ hw => ?_
    by_cases hinvalid : b ∈ Config.BASE_INVALID
    · simp only [if_pos hinvalid]
      exact ⟨hw.binding, .inr rfl⟩
    · simp only [if_neg hinvalid]
      cases hbind : bindBase w b with
      | next t => exact hw.firstBound hbind
      | fault _ => trivial
      | refused _ => trivial

/-! ### The obligation -/

/-- Settles O55: what a run of the whole sequence makes of the state, read off for its two kinds of end. -/
theorem initSmbBindsAValidBase : Obligations.InitSmbBindsAValidBase := by
  intro p s
  have hrun := initSMB_bootRun p s
  refine ⟨fun t ht => ?_, fun k t ht => ?_⟩ <;> rw [ht] at hrun
  · obtain ⟨hunbound, hbound, hvalid, hidle, htrace⟩ := hrun
    obtain ⟨hzero, hones⟩ : t.binding.base ≠ 0x0000#16 ∧ t.binding.base ≠ 0xFFFF#16 := by
      simpa [Config.BASE_INVALID] using hvalid
    exact ⟨hunbound, hbound, hzero, hones, hidle, htrace⟩
  · exact hrun

end Sys2Proof.Machine
end

section
/-! Reset and the bind step (70_reset_and_hazards.md R260, R262). What the bind step answers is said value by value:
here the two values and the second bind that it refuses, in `bindBase_next` when it takes the base. -/

namespace Sys2Proof.Machine

/-! ### What the bind step answers -/

/-- R262: a second bind is refused, whatever its value. -/
theorem bindBase_second {s : State} (hs : CfgReady s) (hbound : s.binding.baseValid = true) (b : Port) :
    bindBase s b = .refused .bindTwice := by
  rw [bindBase, whenIdle_ready hs, if_pos hbound]

/-- R262: uninitialized firmware gives one of two values, which are refused. -/
theorem bindBase_invalid {s : State} {b : Port} (hs : CfgReady s) (hunbound : s.binding.baseValid = false)
    (hb : b ∈ Config.BASE_INVALID) : bindBase s b = .refused .bindInvalid := by
  rw [bindBase, whenIdle_ready hs, if_neg (by simp [hunbound]), if_pos hb]

theorem mem_baseInvalid {b : Port} : b ∈ Config.BASE_INVALID ↔ b = 0x0000#16 ∨ b = 0xFFFF#16 := by
  simp [Config.BASE_INVALID]

/-- R107: with no pass active, a value the client hands over goes to the bind step. -/
theorem step_bind {s : State} {b : Port} {rest : List ClientInput} (hs : CfgReady s)
    (hi : s.inbox = .bind b :: rest) : step s = bindBase (s.setInbox rest) b := by
  rw [step, if_pos hs, hi]
  rfl

/-! ### The obligations -/

/-- Settles O11: the three answers of the bind step, each on the state with the input taken. -/
theorem bindStep : Obligations.BindStep := by
  intro s b rest hs hi
  have hready : CfgReady (s.setInbox rest) := hs
  rw [step_bind hs hi]
  refine ⟨fun hbound => bindBase_second hready hbound b,
    fun hunbound hb => bindBase_invalid hready hunbound (mem_baseInvalid.2 hb), fun hunbound hzero hones => ?_⟩
  exact bindBase_next.2 ⟨hready, hunbound, fun hb => (mem_baseInvalid.1 hb).elim hzero hones, rfl⟩

/-- Settles O12: each register by the value reset gives it. -/
theorem resetState : Obligations.ResetState := ⟨rfl, rfl, rfl, rfl, rfl, rfl⟩

end Sys2Proof.Machine
end

section
/-! Command words of the test vectors (95_test_vectors.md V1 to V57). A command decodes to an instruction exactly when
that is well-formed and encodes to it, so each word is checked by encoding the instruction it names. -/

namespace Sys2Proof

theorem decode_eq_ok_iff {c : Command} {i : Instr} : decode c = .ok i ↔ i.wellFormed = true ∧ encode i = c :=
  ⟨encode_decode, fun ⟨hw, hc⟩ => hc ▸ decode_encode hw⟩

/-- Settles O4: each of the nine commands is the encoding of the well-formed instruction it names. -/
theorem vectorWordsDecode : Obligations.VectorWordsDecode := by
  refine ⟨?_, ?_, ?_, ?_, ?_, ?_, ?_, ?_, ?_⟩ <;> exact decode_eq_ok_iff.2 ⟨rfl, rfl⟩

end Sys2Proof
end
